-- ==== Sys2Proof/Word.lean ====
section
/-! DEFINITION. The word types of the CORE (spec/00_scope.md R8: all registers and memory words are 32 bits wide). -/

namespace Sys2Proof

/-- A 32-bit register, memory word or stored sample; bit 0 is the least significant bit (R8). -/
abbrev Word := BitVec 32

/-- One byte of the sample memory as a byte-addressed platform sees it (spec/20_memory.md R62). -/
abbrev Byte := BitVec 8

end Sys2Proof
end

