-- ==== Sys2Proof/Config.lean ====
section
/-! DEFINITION. The implementation parameters of spec/00_scope.md R7 and their default values (log 1), the constants of R6, and the
free values that the spec leaves open (log 2, log 4). -/

namespace Sys2Proof

/-- The default of `AW`, the width in bits of a sample-memory word address (R7, R60). -/
def Config.addressWidth : Nat := 32

/-- The default of `N_URB`, the number of user ring-buffer slots (R7, R27). -/
def Config.userSlots : Nat := 2

/-- The default of `URB_MAX_CAP`, the largest capacity of a user ring buffer (R7). -/
def Config.userCapacityMax : Nat := 65536

/-- The default of `NCH_MAX`, the largest channel count of the vibrato engine (R7). -/
def Config.channelsMax : Nat := 8

/-- The default of `DL_MAX_CAP`, the largest delay-line length of the vibrato engine (R7). -/
def Config.delayLineMax : Nat := 1025

/-- `SINE` (R7, R36): the default table, or the 2048 entries of another. -/
inductive SineContents where
  /-- The correctly rounded table of R36. -/
  | standard
  /-- Another table, entry 0 first. -/
  | custom (entries : List Word)
  deriving DecidableEq, Repr

/-- The implementation parameters (R7). A machine has one value of each, which no event changes (log 1). What values are legal is
`paramsLegal` (Safety.lean). -/
structure Params where
  /-- `AW`. -/
  addressWidth : Nat
  /-- `N_URB`. -/
  userSlots : Nat
  /-- `URB_MAX_CAP`. -/
  userCapacityMax : Nat
  /-- `NCH_MAX`. -/
  channelsMax : Nat
  /-- `DL_MAX_CAP`. -/
  delayLineMax : Nat
  /-- `SINE`. -/
  sine : SineContents
  deriving DecidableEq, Repr

/-- `TABLE_LEN`: number of entries of the LFO's one-cycle table, a fixed constant (R6). -/
def Config.tableLength : Nat := 2048

/-- The primitives that can produce a NaN (R15), and the fractional read at a non-finite offset (R108). -/
inductive FloatOp where
  | add | sub | mul | div | interp
  deriving DecidableEq, Repr

/-- `NaNResult` (R7, R15, U1): the NaN that an operation produces from its operands. A FREE VALUE: nothing constrains it
(log 2). Its sign, bit 31, and its payload, bits 21:0, are used; the bits that make a word a quiet NaN are not (log 3). -/
opaque Config.nanBits : FloatOp → Word → Word → Word

/-- What the byte at a byte address of the sample memory reads as while no agent has written it (U13: any value). A FREE
VALUE: nothing constrains it (log 4). -/
opaque Config.powerUpByte : Nat → Byte

end Sys2Proof
end

