-- ==== Sys2Proof/Machine/Sine.lean ====
section
/-! DEFINITION. The sine table `SINE[0 .. 2047]` of spec/10_state.md R36, at the spec's default contents (log 1). -/

namespace Sys2Proof.Machine

/-- `SINE[0] .. SINE[63]`, eight entries a row (R36). -/
def sineRows0 : List (List Nat) :=
  [[0x00000000, 0x3B490FC6, 0x3BC90F88, 0x3C16CB58, 0x3C490E90, 0x3C7B514B, 0x3C96C9B6, 0x3CAFEA69],
   [0x3CC90AB0, 0x3CE22A7A, 0x3CFB49BA, 0x3D0A342F, 0x3D16C32C, 0x3D2351CB, 0x3D2FE007, 0x3D3C6DD5],
   [0x3D48FB30, 0x3D55880E, 0x3D621469, 0x3D6EA038, 0x3D7B2B74, 0x3D83DB0A, 0x3D8A200A, 0x3D9064B4],
   [0x3D96A905, 0x3D9CECF9, 0x3DA3308C, 0x3DA973BA, 0x3DAFB680, 0x3DB5F8DA, 0x3DBC3AC3, 0x3DC27C39],
   [0x3DC8BD36, 0x3DCEFDB7, 0x3DD53DB9, 0x3DDB7D37, 0x3DE1BC2E, 0x3DE7FA9A, 0x3DEE3876, 0x3DF475C0],
   [0x3DFAB273, 0x3E007745, 0x3E039502, 0x3E06B26E, 0x3E09CF86, 0x3E0CEC4A, 0x3E1008B7, 0x3E1324CA],
   [0x3E164083, 0x3E195BE0, 0x3E1C76DE, 0x3E1F917B, 0x3E22ABB6, 0x3E25C58C, 0x3E28DEFC, 0x3E2BF804],
   [0x3E2F10A2, 0x3E3228D4, 0x3E354098, 0x3E3857EC, 0x3E3B6ECF, 0x3E3E853E, 0x3E419B37, 0x3E44B0B9]]

/-- `SINE[64] .. SINE[127]`, eight entries a row (R36). -/
def sineRows1 : List (List Nat) :=
  [[0x3E47C5C2, 0x3E4ADA4F, 0x3E4DEE60, 0x3E5101F1, 0x3E541501, 0x3E57278F, 0x3E5A3997, 0x3E5D4B1A],
   [0x3E605C13, 0x3E636C83, 0x3E667C66, 0x3E698BBA, 0x3E6C9A7F, 0x3E6FA8B2, 0x3E72B651, 0x3E75C35A],
   [0x3E78CFCC, 0x3E7BDBA4, 0x3E7EE6E1, 0x3E80F8C0, 0x3E827DC0, 0x3E840270, 0x3E8586CE, 0x3E870ADA],
   [0x3E888E93, 0x3E8A11F7, 0x3E8B9507, 0x3E8D17C0, 0x3E8E9A22, 0x3E901C2C, 0x3E919DDD, 0x3E931F35],
   [0x3E94A031, 0x3E9620D2, 0x3E97A117, 0x3E9920FE, 0x3E9AA086, 0x3E9C1FAF, 0x3E9D9E78, 0x3E9F1CDF],
   [0x3EA09AE5, 0x3EA21887, 0x3EA395C5, 0x3EA5129F, 0x3EA68F12, 0x3EA80B1F, 0x3EA986C4, 0x3EAB0201],
   [0x3EAC7CD4, 0x3EADF73C, 0x3EAF713A, 0x3EB0EACB, 0x3EB263EF, 0x3EB3DCA5, 0x3EB554EC, 0x3EB6CCC3],
   [0x3EB8442A, 0x3EB9BB1E, 0x3EBB31A0, 0x3EBCA7AF, 0x3EBE1D4A, 0x3EBF926F, 0x3EC1071E, 0x3EC27B55]]

/-- `SINE[128] .. SINE[191]`, eight entries a row (R36). -/
def sineRows2 : List (List Nat) :=
  [[0x3EC3EF15, 0x3EC5625C, 0x3EC6D529, 0x3EC8477C, 0x3EC9B953, 0x3ECB2AAE, 0x3ECC9B8B, 0x3ECE0BEA],
   [0x3ECF7BCA, 0x3ED0EB2A, 0x3ED25A09, 0x3ED3C867, 0x3ED53641, 0x3ED6A399, 0x3ED8106B, 0x3ED97CB9],
   [0x3EDAE880, 0x3EDC53C1, 0x3EDDBE79, 0x3EDF28A9, 0x3EE0924F, 0x3EE1FB6A, 0x3EE363FA, 0x3EE4CBFE],
   [0x3EE63375, 0x3EE79A5D, 0x3EE900B7, 0x3EEA6681, 0x3EEBCBBB, 0x3EED3063, 0x3EEE9479, 0x3EEFF7FB],
   [0x3EF15AEA, 0x3EF2BD43, 0x3EF41F07, 0x3EF58035, 0x3EF6E0CB, 0x3EF840C8, 0x3EF9A02D, 0x3EFAFEF7],
   [0x3EFC5D27, 0x3EFDBABB, 0x3EFF17B2, 0x3F003A06, 0x3F00E7E4, 0x3F019573, 0x3F0242B1, 0x3F02EF9F],
   [0x3F039C3D, 0x3F044889, 0x3F04F484, 0x3F05A02C, 0x3F064B82, 0x3F06F686, 0x3F07A136, 0x3F084B92],
   [0x3F08F59B, 0x3F099F4E, 0x3F0A48AD, 0x3F0AF1B7, 0x3F0B9A6B, 0x3F0C42C9, 0x3F0CEAD0, 0x3F0D9281]]

/-- `SINE[192] .. SINE[255]`, eight entries a row (R36). -/
def sineRows3 : List (List Nat) :=
  [[0x3F0E39DA, 0x3F0EE0DB, 0x3F0F8784, 0x3F102DD5, 0x3F10D3CD, 0x3F11796B, 0x3F121EB0, 0x3F12C39A],
   [0x3F13682A, 0x3F140C5F, 0x3F14B039, 0x3F1553B7, 0x3F15F6D9, 0x3F16999F, 0x3F173C07, 0x3F17DE12],
   [0x3F187FC0, 0x3F19210F, 0x3F19C200, 0x3F1A6293, 0x3F1B02C6, 0x3F1BA299, 0x3F1C420C, 0x3F1CE11F],
   [0x3F1D7FD1, 0x3F1E1E22, 0x3F1EBC12, 0x3F1F599F, 0x3F1FF6CB, 0x3F209393, 0x3F212FF9, 0x3F21CBFB],
   [0x3F226799, 0x3F2302D3, 0x3F239DA9, 0x3F24381A, 0x3F24D225, 0x3F256BCB, 0x3F26050A, 0x3F269DE3],
   [0x3F273656, 0x3F27CE61, 0x3F286605, 0x3F28FD41, 0x3F299415, 0x3F2A2A80, 0x3F2AC082, 0x3F2B561B],
   [0x3F2BEB4A, 0x3F2C800F, 0x3F2D1469, 0x3F2DA859, 0x3F2E3BDE, 0x3F2ECEF7, 0x3F2F61A5, 0x3F2FF3E6],
   [0x3F3085BB, 0x3F311722, 0x3F31A81D, 0x3F3238AA, 0x3F32C8C9, 0x3F33587A, 0x3F33E7BC, 0x3F34768F]]

/-- `SINE[256] .. SINE[319]`, eight entries a row (R36). -/
def sineRows4 : List (List Nat) :=
  [[0x3F3504F3, 0x3F3592E7, 0x3F36206C, 0x3F36AD7F, 0x3F373A23, 0x3F37C655, 0x3F385216, 0x3F38DD65],
   [0x3F396842, 0x3F39F2AC, 0x3F3A7CA4, 0x3F3B0629, 0x3F3B8F3B, 0x3F3C17D9, 0x3F3CA003, 0x3F3D27B8],
   [0x3F3DAEF9, 0x3F3E35C5, 0x3F3EBC1B, 0x3F3F41FC, 0x3F3FC767, 0x3F404C5C, 0x3F40D0DA, 0x3F4154E1],
   [0x3F41D870, 0x3F425B89, 0x3F42DE29, 0x3F436051, 0x3F43E200, 0x3F446337, 0x3F44E3F5, 0x3F456439],
   [0x3F45E403, 0x3F466354, 0x3F46E22A, 0x3F476085, 0x3F47DE65, 0x3F485BCA, 0x3F48D8B3, 0x3F495521],
   [0x3F49D112, 0x3F4A4C87, 0x3F4AC77F, 0x3F4B41FA, 0x3F4BBBF8, 0x3F4C3578, 0x3F4CAE79, 0x3F4D26FD],
   [0x3F4D9F02, 0x3F4E1689, 0x3F4E8D90, 0x3F4F0417, 0x3F4F7A1F, 0x3F4FEFA8, 0x3F5064AF, 0x3F50D937],
   [0x3F514D3D, 0x3F51C0C2, 0x3F5233C6, 0x3F52A649, 0x3F531849, 0x3F5389C7, 0x3F53FAC3, 0x3F546B3B]]

/-- `SINE[320] .. SINE[383]`, eight entries a row (R36). -/
def sineRows5 : List (List Nat) :=
  [[0x3F54DB31, 0x3F554AA4, 0x3F55B993, 0x3F5627FE, 0x3F5695E5, 0x3F570348, 0x3F577026, 0x3F57DC7F],
   [0x3F584853, 0x3F58B3A1, 0x3F591E6A, 0x3F5988AD, 0x3F59F26A, 0x3F5A5BA0, 0x3F5AC450, 0x3F5B2C79],
   [0x3F5B941A, 0x3F5BFB34, 0x3F5C61C7, 0x3F5CC7D1, 0x3F5D2D53, 0x3F5D924D, 0x3F5DF6BE, 0x3F5E5AA6],
   [0x3F5EBE05, 0x3F5F20DB, 0x3F5F8327, 0x3F5FE4E9, 0x3F604621, 0x3F60A6CF, 0x3F6106F2, 0x3F61668A],
   [0x3F61C598, 0x3F62241A, 0x3F628210, 0x3F62DF7B, 0x3F633C5A, 0x3F6398AC, 0x3F63F473, 0x3F644FAC],
   [0x3F64AA59, 0x3F650479, 0x3F655E0B, 0x3F65B710, 0x3F660F88, 0x3F666771, 0x3F66BECC, 0x3F671599],
   [0x3F676BD8, 0x3F67C187, 0x3F6816A8, 0x3F686B39, 0x3F68BF3C, 0x3F6912AE, 0x3F696591, 0x3F69B7E4],
   [0x3F6A09A7, 0x3F6A5AD9, 0x3F6AAB7B, 0x3F6AFB8C, 0x3F6B4B0C, 0x3F6B99FB, 0x3F6BE858, 0x3F6C3624]]

/-- `SINE[384] .. SINE[447]`, eight entries a row (R36). -/
def sineRows6 : List (List Nat) :=
  [[0x3F6C835E, 0x3F6CD007, 0x3F6D1C1D, 0x3F6D67A1, 0x3F6DB293, 0x3F6DFCF2, 0x3F6E46BE, 0x3F6E8FF8],
   [0x3F6ED89E, 0x3F6F20B0, 0x3F6F6830, 0x3F6FAF1B, 0x3F6FF573, 0x3F703B37, 0x3F708066, 0x3F70C501],
   [0x3F710908, 0x3F714C7A, 0x3F718F57, 0x3F71D19F, 0x3F721352, 0x3F725470, 0x3F7294F8, 0x3F72D4EB],
   [0x3F731447, 0x3F73530E, 0x3F73913F, 0x3F73CED9, 0x3F740BDD, 0x3F74484B, 0x3F748422, 0x3F74BF62],
   [0x3F74FA0B, 0x3F75341D, 0x3F756D97, 0x3F75A67B, 0x3F75DEC6, 0x3F76167A, 0x3F764D97, 0x3F76841B],
   [0x3F76BA07, 0x3F76EF5B, 0x3F772417, 0x3F77583A, 0x3F778BC5, 0x3F77BEB7, 0x3F77F110, 0x3F7822D1],
   [0x3F7853F8, 0x3F788486, 0x3F78B47B, 0x3F78E3D6, 0x3F791298, 0x3F7940C0, 0x3F796E4E, 0x3F799B43],
   [0x3F79C79D, 0x3F79F35E, 0x3F7A1E84, 0x3F7A4910, 0x3F7A7302, 0x3F7A9C59, 0x3F7AC516, 0x3F7AED37]]

/-- `SINE[448] .. SINE[511]`, eight entries a row (R36). -/
def sineRows7 : List (List Nat) :=
  [[0x3F7B14BE, 0x3F7B3BAB, 0x3F7B61FC, 0x3F7B87B2, 0x3F7BACCD, 0x3F7BD14D, 0x3F7BF531, 0x3F7C187A],
   [0x3F7C3B28, 0x3F7C5D3A, 0x3F7C7EB0, 0x3F7C9F8A, 0x3F7CBFC9, 0x3F7CDF6C, 0x3F7CFE73, 0x3F7D1CDD],
   [0x3F7D3AAC, 0x3F7D57DE, 0x3F7D7474, 0x3F7D906E, 0x3F7DABCC, 0x3F7DC68C, 0x3F7DE0B1, 0x3F7DFA38],
   [0x3F7E1324, 0x3F7E2B72, 0x3F7E4323, 0x3F7E5A38, 0x3F7E70B0, 0x3F7E868B, 0x3F7E9BC9, 0x3F7EB069],
   [0x3F7EC46D, 0x3F7ED7D4, 0x3F7EEA9D, 0x3F7EFCC9, 0x3F7F0E58, 0x3F7F1F49, 0x3F7F2F9D, 0x3F7F3F54],
   [0x3F7F4E6D, 0x3F7F5CE9, 0x3F7F6AC7, 0x3F7F7808, 0x3F7F84AB, 0x3F7F90B1, 0x3F7F9C18, 0x3F7FA6E3],
   [0x3F7FB10F, 0x3F7FBA9E, 0x3F7FC38F, 0x3F7FCBE2, 0x3F7FD397, 0x3F7FDAAF, 0x3F7FE129, 0x3F7FE705],
   [0x3F7FEC43, 0x3F7FF0E3, 0x3F7FF4E6, 0x3F7FF84A, 0x3F7FFB11, 0x3F7FFD39, 0x3F7FFEC4, 0x3F7FFFB1]]

/-- The first quarter of the table and its peak, `SINE[0] .. SINE[512]`, row by row (R36). -/
def sineRows : List (List Nat) :=
  sineRows0 ++ sineRows1 ++ sineRows2 ++ sineRows3 ++ sineRows4 ++ sineRows5 ++ sineRows6 ++ sineRows7 ++ [[0x3F800000]]

/-- `SINE[i]` for `i ≤ 512`. -/
def sineQuarter (i : Nat) : Word := BitVec.ofNat 32 ((sineRows.getD (i / 8) []).getD (i % 8) 0)

/-- `SINE[i]` for `i ≤ 1024`: the second quarter mirrors the first (R36). -/
def sineHalf (i : Nat) : Word := if i ≤ 512 then sineQuarter i else sineQuarter (1024 - i)

/-- `SINE[i]` for `i < 2048`: the second half is the first with the sign bit set (R36). -/
def sine (i : Nat) : Word := if i ≤ 1024 then sineHalf i else sineHalf (i - 1024) ^^^ 0x80000000

end Sys2Proof.Machine
end

