-- ==== Sys2Proof/Machine/Params.lean ====
section
/-! DEFINITION. The parameters of spec/00_scope.md R7 as the machine uses them: their default values, the entries of the sine
table, and the number of words of the sample memory. -/

namespace Sys2Proof.Machine

/-- The default values of R7 (log 1). -/
def defaultParams : Params :=
  { addressWidth := Config.addressWidth, userSlots := Config.userSlots, userCapacityMax := Config.userCapacityMax,
    channelsMax := Config.channelsMax, delayLineMax := Config.delayLineMax, sine := .standard }

/-- `SINE[i]` (R36, R7). -/
def sineEntry (table : SineContents) (i : Nat) : Word :=
  match table with
  | .standard => sine i
  | .custom entries => entries.getD i 0

/-- How many words a sample memory of address width `aw` has, 2^AW (R60). -/
def memoryWords (aw : Nat) : Nat := 2 ^ aw

end Sys2Proof.Machine
end

