-- ==== Sys2Proof/Syntax.lean ====
section
/-! DEFINITION. The instructions: one constructor for each of the 24 rows of spec/opcode_table.json, the 22 commands of
`CORE-CMD 1.0` (spec/30_encoding.md R84) and the two host-port transactions (spec/40_host_port.md R101, R102). -/

namespace Sys2Proof

/-- A command or a host-port transaction. `s` is the slot, `w` the waveform and `p` the parameter selector of R82, each the
8-bit field `sel` of the command word; `addr` and `wdata` are the fields of R100. -/
inductive Instr where
  /-- `RB.CREATE s` (R112). -/
  | rbCreate (s : BitVec 8)
  /-- `RB.DESTROY s` (R113). -/
  | rbDestroy (s : BitVec 8)
  /-- `RB.PUT s` (R114). -/
  | rbPut (s : BitVec 8)
  /-- `RB.PUTN s` (R115). -/
  | rbPutn (s : BitVec 8)
  /-- `RB.GET s` (R116). -/
  | rbGet (s : BitVec 8)
  /-- `RB.GETPI s` (R117). -/
  | rbGetpi (s : BitVec 8)
  /-- `RB.GETN s` (R118). -/
  | rbGetn (s : BitVec 8)
  /-- `RB.SETRD s` (R119). -/
  | rbSetrd (s : BitVec 8)
  /-- `RB.GETRD s` (R120). -/
  | rbGetrd (s : BitVec 8)
  /-- `RB.SETWR s` (R121). -/
  | rbSetwr (s : BitVec 8)
  /-- `RB.GETWR s` (R122). -/
  | rbGetwr (s : BitVec 8)
  /-- `LFO.INIT w` (R142). -/
  | lfoInit (w : BitVec 8)
  /-- `LFO.RESET` (R143). -/
  | lfoReset
  /-- `LFO.SETFREQ` (R145). -/
  | lfoSetfreq
  /-- `LFO.GETFREQ` (R146). -/
  | lfoGetfreq
  /-- `LFO.NEXT` (R147). -/
  | lfoNext
  /-- `LFO.BLOCK` (R150). -/
  | lfoBlock
  /-- `VIB.INIT` (R171). -/
  | vibInit
  /-- `VIB.RESET` (R174). -/
  | vibReset
  /-- `VIB.SETPARAM p` (R176). -/
  | vibSetparam (p : BitVec 8)
  /-- `VIB.GETPARAM p` (R178). -/
  | vibGetparam (p : BitVec 8)
  /-- `VIB.PROCESS` (R179). -/
  | vibProcess
  /-- `WR reg, value` (R101). -/
  | wr (addr : BitVec 3) (wdata : Word)
  /-- `RD reg` (R102); the 32 low bits of the transaction are ignored and not kept. -/
  | rd (addr : BitVec 3)
  deriving DecidableEq, Repr

end Sys2Proof
end

