-- ==== Sys2Proof/WellFormed.lean ====
section
/-! DEFINITION. When an instruction is one that a word can encode: a slot selector names one of the `N_URB` slots
(spec/30_encoding.md R82, R85 test 4). Every waveform and parameter selector decodes, and every transaction is legal. -/

namespace Sys2Proof

/-- A slot selector is legal when it is below `N_URB`, here `slots` (R82). -/
def slotLegal (slots : Nat) (s : BitVec 8) : Bool := decide (s.toNat < slots)

/-- The well-formed instructions of a machine with `slots` user ring-buffer slots. -/
def Instr.wellFormed (slots : Nat) : Instr → Bool
  | .rbCreate s => slotLegal slots s
  | .rbDestroy s => slotLegal slots s
  | .rbPut s => slotLegal slots s
  | .rbPutn s => slotLegal slots s
  | .rbGet s => slotLegal slots s
  | .rbGetpi s => slotLegal slots s
  | .rbGetn s => slotLegal slots s
  | .rbSetrd s => slotLegal slots s
  | .rbGetrd s => slotLegal slots s
  | .rbSetwr s => slotLegal slots s
  | .rbGetwr s => slotLegal slots s
  | .lfoInit _ => true
  | .lfoReset => true
  | .lfoSetfreq => true
  | .lfoGetfreq => true
  | .lfoNext => true
  | .lfoBlock => true
  | .vibInit => true
  | .vibReset => true
  | .vibSetparam _ => true
  | .vibGetparam _ => true
  | .vibProcess => true
  | .wr _ _ => true
  | .rd _ => true

end Sys2Proof
end

