-- ==== Sys2Proof/Decode.lean ====
section
/-! DEFINITION. The decoder and the encoder. A command word is decoded by the four tests of spec/30_encoding.md R85, in
their order, each with a reject of its own name; a host-port transaction is the 36-bit pattern of spec/40_host_port.md R100,
and every pattern is a transaction. -/

namespace Sys2Proof

/-- Why a command word is undefined: the first of the four tests of R85 that fails. -/
inductive DecodeReject where
  /-- Test 1: bits 31:16 are not zero. -/
  | zeroFieldNotZero
  /-- Test 2: bits 7:0 are none of the 22 opcodes of R84. -/
  | unknownOpcode
  /-- Test 3: the opcode uses no selector and bits 15:8 are not zero. -/
  | selectorNotZero
  /-- Test 4: the selector is a slot and is not below `N_URB`. -/
  | slotOutOfRange
  deriving DecidableEq, Repr

/-- The field `zero`, bits 31:16 of a command word (R81). -/
def zeroField (w : Word) : BitVec 16 := w.extractLsb' 16 16

/-- The field `sel`, bits 15:8 of a command word (R81). -/
def selField (w : Word) : BitVec 8 := w.extractLsb' 8 8

/-- The opcode, bits 7:0 of a command word: `unit` in 7:4 and `fn` in 3:0 (R81). -/
def opcodeField (w : Word) : BitVec 8 := w.extractLsb' 0 8

/-- A command whose selector is a slot (R82, R85 test 4). -/
def decodeSlot (slots : Nat) (make : BitVec 8 → Instr) (sel : BitVec 8) : Except DecodeReject Instr :=
  if slotLegal slots sel then .ok (make sel) else .error .slotOutOfRange

/-- A command that uses no selector (R82, R85 test 3). -/
def decodeBare (i : Instr) (sel : BitVec 8) : Except DecodeReject Instr :=
  if sel = 0 then .ok i else .error .selectorNotZero

/-- The opcode map of R84. -/
def decodeOpcode (slots : Nat) (opcode sel : BitVec 8) : Except DecodeReject Instr :=
  match opcode.toNat with
  | 0x10 => decodeSlot slots .rbCreate sel
  | 0x11 => decodeSlot slots .rbDestroy sel
  | 0x12 => decodeSlot slots .rbPut sel
  | 0x13 => decodeSlot slots .rbPutn sel
  | 0x14 => decodeSlot slots .rbGet sel
  | 0x15 => decodeSlot slots .rbGetpi sel
  | 0x16 => decodeSlot slots .rbGetn sel
  | 0x17 => decodeSlot slots .rbSetrd sel
  | 0x18 => decodeSlot slots .rbGetrd sel
  | 0x19 => decodeSlot slots .rbSetwr sel
  | 0x1A => decodeSlot slots .rbGetwr sel
  | 0x20 => .ok (.lfoInit sel)
  | 0x21 => decodeBare .lfoReset sel
  | 0x22 => decodeBare .lfoSetfreq sel
  | 0x23 => decodeBare .lfoGetfreq sel
  | 0x24 => decodeBare .lfoNext sel
  | 0x25 => decodeBare .lfoBlock sel
  | 0x30 => decodeBare .vibInit sel
  | 0x31 => decodeBare .vibReset sel
  | 0x32 => .ok (.vibSetparam sel)
  | 0x33 => .ok (.vibGetparam sel)
  | 0x34 => decodeBare .vibProcess sel
  | _ => .error .unknownOpcode

/-- Decoding a command word on a machine with `slots` user slots: total, in the order of R85. -/
def decodeCommand (slots : Nat) (w : Word) : Except DecodeReject Instr :=
  if zeroField w ≠ 0 then .error .zeroFieldNotZero else decodeOpcode slots (opcodeField w) (selField w)

/-- Decoding a host-port transaction `we addr[2:0] wdata[31:0]` (R100): bit 35 tells a write from a read; a read ignores
bits 31:0 (R102). -/
def decodeTransaction (t : BitVec 36) : Instr :=
  if t.msb then .wr (t.extractLsb' 32 3) (t.extractLsb' 0 32) else .rd (t.extractLsb' 32 3)

/-- The instruction read from an opcode-table row's bits, on a machine with `slots` user slots: a row of at most 32 bits is a
command word (R80), a longer one is a 36-bit transaction (R100), of which no bit above 35 exists. -/
def decodeBits (slots nbits w : Nat) : Option Instr :=
  if nbits ≤ 32 then
    if w < 2 ^ 32 then (decodeCommand slots (BitVec.ofNat 32 w)).toOption else none
  else
    if w < 2 ^ 36 then some (decodeTransaction (BitVec.ofNat 36 w)) else none

/-- The same on the machine of `State.reset`, whose parameters have their default values (log 1). -/
def decodeTableWord (nbits w : Nat) : Option Instr := decodeBits Machine.defaultParams.userSlots nbits w

/-- The command word with fields `zero = 0`, `sel`, `opcode` (R81). -/
def commandWord (sel opcode : BitVec 8) : Word := 0#16 ++ sel ++ opcode

/-- The 36 bits of a write transaction (R100, R101). -/
def writeTransaction (addr : BitVec 3) (wdata : Word) : BitVec 36 := 1#1 ++ addr ++ wdata

/-- The 36 bits of a read transaction, its ignored bits 0 (R100, R102). -/
def readTransaction (addr : BitVec 3) : BitVec 36 := 0#1 ++ addr ++ 0#32

/-- An instruction's encoding from the table of R84 and the patterns of R100 to R102: the number of its bits and the bits. -/
def encode : Instr → Nat × Nat
  | .rbCreate s => (32, (commandWord s 0x10).toNat)
  | .rbDestroy s => (32, (commandWord s 0x11).toNat)
  | .rbPut s => (32, (commandWord s 0x12).toNat)
  | .rbPutn s => (32, (commandWord s 0x13).toNat)
  | .rbGet s => (32, (commandWord s 0x14).toNat)
  | .rbGetpi s => (32, (commandWord s 0x15).toNat)
  | .rbGetn s => (32, (commandWord s 0x16).toNat)
  | .rbSetrd s => (32, (commandWord s 0x17).toNat)
  | .rbGetrd s => (32, (commandWord s 0x18).toNat)
  | .rbSetwr s => (32, (commandWord s 0x19).toNat)
  | .rbGetwr s => (32, (commandWord s 0x1A).toNat)
  | .lfoInit w => (32, (commandWord w 0x20).toNat)
  | .lfoReset => (32, (commandWord 0 0x21).toNat)
  | .lfoSetfreq => (32, (commandWord 0 0x22).toNat)
  | .lfoGetfreq => (32, (commandWord 0 0x23).toNat)
  | .lfoNext => (32, (commandWord 0 0x24).toNat)
  | .lfoBlock => (32, (commandWord 0 0x25).toNat)
  | .vibInit => (32, (commandWord 0 0x30).toNat)
  | .vibReset => (32, (commandWord 0 0x31).toNat)
  | .vibSetparam p => (32, (commandWord p 0x32).toNat)
  | .vibGetparam p => (32, (commandWord p 0x33).toNat)
  | .vibProcess => (32, (commandWord 0 0x34).toNat)
  | .wr addr wdata => (36, (writeTransaction addr wdata).toNat)
  | .rd addr => (36, (readTransaction addr).toNat)

end Sys2Proof
end

