-- ==== Sys2Proof/Machine/State.lean ====
section
/-! DEFINITION. The state of the machine: everything spec/10_state.md R20 lists, the sample memory beside the CORE
(spec/20_memory.md R60), the stuck condition of the host port (spec/40_host_port.md R103), and the model's own fields: two for the
host's side of the port (log 9, log 10) and the parameters of the machine (log 1). Plain data. -/

namespace Sys2Proof.Machine

/-- A ring-buffer instance that exists (R25). An instance whose `exists` is false has no other field that any command
reads, and is `none` wherever an instance stands (log 8). -/
structure RingBuffer where
  /-- `C`, the capacity. -/
  cap : Nat
  /-- `rd`, the read cursor. -/
  rd : Nat
  /-- `wr`, the write cursor. -/
  wr : Nat
  /-- `store[0 .. C-1]`, binary32 bit patterns moved without change by the integer accesses. -/
  store : List Word
  deriving DecidableEq, Repr

/-- An LFO instance (R28). -/
structure Lfo where
  /-- False is Uninitialized, true is Ready. -/
  ready : Bool
  /-- The waveform code; 0 is sine. -/
  wave : BitVec 8
  /-- The frequency in Hz, binary32. -/
  freq : Word
  /-- The sample rate in Hz, binary32. -/
  fs : Word
  /-- The phase increment per sample, binary32. -/
  inc : Word
  /-- The phase cursor, binary32; its true range is that of R29. -/
  phase : Word
  deriving DecidableEq, Repr

/-- The vibrato engine (R31). -/
structure Vib where
  /-- False is Uninitialized, true is Ready. -/
  ready : Bool
  /-- The sample rate, binary32. -/
  fs : Word
  /-- The channel count. -/
  nch : Nat
  /-- Parameter ModulationFrequency, binary32. -/
  modFreq : Word
  /-- Parameter Amplitude, binary32. -/
  amp : Word
  /-- Lower amplitude bound captured at init, binary32. -/
  ampMin : Word
  /-- Upper amplitude bound captured at init, binary32. -/
  ampMax : Word
  /-- Lower modulation-frequency bound captured at init, binary32. -/
  freqMin : Word
  /-- Upper modulation-frequency bound captured at init, binary32. -/
  freqMax : Word
  /-- `D`, the base delay in samples. -/
  delay : Nat
  /-- `dl[0 .. NCH_MAX-1]`, the delay lines. -/
  dl : List (Option RingBuffer)
  /-- `VIB.lfo`, the engine's private LFO. -/
  lfo : Lfo
  deriving DecidableEq, Repr

/-- The sample memory as the bytes that have been written, addresses strictly rising: word address `a` is bytes
`4a .. 4a+3` (R62, log 5). A byte that is not listed holds no written value (log 4). -/
abbrev Memory := List Host.Cell

/-- What reaches the CORE from outside: one entry for each event, in the order in which they happen (log 9). -/
inductive HostEvent where
  /-- The host issues the transaction with these 36 bits (R100). -/
  | transaction (bits : BitVec 36)
  /-- Hardware reset while no command is running, or while one is stuck (R230). -/
  | hardReset
  /-- The host issues a transaction, and hardware reset comes while its command runs, after that many of the command's memory
  writes have been made (R230, log 12). -/
  | resetDuring (bits : BitVec 36) (writes : Nat)
  /-- The host writes a word of the sample memory through the platform's own path (R35, R69, log 13). DESIGN CHOICE: the address is
  any 32-bit word, and one not below 2^AW is taken modulo 2^AW (log 18). -/
  | memWrite (addr : Word) (value : Word)
  deriving DecidableEq, Repr

/-- The whole machine. -/
structure State where
  /-- The argument registers `A0 .. A3` (R21). -/
  args : Vector Word 4
  /-- The result register `RES` (R21). -/
  res : Word
  /-- The status register `ST` (R22). -/
  st : Word
  /-- The user ring-buffer slots `URB[0 .. N_URB-1]` (R27). -/
  urb : List (Option RingBuffer)
  /-- The user LFO (R30). -/
  ulfo : Lfo
  /-- The vibrato engine (R31). -/
  vib : Vib
  /-- The sample memory (R60), outside the CORE. -/
  mem : Memory
  /-- The CORE is stuck in a command that never completes, and the host port is blocked (R103, R240, log 6). -/
  stuck : Bool
  /-- The MODEL's own field: the data the most recent read transaction returned (R100, R102, log 10). -/
  rdata : Word
  /-- The MODEL's own field: the events still to come from outside, first one first (log 9). -/
  pending : List HostEvent
  /-- The MODEL's own field: the implementation parameters of the machine (R7), an input of every step that none changes
  (log 1). -/
  params : Params
  deriving DecidableEq, Repr

/-- Why the machine stops with a fault. There is NO such reason: a failing command reports a code in `ST` and the machine
goes on (R203, R206), every address of the sample memory exists (R60, R65), and a command that never completes leaves the
machine in a stuck state, not stopped (R240). Nothing raises a fault, which is safe: a run never ends early. -/
inductive Fault where
  deriving DecidableEq, Repr

/-- Why the machine refuses an instruction. -/
inductive Refusal where
  /-- An arm of `exec` for an instruction that has no meaning yet would answer this; no arm does. Safe: a refusal ends the
  run and claims nothing. -/
  | notModelled (mnemonic : String)
  deriving DecidableEq, Repr

/-- An Uninitialized LFO after hardware reset (R37). -/
def Lfo.reset : Lfo :=
  { ready := false, wave := 0, freq := 0, fs := 0, inc := 0, phase := 0 }

/-- An Uninitialized vibrato engine after hardware reset (R37), `NCH_MAX` being `channels`. -/
def Vib.reset (channels : Nat) : Vib :=
  { ready := false, fs := 0, nch := 0, modFreq := 0, amp := 0, ampMin := 0, ampMax := 0, freqMin := 0, freqMax := 0,
    delay := 0, dl := List.replicate channels none, lfo := Lfo.reset }

/-- A machine with the given parameters right after hardware reset (R37, R230), with a memory that no agent has written (U13) and
no event pending (log 9). -/
def State.resetWith (p : Params) : State :=
  { args := Vector.replicate 4 0, res := 0, st := 0, urb := List.replicate p.userSlots none, ulfo := Lfo.reset,
    vib := Vib.reset p.channelsMax, mem := [], stuck := false, rdata := 0, pending := [], params := p }

/-- The machine right after hardware reset, its parameters at their default values (R7, log 1). -/
def State.reset : State := State.resetWith defaultParams

end Sys2Proof.Machine
end

