-- ==== Sys2Proof/Machine/Binary32.lean ====
section
/-! DEFINITION. The floating-point primitives of spec/00_scope.md R14 and R15: IEEE 754 binary32, each operation rounded once
to nearest, ties to even, with gradual underflow. A finite value is an integer number of UNITS of 2^-149, the spacing of the
smallest values; an operation computes the exact rational result in units and rounds it once (log 14). -/

namespace Sys2Proof.Machine

/-- The sign, bit 31 (R14). -/
def signBit (x : Word) : Bool := x.msb

/-- The biased exponent, bits 30:23 (R14). -/
def exponentField (x : Word) : Nat := (x.extractLsb' 23 8).toNat

/-- The fraction, bits 22:0 (R14). -/
def fractionField (x : Word) : Nat := (x.extractLsb' 0 23).toNat

/-- `isFinite(a)`: the exponent field is not 255 (R15). -/
def isFinite (x : Word) : Bool := exponentField x != 255

/-- A NaN: exponent 255 and non-zero fraction (R14). -/
def isNaN (x : Word) : Bool := exponentField x == 255 && fractionField x != 0

/-- An infinity: exponent 255 and zero fraction (R14). -/
def isInf (x : Word) : Bool := exponentField x == 255 && fractionField x == 0

/-- `+0` (R14). -/
def posZero : Word := 0x00000000

/-- `-0` (R14). -/
def negZero : Word := 0x80000000

/-- `1.0` (R14). -/
def oneF : Word := 0x3F800000

/-- `+Inf` (R14). -/
def posInf : Word := 0x7F800000

/-- The magnitude of a finite value in units of 2^-149: subnormal when the exponent field is 0 (R14, G1). -/
def magnitude (x : Word) : Nat :=
  if exponentField x = 0 then fractionField x
  else (2 ^ 23 + fractionField x) * 2 ^ (exponentField x - 1)

/-- `real(x)` of a finite value, in units of 2^-149; `real(-0) = 0` (R14). -/
def realUnits (x : Word) : Int := if signBit x then -(magnitude x : Int) else (magnitude x : Int)

/-- How many units make 1. Irreducible, so that no proof unfolds the number by accident; the kernel evaluates it. -/
@[irreducible] def unitsPerOne : Nat := 2 ^ 149

/-- A zero with the given sign. -/
def signedZero (neg : Bool) : Word := if neg then negZero else posZero

/-- An infinity with the given sign. -/
def signedInf (neg : Bool) : Word := if neg then 0xFF800000 else posInf

/-- The value with the other sign. -/
def negate (x : Word) : Word := x ^^^ 0x80000000

/-- `num/den` to the nearest integer, a tie to the even one. -/
def roundHalfEven (num den : Nat) : Nat :=
  let q := num / den
  let r := num % den
  if 2 * r < den then q else if den < 2 * r then q + 1 else if q % 2 = 0 then q else q + 1

/-- The bits 30:0 of the binary32 value nearest to `num/den` units, ties to even, overflow to infinity. `k` is how far the
last place of the result stands above one unit; `k * 2^23 + n` is then exponent field and fraction together, a carry out of
the fraction included. Irreducible, as `unitsPerOne` is. -/
@[irreducible] def roundMagnitude (num den : Nat) : Nat :=
  let k := Nat.log2 (num / den) - 23
  min (k * 2 ^ 23 + roundHalfEven num (den * 2 ^ k)) 0x7F800000

/-- The binary32 value with the given sign nearest to `num/den` units (R15). -/
def roundPack (neg : Bool) (num den : Nat) : Word :=
  if neg then negate (BitVec.ofNat 32 (roundMagnitude num den)) else BitVec.ofNat 32 (roundMagnitude num den)

/-- The quiet NaN that an operation produces from its operands: exponent bits 30:23 and the quiet bit 22 set, sign and payload
the free value `NaNResult` (R7, R15; log 2, log 3). -/
def nanResult (op : FloatOp) (a b : Word) : Word := Config.nanBits op a b ||| 0x7FC00000

/-- The sum of two values that are no NaN, `nan` the result of an invalid operation; an exact zero sum is `+0` unless both
are `-0` (R15). -/
def addValues (nan a b : Word) : Word :=
  if isInf a then (if isInf b && signBit a != signBit b then nan else a)
  else if isInf b then b
  else
    let sum := realUnits a + realUnits b
    if sum = 0 then signedZero (signBit a && signBit b)
    else roundPack (decide (sum < 0)) sum.natAbs 1

/-- `fadd(a, b)` (R15). -/
def fadd (a b : Word) : Word :=
  if isNaN a || isNaN b then nanResult .add a b else addValues (nanResult .add a b) a b

/-- `fsub(a, b)` (R15): the sum of `a` and `b` with its sign changed. -/
def fsub (a b : Word) : Word :=
  if isNaN a || isNaN b then nanResult .sub a b else addValues (nanResult .sub a b) a (negate b)

/-- `fmul(a, b)` (R15): the exact product of two magnitudes in units is in units of 2^-298. -/
def fmul (a b : Word) : Word :=
  let neg := signBit a != signBit b
  if isNaN a || isNaN b then nanResult .mul a b
  else if isInf a || isInf b then
    (if magnitude a = 0 || magnitude b = 0 then nanResult .mul a b else signedInf neg)
  else roundPack neg (magnitude a * magnitude b) unitsPerOne

/-- `fdiv(a, b)` (R15). -/
def fdiv (a b : Word) : Word :=
  let neg := signBit a != signBit b
  if isNaN a || isNaN b then nanResult .div a b
  else if isInf a then (if isInf b then nanResult .div a b else signedInf neg)
  else if isInf b then signedZero neg
  else if magnitude b = 0 then (if magnitude a = 0 then nanResult .div a b else signedInf neg)
  else roundPack neg (magnitude a * unitsPerOne) (magnitude b)

/-- Position of a value that is no NaN in the order of the values: bits 30:0 with the sign of bit 31, so that `-0` and `+0`
have one place and the infinities stand at the ends. -/
def orderKey (x : Word) : Int :=
  if signBit x then -((x.extractLsb' 0 31).toNat : Int) else ((x.extractLsb' 0 31).toNat : Int)

/-- `flt(a, b)`: a < b, false on a NaN (R15). -/
def flt (a b : Word) : Bool := !isNaN a && !isNaN b && decide (orderKey a < orderKey b)

/-- `fle(a, b)`: a ≤ b, false on a NaN (R15). -/
def fle (a b : Word) : Bool := !isNaN a && !isNaN b && decide (orderKey a ≤ orderKey b)

/-- `fgt(a, b)`: a > b, false on a NaN (R15). -/
def fgt (a b : Word) : Bool := flt b a

/-- `fge(a, b)`: a ≥ b, false on a NaN (R15). -/
def fge (a b : Word) : Bool := fle b a

/-- `ifloor(a)` for finite `a`: the greatest integer not above `real(a)` (R15). -/
def ifloor (a : Word) : Int := realUnits a / (unitsPerOne : Int)

/-- `itrunc(a)` for finite `a`: `real(a)` with its fraction discarded, toward zero (R15). -/
def itrunc (a : Word) : Int := (realUnits a).tdiv (unitsPerOne : Int)

/-- `i2f(n)`: the binary32 value of an integer, `i2f(0) = +0`; exact where `n` is representable, the only case the rules
use (R15). -/
def i2f (n : Int) : Word := roundPack (decide (n < 0)) (n.natAbs * unitsPerOne) 1

end Sys2Proof.Machine
end

