-- ==== Sys2Proof/Machine/Flags.lean ====
section
/-! DEFINITION. The status kinds and their codes (spec/60_exceptions.md R200). `ST` is the CORE's only flag-like register;
there are no condition codes and no floating-point exception flags (spec/10_state.md R22). -/

namespace Sys2Proof.Machine

/-- The five status kinds (R200). -/
inductive Status where
  /-- The command completed and did what its rule says. -/
  | noError
  /-- Bad parameter values: negative, out of range, non-positive. -/
  | invalidArguments
  /-- Operation attempted before a required init. -/
  | notInitialized
  /-- Operation not meaningful in the current state; also every undefined command word (R85). -/
  | illegalCall
  /-- Allocation failure. -/
  | unknownError
  deriving DecidableEq, Repr

/-- The number of a status kind (R200). -/
def statusNumber : Status → Nat
  | .noError => 0
  | .invalidArguments => 1
  | .notInitialized => 2
  | .illegalCall => 3
  | .unknownError => 4

/-- The code written to `ST`, zero-extended to 32 bits (R22, R200). -/
def statusCode (k : Status) : Word := BitVec.ofNat 32 (statusNumber k)

/-- The sentinel a failing getter writes to `RES`: the code as a binary32 value, `i2f(code)`, the column "float form" of R200
(R205). -/
def statusSentinel : Status → Word
  | .noError => 0x00000000
  | .invalidArguments => 0x3F800000
  | .notInitialized => 0x40000000
  | .illegalCall => 0x40400000
  | .unknownError => 0x40800000

end Sys2Proof.Machine
end

