-- ==== Sys2Proof/Machine/Memory.lean ====
section
/-! DEFINITION. The sample memory (spec/20_memory.md R60 to R65): bytes kept in strictly rising order of address, and the
32-bit word accesses `MemRead` and `MemWrite` of spec/00_scope.md R12 over them, little-endian (R62). `aw` is the
address width `AW` (R7). -/

namespace Sys2Proof.Machine

/-- The byte written at a byte address, if any agent has written it. -/
def lookupByte : Memory → Nat → Option Byte
  | [], _ => none
  | c :: m, a => if c.1 = a then some c.2 else lookupByte m a

/-- What a byte address reads as: the byte written there, else the free value of memory that no agent has written (U13,
log 4). -/
def readByte (m : Memory) (a : Nat) : Byte := (lookupByte m a).getD (Config.powerUpByte a)

/-- Write one byte, keeping the addresses strictly rising. -/
def writeByte : Memory → Nat → Byte → Memory
  | [], a, b => [(a, b)]
  | c :: m, a, b => if a < c.1 then (a, b) :: c :: m else if c.1 = a then (a, b) :: m else c :: writeByte m a b

/-- `MemRead(addr, 1)`: the 32-bit word at a word address taken modulo 2^AW (R12, R61), byte `4a` in bits 7:0 (R62). -/
def memRead (aw : Nat) (m : Memory) (addr : Nat) : Word :=
  let a := 4 * (addr % memoryWords aw)
  readByte m (a + 3) ++ readByte m (a + 2) ++ readByte m (a + 1) ++ readByte m a

/-- `MemWrite(addr, 1, v)`: store a 32-bit word at a word address taken modulo 2^AW (R12, R61), bits 7:0 in byte `4a`
(R62). -/
def memWrite (aw : Nat) (m : Memory) (addr : Nat) (v : Word) : Memory :=
  let a := 4 * (addr % memoryWords aw)
  writeByte (writeByte (writeByte (writeByte m a (v.extractLsb' 0 8)) (a + 1) (v.extractLsb' 8 8))
    (a + 2) (v.extractLsb' 16 8)) (a + 3) (v.extractLsb' 24 8)

/-- The addresses strictly rise, none below the first argument. -/
def risingFrom : Nat → Memory → Bool
  | _, [] => true
  | lo, c :: m => decide (lo ≤ c.1) && risingFrom (c.1 + 1) m

/-- The canonical form of the memory: addresses strictly rising, every one inside the 2^AW words. No entry can equal what an
unlisted address holds, since an unlisted address holds no written value (log 4). -/
def Memory.wf (aw : Nat) (m : Memory) : Bool :=
  risingFrom 0 m && m.all (fun c => decide (c.1 < 4 * memoryWords aw))

/-- `EA(base, stride, j, i)`: the word address of element `[j][i]` of a planar block (R67). -/
def effectiveAddress (aw base stride j i : Nat) : Nat := (base + j * stride + i) % memoryWords aw

/-- `EA1(base, k)`: the word address of element `k` of a one-channel block (R67). -/
def effectiveAddress1 (aw base k : Nat) : Nat := (base + k) % memoryWords aw

end Sys2Proof.Machine
end

