-- ==== Sys2Proof/Machine/Operands.lean ====
section
/-! DEFINITION. The operand forms of spec/30_encoding.md R83: what a command reads from the argument registers `A0 .. A3`,
and the port's writes to them. -/

namespace Sys2Proof.Machine

/-- `A[k]` as it is: a sample or any other binary32 value (R11, R83). -/
def argWord (k : Fin 4) (s : State) : Word := s.args[k]

/-- `sint(A[k])`: a signed integer (R9, R83). -/
def argSint (k : Fin 4) (s : State) : Int := (argWord k s).toInt

/-- `uint(A[k])`: an unsigned count (R9, R83). -/
def argUint (k : Fin 4) (s : State) : Nat := (argWord k s).toNat

/-- `A[k][AW-1:0]`: a word address or a stride (R61, R83). -/
def argAddress (k : Fin 4) (s : State) : Nat := (argWord k s).toNat % memoryWords s.params.addressWidth

/-- `A[k] <- v` (R11). -/
def setArg (k : Fin 4) (v : Word) (s : State) : State := { s with args := s.args.set k v }

end Sys2Proof.Machine
end

