-- ==== Sys2Proof/Machine/Ops.lean ====
section
/-! DEFINITION. The named operations that the commands share: how a command ends, successfully or by a failure (the CORE's
"trap entry", spec/60_exceptions.md R203; there is no return from one, R206), how it becomes stuck, and access to the user
slots and the delay lines. -/

namespace Sys2Proof.Machine

/-- The outcome of every command and transaction: a next state. -/
abbrev Answer := Host.Outcome State Fault Refusal

/-- `raise K`: `ST <- code(K)`, and nothing else changes (R13, R203). -/
def raise (k : Status) (s : State) : State := { s with st := statusCode k }

/-- The failure of the two float getters: `raise K` that also writes the sentinel to `RES` (R13, R205). -/
def raiseSentinel (k : Status) (s : State) : State := { s with res := statusSentinel k, st := statusCode k }

/-- `ST <- NoError`, the end of every successful command (R22). -/
def complete (s : State) : State := { s with st := statusCode .noError }

/-- The end of a successful command that returns a value: `RES <- v`; `ST <- NoError`. -/
def completeWith (v : Word) (s : State) : State := { s with res := v, st := statusCode .noError }

/-- The command never completes: the port accepts no further transaction and `ST` is not written (R103, R240, log 6). -/
def becomeStuck (s : State) : State := { s with stuck := true }

/-- `URB[n]` when it exists (R25, R27). -/
def slot (n : BitVec 8) (s : State) : Option RingBuffer := (s.urb[n.toNat]?).join

/-- Replace `URB[n]`, `none` for a slot that no longer exists. -/
def setSlot (n : BitVec 8) (b : Option RingBuffer) (s : State) : State :=
  { s with urb := s.urb.set n.toNat b }

/-- A command whose slot selector is `N_URB` or more is no word's command; it does what an undefined word does (R85, log 11). -/
def withLegalSlot (n : BitVec 8) (s : State) (body : State) : State :=
  if slotLegal s.params.userSlots n then body else raise .illegalCall s

/-- The common preamble of the `RB.*` commands (R111): NotInitialized unless the slot exists. -/
def withSlot (n : BitVec 8) (s : State) (body : RingBuffer → State) : State :=
  withLegalSlot n s <|
    match slot n s with
    | none => raise .notInitialized s
    | some b => body b

/-- What stands for a delay line that does not exist where a rule reads one; no state that a run reaches does (log 15). -/
def missingBuffer : RingBuffer := { cap := 0, rd := 0, wr := 0, store := [] }

/-- `VIB.dl[j]`. -/
def delayLine (v : Vib) (j : Nat) : RingBuffer := (v.dl[j]?).join.getD missingBuffer

/-- `VIB.dl[j] <- b`. -/
def setDelayLine (v : Vib) (j : Nat) (b : RingBuffer) : Vib := { v with dl := v.dl.set j (some b) }

/-- Hardware reset (R230): every piece of CORE state takes its value of R37, a running or stuck command is abandoned and the
port accepts transactions again; the sample memory is not touched, and the events still to come and the parameters stay. -/
def hardwareReset (s : State) : State := { State.resetWith s.params with mem := s.mem, pending := s.pending }

end Sys2Proof.Machine
end

