-- ==== Sys2Proof/Machine/RingBuffer.lean ====
section
/-! DEFINITION. The ring-buffer family (spec/41_ringbuffer.md): the primitives R106, R107, R108, R110 and the eleven `RB.*`
commands R112 to R122 on the user slots. -/

namespace Sys2Proof.Machine

/-- A ring buffer just created: zero-initialized, both cursors 0 (R112). -/
def rbCreated (cap : Nat) : RingBuffer :=
  { cap := cap, rd := 0, wr := 0, store := List.replicate cap posZero }

/-- `RbPut(B, v)` (R106). -/
def rbPut (b : RingBuffer) (v : Word) : RingBuffer :=
  { b with store := b.store.set b.wr v, wr := (b.wr + 1) % b.cap }

/-- The value `RbGetPostInc(B)` returns (R107). -/
def rbValue (b : RingBuffer) : Word := b.store.getD b.rd posZero

/-- `RbGetPostInc(B)` advances the read cursor (R107). -/
def rbAdvance (b : RingBuffer) : RingBuffer := { b with rd := (b.rd + 1) % b.cap }

/-- `RbNorm(i, C)`: the Euclidean remainder (R110, R10). -/
def rbNorm (i : Int) (cap : Nat) : Nat := (i % (cap : Int)).toNat

/-- The fractional read of R108 over `cap` words `read 0 .. read (cap-1)` with read cursor `rd`. -/
def interpolate (cap rd : Nat) (read : Nat → Word) (x : Word) : Word :=
  if !isFinite x then nanResult .interp x posZero
  else
    let n := ifloor x
    let idx := rbNorm ((rd : Int) + n) cap
    let idx1 := (idx + 1) % cap
    let frac := fsub x (i2f n)
    fadd (fmul (fsub oneF frac) (read idx)) (fmul frac (read idx1))

/-- `RbInterp(B, x)` (R108). -/
def rbInterp (b : RingBuffer) (x : Word) : Word := interpolate b.cap b.rd (fun k => b.store.getD k posZero) x

/-- The loop of `RB.PUTN` (R115): `n` elements from element `k` on, in ascending order (R68). -/
def putWords (aw : Nat) (mem : Memory) (src : Nat) : (n k : Nat) → RingBuffer → RingBuffer
  | 0, _, b => b
  | n + 1, k, b => putWords aw mem src n (k + 1) (rbPut b (memRead aw mem (effectiveAddress1 aw src k)))

/-- The loop of `RB.GETN` (R118): `n` elements from element `k` on, in ascending order (R68). -/
def getWords (aw dst : Nat) : (n k : Nat) → RingBuffer → Memory → RingBuffer × Memory
  | 0, _, b, m => (b, m)
  | n + 1, k, b, m => getWords aw dst n (k + 1) (rbAdvance b) (memWrite aw m (effectiveAddress1 aw dst k) (rbValue b))

/-- `RB.CREATE s` (R112). -/
def execRbCreate (n : BitVec 8) (s : State) : Answer :=
  .next <| withLegalSlot n s <|
    if (slot n s).isSome then raise .illegalCall s
    else if argSint 0 s ≤ 0 then raise .invalidArguments s
    else if (s.params.userCapacityMax : Int) < argSint 0 s then raise .unknownError s
    else complete (setSlot n (some (rbCreated (argSint 0 s).toNat)) s)

/-- `RB.DESTROY s` (R113): succeeds also on a slot that does not exist. -/
def execRbDestroy (n : BitVec 8) (s : State) : Answer :=
  .next <| withLegalSlot n s <| complete (setSlot n none s)

/-- `RB.PUT s` (R114). -/
def execRbPut (n : BitVec 8) (s : State) : Answer :=
  .next <| withSlot n s fun b => complete (setSlot n (some (rbPut b (argWord 0 s))) s)

/-- `RB.PUTN s` (R115). -/
def execRbPutn (n : BitVec 8) (s : State) : Answer :=
  .next <| withSlot n s fun b =>
    complete (setSlot n (some (putWords s.params.addressWidth s.mem (argAddress 0 s) (argUint 1 s) 0 b)) s)

/-- `RB.GET s` (R116): pure but for `RES` and `ST`. -/
def execRbGet (n : BitVec 8) (s : State) : Answer :=
  .next <| withSlot n s fun b => completeWith (rbInterp b (argWord 0 s)) s

/-- `RB.GETPI s` (R117). -/
def execRbGetpi (n : BitVec 8) (s : State) : Answer :=
  .next <| withSlot n s fun b => completeWith (rbValue b) (setSlot n (some (rbAdvance b)) s)

/-- `RB.GETN s` (R118). -/
def execRbGetn (n : BitVec 8) (s : State) : Answer :=
  .next <| withSlot n s fun b =>
    let r := getWords s.params.addressWidth (argAddress 0 s) (argUint 1 s) 0 b s.mem
    complete { setSlot n (some r.1) s with mem := r.2 }

/-- `RB.SETRD s` (R119). -/
def execRbSetrd (n : BitVec 8) (s : State) : Answer :=
  .next <| withSlot n s fun b => complete (setSlot n (some { b with rd := rbNorm (argSint 0 s) b.cap }) s)

/-- `RB.GETRD s` (R120). -/
def execRbGetrd (n : BitVec 8) (s : State) : Answer :=
  .next <| withSlot n s fun b => completeWith (BitVec.ofNat 32 b.rd) s

/-- `RB.SETWR s` (R121). -/
def execRbSetwr (n : BitVec 8) (s : State) : Answer :=
  .next <| withSlot n s fun b => complete (setSlot n (some { b with wr := rbNorm (argSint 0 s) b.cap }) s)

/-- `RB.GETWR s` (R122). -/
def execRbGetwr (n : BitVec 8) (s : State) : Answer :=
  .next <| withSlot n s fun b => completeWith (BitVec.ofNat 32 b.wr) s

end Sys2Proof.Machine
end

