-- ==== Sys2Proof/Machine/Oscillator.lean ====
section
/-! DEFINITION. The LFO family (spec/42_lfo.md): the primitives R141, R144, R148, R153 and the six `LFO.*` commands R142 to
R150 on the user LFO. -/

namespace Sys2Proof.Machine

/-- 2048.0, the table length (R6). -/
def f2048 : Word := 0x45000000

/-- 2047.0, the table length less one (R148). -/
def f2047 : Word := 0x44FFE000

/-- The increment `fmul(fdiv(2048.0, fs), f)`, left to right (R141, R153). -/
def lfoIncrement (fs f : Word) : Word := fmul (fdiv f2048 fs) f

/-- `LfoInit(L, w, f, fs)` (R141): the new LFO, or `none` for InvalidArguments. -/
def lfoInitialized (w : BitVec 8) (f fs : Word) : Option Lfo :=
  if w ≠ 0 then none
  else if !fge f posZero then none
  else if !fgt fs posZero then none
  else some { ready := true, wave := w, freq := f, fs := fs, inc := lfoIncrement fs f, phase := posZero }

/-- `LfoSetFreq(L, f)` (R153): the LFO with its new frequency, the phase kept, or `none` for InvalidArguments. -/
def lfoWithFrequency (l : Lfo) (f : Word) : Option Lfo :=
  if !fge f posZero then none else some { l with freq := f, inc := lfoIncrement l.fs f }

/-- How often the wrap loop runs at most before it ends or repeats itself: 2^24 + 1 (R149, log 7).
Irreducible, so that no proof unrolls the loop by accident; the kernel evaluates it. -/
@[irreducible] def wrapFuel : Nat := 2 ^ 24 + 1

/-- The wrap loop `while fgt(p, 2047.0): p <- fsub(p, 2048.0)` (R148), run at most `fuel` times. `none` when it never ends:
the subtraction returns `p` again (R149 (b)). -/
def wrapPhase : (fuel : Nat) → Word → Option Word
  | 0, p => if fgt p f2047 then none else some p
  | fuel + 1, p =>
    if fgt p f2047 then (if fsub p f2048 = p then none else wrapPhase fuel (fsub p f2048)) else some p

/-- The value `LfoNext(L)` returns: the table `T = (C = 2048, rd = 0, store = SINE)` read at the phase (R148). -/
def lfoValue (table : SineContents) (l : Lfo) : Word := interpolate Config.tableLength 0 (sineEntry table) l.phase

/-- `LfoNext(L)` (R148): the value read before the advance, and the advanced LFO; `none` when the wrap loop never ends. -/
def lfoNext (table : SineContents) (l : Lfo) : Option (Word × Lfo) :=
  match wrapPhase wrapFuel (fadd l.phase l.inc) with
  | none => none
  | some p => some (lfoValue table l, { l with phase := p })

/-- How a block command leaves an LFO and the memory, and whether it became stuck on the way. -/
structure BlockRun where
  lfo : Lfo
  mem : Memory
  stuck : Bool
  deriving DecidableEq, Repr

/-- The channels of one frame `i` of `LFO.BLOCK` (R150): `n` channels from channel `j` on. -/
def blockChannels (aw dst stride i : Nat) (v : Word) : (n j : Nat) → Memory → Memory
  | 0, _, m => m
  | n + 1, j, m => blockChannels aw dst stride i v n (j + 1) (memWrite aw m (effectiveAddress aw dst stride j i) v)

/-- The frames of `LFO.BLOCK` (R150): `n` frames from frame `i` on, the LFO advanced once in each. -/
def blockFrames (p : Params) (dst stride nch : Nat) : (n i : Nat) → Lfo → Memory → BlockRun
  | 0, _, l, m => { lfo := l, mem := m, stuck := false }
  | n + 1, i, l, m =>
    match lfoNext p.sine l with
    | none => { lfo := l, mem := m, stuck := true }
    | some (v, l') => blockFrames p dst stride nch n (i + 1) l' (blockChannels p.addressWidth dst stride i v nch 0 m)

/-- `LFO.INIT w` (R142): on failure the LFO is unchanged, Ready or not. -/
def execLfoInit (w : BitVec 8) (s : State) : Answer :=
  .next <|
    match lfoInitialized w (argWord 0 s) (argWord 1 s) with
    | none => raise .invalidArguments s
    | some l => complete { s with ulfo := l }

/-- `LFO.RESET` (R143, R144). -/
def execLfoReset (s : State) : Answer := .next <| complete { s with ulfo := Lfo.reset }

/-- `LFO.SETFREQ` (R145). -/
def execLfoSetfreq (s : State) : Answer :=
  .next <|
    if !s.ulfo.ready then raise .notInitialized s
    else
      match lfoWithFrequency s.ulfo (argWord 0 s) with
      | none => raise .invalidArguments s
      | some l => complete { s with ulfo := l }

/-- `LFO.GETFREQ` (R146). -/
def execLfoGetfreq (s : State) : Answer :=
  .next <| if !s.ulfo.ready then raiseSentinel .notInitialized s else completeWith s.ulfo.freq s

/-- `LFO.NEXT` (R147). -/
def execLfoNext (s : State) : Answer :=
  .next <|
    if !s.ulfo.ready then raise .notInitialized s
    else
      match lfoNext s.params.sine s.ulfo with
      | none => becomeStuck s
      | some (v, l) => completeWith v { s with ulfo := l }

/-- `LFO.BLOCK` (R150). -/
def execLfoBlock (s : State) : Answer :=
  .next <|
    if !s.ulfo.ready then raise .notInitialized s
    else
      let r := blockFrames s.params (argAddress 0 s) (argAddress 1 s) (argUint 2 s) (argUint 3 s) 0 s.ulfo s.mem
      let s' := { s with ulfo := r.lfo, mem := r.mem }
      if r.stuck then becomeStuck s' else complete s'

end Sys2Proof.Machine
end

