-- ==== Sys2Proof/Machine/Vibrato.lean ====
section
/-! DEFINITION. The vibrato-engine family (spec/43_vibrato.md): the base delay R172, delay-line creation R173, the frame loop
R177 and the five `VIB.*` commands R171 to R179. -/

namespace Sys2Proof.Machine

/-- `K_DELAY`, the binary32 value nearest 0.0003 (R6, R172). -/
def kDelay : Word := 0x399D4952

/-- 4.0 (R171). -/
def f4 : Word := 0x40800000

/-- `DelayProduct(fs)` (R172). -/
def delayProduct (fs : Word) : Word := fmul kDelay fs

/-- `DelayInSamples(fs)`, for a finite product (R172); not negative where `fs > 0`. -/
def delayInSamples (fs : Word) : Nat := (itrunc (delayProduct fs)).toNat

/-- A value is within a bound: both comparisons are true, so a NaN is within none (R175). -/
def withinBound (v lo hi : Word) : Bool := fge v lo && fle v hi

/-- `DlCreate(B, D)` (R173): capacity `2D+1`, all zero, the write cursor pre-advanced by `D`. -/
def delayLineCreated (d : Nat) : RingBuffer :=
  { cap := 2 * d + 1, rd := 0, wr := d, store := List.replicate (2 * d + 1) posZero }

/-- The four argument tests of `VIB.INIT` (R171, step 1). -/
def vibArgumentsValid (fs : Word) (nch : Int) (fm amp : Word) : Bool :=
  fgt fs posZero && decide (0 < nch) && withinBound fm posZero (fdiv fs f4) && withinBound amp posZero oneF

/-- The allocation check of `VIB.INIT` (R171, step 2). -/
def vibFits (p : Params) (fs : Word) (nch : Int) : Bool :=
  decide (nch ≤ (p.channelsMax : Int)) && isFinite (delayProduct fs)
    && decide (2 * delayInSamples fs + 1 ≤ p.delayLineMax)

/-- The `channels` delay lines after `VIB.INIT`: one for each of the `nch` channels, none beyond (R171, step 3). -/
def delayLinesCreated (channels nch d : Nat) : List (Option RingBuffer) :=
  (List.range channels).map fun j => if j < nch then some (delayLineCreated d) else none

/-- The LFO of a newly initialised engine: `LfoInit(VIB.lfo, 0, fm, fs)`, which cannot fail after the argument tests (R171,
R204); `old` stands where it would. -/
def vibLfo (old : Lfo) (fm fs : Word) : Lfo := (lfoInitialized 0 fm fs).getD old

/-- The commit of `VIB.INIT` (R171, step 3). -/
def vibInitialized (channels : Nat) (old : Vib) (fs : Word) (nch : Nat) (fm amp : Word) : Vib :=
  { ready := true, fs := fs, nch := nch, modFreq := fm, amp := amp, ampMin := posZero, ampMax := oneF,
    freqMin := posZero, freqMax := fdiv fs f4, delay := delayInSamples fs,
    dl := delayLinesCreated channels nch (delayInSamples fs), lfo := vibLfo old.lfo fm fs }

/-- The offset of one frame: `fmul(fmul(s, amp), i2f(D))`, left to right (R177). -/
def vibOffset (v : Vib) (sample : Word) : Word := fmul (fmul sample v.amp) (i2f (v.delay : Int))

/-- One channel of one frame (R177): write the input sample, read at the offset, advance the read cursor. The output sample
and the delay line afterwards. -/
def channelStep (b : RingBuffer) (offset x : Word) : Word × RingBuffer :=
  let b' := rbPut b x
  (rbInterp b' offset, rbAdvance b')

/-- The channels of one frame `i` of `VIB.PROCESS` (R179): `n` channels from channel `j` on; in each the input word is read
before the output word is written (R68). -/
def vibChannels (aw inp out stride i : Nat) (offset : Word) : (n j : Nat) → Vib → Memory → Vib × Memory
  | 0, _, v, m => (v, m)
  | n + 1, j, v, m =>
    let r := channelStep (delayLine v j) offset (memRead aw m (effectiveAddress aw inp stride j i))
    vibChannels aw inp out stride i offset n (j + 1) (setDelayLine v j r.2)
      (memWrite aw m (effectiveAddress aw out stride j i) r.1)

/-- How `VIB.PROCESS` leaves the engine and the memory, and whether it became stuck on the way. -/
structure VibRun where
  vib : Vib
  mem : Memory
  stuck : Bool
  deriving DecidableEq, Repr

/-- The frames of `VIB.PROCESS` (R179): `n` frames from frame `i` on, the LFO advanced once in each. -/
def vibFrames (p : Params) (inp out stride : Nat) : (n i : Nat) → Vib → Memory → VibRun
  | 0, _, v, m => { vib := v, mem := m, stuck := false }
  | n + 1, i, v, m =>
    match lfoNext p.sine v.lfo with
    | none => { vib := v, mem := m, stuck := true }
    | some (sample, l) =>
      let r := vibChannels p.addressWidth inp out stride i (vibOffset v sample) v.nch 0 { v with lfo := l } m
      vibFrames p inp out stride n (i + 1) r.1 r.2

/-- `VIB.INIT` (R171). -/
def execVibInit (s : State) : Answer :=
  .next <|
    let fs := argWord 0 s
    let nch := argSint 1 s
    let fm := argWord 2 s
    let amp := argWord 3 s
    if !vibArgumentsValid fs nch fm amp then raise .invalidArguments s
    else if !vibFits s.params fs nch then raise .unknownError s
    else complete { s with vib := vibInitialized s.params.channelsMax s.vib fs nch.toNat fm amp }

/-- `VIB.RESET` (R174). -/
def execVibReset (s : State) : Answer := .next <| complete { s with vib := Vib.reset s.params.channelsMax }

/-- `VIB.SETPARAM p` (R176). The nested `LfoSetFreq` cannot fail after the bound test (R176, R204). -/
def execVibSetparam (p : BitVec 8) (s : State) : Answer :=
  .next <|
    let v := argWord 0 s
    if !s.vib.ready then raise .notInitialized s
    else if 1 < p.toNat then raise .illegalCall s
    else if p.toNat = 0 then
      if withinBound v s.vib.ampMin s.vib.ampMax then complete { s with vib := { s.vib with amp := v } }
      else raise .invalidArguments s
    else
      if withinBound v s.vib.freqMin s.vib.freqMax then
        complete { s with vib :=
          { s.vib with modFreq := v, lfo := (lfoWithFrequency s.vib.lfo v).getD s.vib.lfo } }
      else raise .invalidArguments s

/-- `VIB.GETPARAM p` (R178). -/
def execVibGetparam (p : BitVec 8) (s : State) : Answer :=
  .next <|
    if !s.vib.ready then raiseSentinel .notInitialized s
    else if 1 < p.toNat then raiseSentinel .illegalCall s
    else if p.toNat = 0 then completeWith s.vib.amp s
    else completeWith s.vib.modFreq s

/-- `VIB.PROCESS` (R179). -/
def execVibProcess (s : State) : Answer :=
  .next <|
    if !s.vib.ready then raise .notInitialized s
    else
      let r := vibFrames s.params (argAddress 0 s) (argAddress 1 s) (argAddress 2 s) (argUint 3 s) 0 s.vib s.mem
      let s' := { s with vib := r.vib, mem := r.mem }
      if r.stuck then becomeStuck s' else complete s'

end Sys2Proof.Machine
end

