-- ==== Sys2Proof/Machine/HostPort.lean ====
section
/-! DEFINITION. The host-port transactions (spec/40_host_port.md R101, R102) and the execution of a command word written to
`CMD` (spec/30_encoding.md R85). -/

namespace Sys2Proof.Machine

/-- The command a decoded word stands for; the decoder yields no transaction, and a transaction is no command. -/
def runCommand (i : Instr) (s : State) : Answer :=
  match i with
  | .rbCreate n => execRbCreate n s
  | .rbDestroy n => execRbDestroy n s
  | .rbPut n => execRbPut n s
  | .rbPutn n => execRbPutn n s
  | .rbGet n => execRbGet n s
  | .rbGetpi n => execRbGetpi n s
  | .rbGetn n => execRbGetn n s
  | .rbSetrd n => execRbSetrd n s
  | .rbGetrd n => execRbGetrd n s
  | .rbSetwr n => execRbSetwr n s
  | .rbGetwr n => execRbGetwr n s
  | .lfoInit w => execLfoInit w s
  | .lfoReset => execLfoReset s
  | .lfoSetfreq => execLfoSetfreq s
  | .lfoGetfreq => execLfoGetfreq s
  | .lfoNext => execLfoNext s
  | .lfoBlock => execLfoBlock s
  | .vibInit => execVibInit s
  | .vibReset => execVibReset s
  | .vibSetparam p => execVibSetparam p s
  | .vibGetparam p => execVibGetparam p s
  | .vibProcess => execVibProcess s
  | .wr _ _ => .next (raise .illegalCall s)
  | .rd _ => .next (raise .illegalCall s)

/-- `Execute(w)`: run the command a word written to `CMD` encodes; an undefined word raises IllegalCall and changes nothing
else (R85, R101). -/
def executeWord (w : Word) (s : State) : Answer :=
  match decodeCommand s.params.userSlots w with
  | .error _ => .next (raise .illegalCall s)
  | .ok i => runCommand i s

/-- `WR reg, value` (R101): offset 0 executes the word, offsets 4 to 7 are the argument registers, writes to 1, 2 and 3 are
ignored. -/
def execWr (addr : BitVec 3) (wdata : Word) (s : State) : Answer :=
  match addr.toNat with
  | 0 => executeWord wdata s
  | 4 => .next (setArg 0 wdata s)
  | 5 => .next (setArg 1 wdata s)
  | 6 => .next (setArg 2 wdata s)
  | 7 => .next (setArg 3 wdata s)
  | _ => .next s

/-- The word a port register reads as (R102): `CMD` and offset 3 read as zero. -/
def portValue (addr : BitVec 3) (s : State) : Word :=
  match addr.toNat with
  | 1 => s.st
  | 2 => s.res
  | 4 => argWord 0 s
  | 5 => argWord 1 s
  | 6 => argWord 2 s
  | 7 => argWord 3 s
  | _ => 0

/-- `RD reg` (R102): returns `rdata` and changes no state of the CORE. -/
def execRd (addr : BitVec 3) (s : State) : Answer := .next { s with rdata := portValue addr s }

end Sys2Proof.Machine
end

