-- ==== Sys2Proof/Machine/Dispatch.lean ====
section
/-! DEFINITION. The dispatch: one arm per instruction, each one call of its meaning. -/

namespace Sys2Proof.Machine

def exec (i : Instr) (s : State) : Host.Outcome State Fault Refusal :=
  match i with
  | .rbCreate n => Sys2Proof.Machine.execRbCreate n s
  | .rbDestroy n => Sys2Proof.Machine.execRbDestroy n s
  | .rbPut n => Sys2Proof.Machine.execRbPut n s
  | .rbPutn n => Sys2Proof.Machine.execRbPutn n s
  | .rbGet n => Sys2Proof.Machine.execRbGet n s
  | .rbGetpi n => Sys2Proof.Machine.execRbGetpi n s
  | .rbGetn n => Sys2Proof.Machine.execRbGetn n s
  | .rbSetrd n => Sys2Proof.Machine.execRbSetrd n s
  | .rbGetrd n => Sys2Proof.Machine.execRbGetrd n s
  | .rbSetwr n => Sys2Proof.Machine.execRbSetwr n s
  | .rbGetwr n => Sys2Proof.Machine.execRbGetwr n s
  | .lfoInit w => Sys2Proof.Machine.execLfoInit w s
  | .lfoReset => Sys2Proof.Machine.execLfoReset s
  | .lfoSetfreq => Sys2Proof.Machine.execLfoSetfreq s
  | .lfoGetfreq => Sys2Proof.Machine.execLfoGetfreq s
  | .lfoNext => Sys2Proof.Machine.execLfoNext s
  | .lfoBlock => Sys2Proof.Machine.execLfoBlock s
  | .vibInit => Sys2Proof.Machine.execVibInit s
  | .vibReset => Sys2Proof.Machine.execVibReset s
  | .vibSetparam p => Sys2Proof.Machine.execVibSetparam p s
  | .vibGetparam p => Sys2Proof.Machine.execVibGetparam p s
  | .vibProcess => Sys2Proof.Machine.execVibProcess s
  | .wr addr wdata => Sys2Proof.Machine.execWr addr wdata s
  | .rd addr => Sys2Proof.Machine.execRd addr s

end Sys2Proof.Machine
end

