-- ==== Sys2Proof/Machine/Reset.lean ====
section
/-! DEFINITION. Hardware reset while a command runs (spec/70_reset_and_hazards.md R230): "none of its remaining memory
accesses happen, those already made stay made". Since reset clears every piece of CORE state, all that is left of an abandoned
command is the memory after its first few writes, taken in the order of spec/20_memory.md R68 (log 12). -/

namespace Sys2Proof.Machine

/-- The memory after the first `writes` memory writes of `RB.GETN`. -/
def abandonedGetn (n : BitVec 8) (writes : Nat) (s : State) : Memory :=
  match slot n s with
  | none => s.mem
  | some b => (getWords s.params.addressWidth (argAddress 0 s) (min writes (argUint 1 s)) 0 b s.mem).2

/-- The memory after the first `writes` memory writes of `LFO.BLOCK`: the whole frames among them, then the channels of one
more frame. -/
def abandonedBlock (writes : Nat) (s : State) : Memory :=
  if !s.ulfo.ready then s.mem
  else
    let nch := argUint 2 s
    let whole := writes / nch
    let r := blockFrames s.params (argAddress 0 s) (argAddress 1 s) nch (min whole (argUint 3 s)) 0 s.ulfo s.mem
    if r.stuck || decide (argUint 3 s ≤ whole) then r.mem
    else
      match lfoNext s.params.sine r.lfo with
      | none => r.mem
      | some (v, _) =>
        blockChannels s.params.addressWidth (argAddress 0 s) (argAddress 1 s) whole v (min (writes % nch) nch) 0 r.mem

/-- The memory after the first `writes` memory writes of `VIB.PROCESS`, as for `LFO.BLOCK`. -/
def abandonedProcess (writes : Nat) (s : State) : Memory :=
  if !s.vib.ready then s.mem
  else
    let nch := s.vib.nch
    let whole := writes / nch
    let r := vibFrames s.params (argAddress 0 s) (argAddress 1 s) (argAddress 2 s) (min whole (argUint 3 s)) 0 s.vib s.mem
    if r.stuck || decide (argUint 3 s ≤ whole) then r.mem
    else
      match lfoNext s.params.sine r.vib.lfo with
      | none => r.mem
      | some (sample, l) =>
        (vibChannels s.params.addressWidth (argAddress 0 s) (argAddress 1 s) (argAddress 2 s) whole (vibOffset r.vib sample)
          (min (writes % nch) nch) 0 { r.vib with lfo := l } r.mem).2

/-- The memory a command leaves when hardware reset comes after its first `writes` memory writes. Only `RB.GETN`, `LFO.BLOCK`
and `VIB.PROCESS` write memory (R60). -/
def abandonedMemory (i : Instr) (writes : Nat) (s : State) : Memory :=
  match i with
  | .rbGetn n => abandonedGetn n writes s
  | .lfoBlock => abandonedBlock writes s
  | .vibProcess => abandonedProcess writes s
  | .rbCreate _ => s.mem
  | .rbDestroy _ => s.mem
  | .rbPut _ => s.mem
  | .rbPutn _ => s.mem
  | .rbGet _ => s.mem
  | .rbGetpi _ => s.mem
  | .rbSetrd _ => s.mem
  | .rbGetrd _ => s.mem
  | .rbSetwr _ => s.mem
  | .rbGetwr _ => s.mem
  | .lfoInit _ => s.mem
  | .lfoReset => s.mem
  | .lfoSetfreq => s.mem
  | .lfoGetfreq => s.mem
  | .lfoNext => s.mem
  | .vibInit => s.mem
  | .vibReset => s.mem
  | .vibSetparam _ => s.mem
  | .vibGetparam _ => s.mem
  | .wr _ _ => s.mem
  | .rd _ => s.mem

/-- The command a transaction starts, if it starts one: a write to `CMD` of a word that decodes (R101, R85). -/
def startedCommand (slots : Nat) (t : Instr) : Option Instr :=
  match t with
  | .wr addr w => if addr = 0 then (decodeCommand slots w).toOption else none
  | _ => none

/-- Hardware reset during a transaction, after `writes` memory writes of its command (R230, log 12). -/
def resetDuringTransaction (t : Instr) (writes : Nat) (s : State) : State :=
  match startedCommand s.params.userSlots t with
  | none => hardwareReset s
  | some i => hardwareReset { s with mem := abandonedMemory i writes s }

/-- What one event from outside does, the event already taken from the list of those to come. A transaction runs the
instruction its 36 bits decode to. A host write to the sample memory goes to its address modulo 2^AW; for an address not below 2^AW
that is a DESIGN CHOICE, since R12 and R61 speak of the CORE's accesses only (log 18). -/
def acceptEvent (e : HostEvent) (s : State) : Answer :=
  match e with
  | .transaction bits => exec (decodeTransaction bits) s
  | .hardReset => .next (hardwareReset s)
  | .resetDuring bits writes => .next (resetDuringTransaction (decodeTransaction bits) writes s)
  | .memWrite addr value => .next { s with mem := memWrite s.params.addressWidth s.mem addr.toNat value }

/-- Whether the event can reach the CORE now: while it is stuck, the host is held at the port and only hardware reset gets
through (R103, R240). -/
def eventAccepted (e : HostEvent) (s : State) : Bool := !s.stuck || e == .hardReset

/-- One step: the first event still to come happens if it can; otherwise the CORE waits (R103, R219). -/
def stepEvent (s : State) : Answer :=
  match s.pending with
  | [] => .next s
  | e :: rest => if eventAccepted e s then acceptEvent e { s with pending := rest } else .next s

/-- The 36 bits that put an opcode-table row's instruction on the host port: a command word is written to `CMD` (R80, R101), a
longer row is the transaction itself (R100). -/
def fetchTransaction (nbits w : Nat) : BitVec 36 :=
  if nbits ≤ 32 then writeTransaction 0 (BitVec.ofNat 32 w) else BitVec.ofNat 36 w

/-- A state whose very next step runs the given transaction: it is the first event to come, and the port is not blocked. -/
def withTransaction (s : State) (t : BitVec 36) : State :=
  { s with pending := .transaction t :: s.pending, stuck := false }

end Sys2Proof.Machine
end

