-- ==== Sys2Proof/Machine/Step.lean ====
section
/-! DEFINITION. The step function. The CORE fetches no instructions (spec/10_state.md R23): what it runs next is the next
transaction the host issues, the first entry of `pending` (log 9). -/

namespace Sys2Proof.Machine

/-- One step of the machine: the next event from outside happens, a command running to completion inside it (R5, R103). -/
def step (s : State) : Host.Outcome State Fault Refusal := stepEvent s

/-- The state in which the given instruction is the next transaction of the host (log 9). -/
def State.withFetchWord (s : State) (nbits w : Nat) : State := withTransaction s (fetchTransaction nbits w)

end Sys2Proof.Machine
end

