-- ==== Sys2Proof/Safety.lean ====
section
/-! DEFINITION. What a sound state of the machine is: the invariants that spec/10_state.md states for the status register (R22),
the ring buffers (R26), an LFO (R29) and the vibrato engine (R32), and the canonical form of the memory. Claims are stated in
these terms. -/

namespace Sys2Proof.Machine

/-- `ST` holds one of the five status codes (R22, R200). -/
def statusSound (s : State) : Prop := s.st.toNat ≤ 4

/-- The invariants of a ring buffer that exists, with the instance's largest capacity (R25, R26). -/
def bufferSound (capMax : Nat) (b : RingBuffer) : Prop :=
  1 ≤ b.cap ∧ b.cap ≤ capMax ∧ b.rd < b.cap ∧ b.wr < b.cap ∧ b.store.length = b.cap

/-- The values of the parameters that R7 allows. -/
def paramsLegal (p : Params) : Prop :=
  1 ≤ p.addressWidth ∧ p.addressWidth ≤ 32 ∧ 1 ≤ p.userSlots ∧ p.userSlots ≤ 256 ∧
    1 ≤ p.userCapacityMax ∧ p.userCapacityMax ≤ 2 ^ 31 - 1 ∧ 1 ≤ p.channelsMax ∧ p.channelsMax ≤ 2 ^ 31 - 1 ∧
    p.delayLineMax % 2 = 1 ∧ p.delayLineMax < 2 ^ 24 ∧
    (∀ entries, p.sine = .custom entries → entries.length = Config.tableLength) ∧
    ∀ i, i < Config.tableLength → isFinite (sineEntry p.sine i) = true ∧
      -(unitsPerOne : Int) ≤ realUnits (sineEntry p.sine i) ∧ realUnits (sineEntry p.sine i) ≤ (unitsPerOne : Int)

/-- There are `N_URB` user slots, and every one that exists holds a sound ring buffer (R26, R27). -/
def userBuffersSound (s : State) : Prop :=
  s.urb.length = s.params.userSlots ∧
    ∀ (n : BitVec 8) (b : RingBuffer), slot n s = some b → bufferSound s.params.userCapacityMax b

/-- The range of a phase cursor: a NaN, or a finite value with `-1 < real(phase) ≤ 2047` (R29). -/
def phaseSound (phase : Word) : Prop :=
  isNaN phase = true ∨
    (isFinite phase = true ∧ -(unitsPerOne : Int) < realUnits phase ∧ realUnits phase ≤ 2047 * (unitsPerOne : Int))

/-- The invariants of an LFO: those of R29 while Ready, its reset value otherwise (R28, R37). -/
def lfoSound (l : Lfo) : Prop :=
  if l.ready then
    l.wave = 0 ∧ fge l.freq posZero = true ∧ fgt l.fs posZero = true ∧ l.inc = lfoIncrement l.fs l.freq ∧ phaseSound l.phase
  else l = Lfo.reset

/-- Whether `VIB.dl[j].exists` (R31). -/
def delayLineExists (v : Vib) (j : Nat) : Bool := (v.dl[j]?).join.isSome

/-- The invariants of channel `j`'s delay line while the engine is Ready (R26, R32): capacity `2D+1`, the write cursor `D`
ahead of the read cursor, and the cursors of channel 0. -/
def delayLineSound (p : Params) (v : Vib) (j : Nat) : Prop :=
  delayLineExists v j = true ∧ bufferSound p.delayLineMax (delayLine v j) ∧
    (delayLine v j).cap = 2 * v.delay + 1 ∧
    (delayLine v j).wr = ((delayLine v j).rd + v.delay) % (delayLine v j).cap ∧
    (delayLine v j).rd = (delayLine v 0).rd ∧ (delayLine v j).wr = (delayLine v 0).wr

/-- The invariants of the vibrato engine: those of R31 and R32 while Ready, its reset value otherwise (R32, R37). -/
def vibSound (p : Params) (v : Vib) : Prop :=
  if v.ready then
    1 ≤ v.nch ∧ v.nch ≤ p.channelsMax ∧ v.dl.length = p.channelsMax ∧
      (∀ j, j < v.nch → delayLineSound p v j) ∧ (∀ j, v.nch ≤ j → delayLineExists v j = false) ∧
      v.ampMin = posZero ∧ v.ampMax = oneF ∧ v.freqMin = posZero ∧ v.freqMax = fdiv v.fs f4 ∧
      withinBound v.amp v.ampMin v.ampMax = true ∧ withinBound v.modFreq v.freqMin v.freqMax = true ∧
      v.lfo.ready = true ∧ v.lfo.freq = v.modFreq ∧ v.lfo.fs = v.fs ∧ lfoSound v.lfo
  else v = Vib.reset p.channelsMax

/-- The overflow threshold of binary32 in units: half a last place above the largest finite value. An exact magnitude from there
on rounds to an infinity (R15). -/
def overflowUnits : Int := (2 ^ 128 - 2 ^ 103) * (unitsPerOne : Int)

/-- `r` is a finite value nearest to `exact / scale` units: no finite value is nearer, and where one with another real value is as
near, the fraction of `r` is even (R15). -/
def nearestEven (r : Word) (scale exact : Int) : Prop :=
  ∀ c : Word, isFinite c = true →
    |realUnits r * scale - exact| ≤ |realUnits c * scale - exact| ∧
    (|realUnits r * scale - exact| = |realUnits c * scale - exact| → realUnits c ≠ realUnits r → fractionField r % 2 = 0)

/-- The accesses of `VIB.PROCESS` at `s` in its channel step `k`, which is channel `k % nch` of frame `k / nch` (R68, R177, R179):
from the memory `M k` and the delay lines `D k` to those after the step, `sample i` being the LFO value of frame `i`. -/
def channelAccesses (s : State) (sample : Nat → Word) (D : Nat → Nat → RingBuffer) (M : Nat → Memory) (k : Nat) : Prop :=
  let i := k / s.vib.nch
  let j := k % s.vib.nch
  let b := D k j
  let x := memRead s.params.addressWidth (M k) (s.args[0].toNat + j * s.args[2].toNat + i)
  let y := rbInterp { b with store := b.store.set b.wr x } (fmul (fmul (sample i) s.vib.amp) (i2f s.vib.delay))
  M (k + 1) = memWrite s.params.addressWidth (M k) (s.args[1].toNat + j * s.args[2].toNat + i) y ∧
    D (k + 1) j = { b with store := b.store.set b.wr x, wr := (b.wr + 1) % b.cap, rd := (b.rd + 1) % b.cap } ∧
    ∀ j', j' ≠ j → D (k + 1) j' = D k j'

/-- The subtraction of the wrap loop done `k` times (R148). -/
def wrapped : (k : Nat) → Word → Word
  | 0, p => p
  | k + 1, p => wrapped k (fsub p f2048)

/-- The commands: every instruction but the two transactions. -/
def isCommand : Instr → Bool
  | .wr _ _ => false
  | .rd _ => false
  | _ => true

/-- The ring-buffer family. -/
def isRingBufferCommand : Instr → Bool
  | .rbCreate _ | .rbDestroy _ | .rbPut _ | .rbPutn _ | .rbGet _ | .rbGetpi _ | .rbGetn _ | .rbSetrd _ | .rbGetrd _
  | .rbSetwr _ | .rbGetwr _ => true
  | _ => false

/-- The LFO family. -/
def isLfoCommand : Instr → Bool
  | .lfoInit _ | .lfoReset | .lfoSetfreq | .lfoGetfreq | .lfoNext | .lfoBlock => true
  | _ => false

/-- The vibrato-engine family. -/
def isVibCommand : Instr → Bool
  | .vibInit | .vibReset | .vibSetparam _ | .vibGetparam _ | .vibProcess => true
  | _ => false

end Sys2Proof.Machine
end

