-- ==== Sys2Proof/Certificates/Slice0/Obligations.lean ====
section
/-! DEFINITION. The statements for the provers. Status codes are written as the numbers of spec/60_exceptions.md R200: 0 NoError,
1 InvalidArguments, 2 NotInitialized, 3 IllegalCall, 4 UnknownError. A next state is written as the old state with the fields that
change, so that each equation is also the instruction's frame: every field it does not name is unchanged. -/

open Sys2Proof Sys2Proof.Machine

/-! ### Encoding and decoding -/

/-- Decoding the encoding of a well-formed instruction gives the instruction back, every operand at every value that the encoding
admits (R81 to R85, R100 to R102), for every number of user slots; `decodeTableWord` is the decoder for the default number. -/
def Obligations.DecodeOfEncode : Prop :=
  (∀ (slots : Nat) (i : Instr), i.wellFormed slots = true → decodeBits slots (encode i).1 (encode i).2 = some i) ∧
  (∀ i : Instr, i.wellFormed 2 = true → decodeTableWord (encode i).1 (encode i).2 = some i)

/-- Encoding what was decoded gives the bits back: each command has one word (R84), each write transaction one pattern (R100);
a read transaction keeps its address and none of the bits it ignores (R102). -/
def Obligations.EncodeOfDecode : Prop :=
  (∀ (slots : Nat) (w : Word) (i : Instr), decodeCommand slots w = .ok i →
    i.wellFormed slots = true ∧ encode i = (32, w.toNat)) ∧
  (∀ t : BitVec 36, t.msb = true → encode (decodeTransaction t) = (36, t.toNat)) ∧
  (∀ t : BitVec 36, t.msb = false → encode (decodeTransaction t) = (36, t.toNat / 2 ^ 32 * 2 ^ 32))

/-- R85: a word decodes exactly when the four tests hold, and a word written to `CMD` that does not decode raises IllegalCall
and changes nothing else. -/
def Obligations.UndefinedWordRaisesIllegalCall : Prop :=
  ∀ (slots : Nat) (w : Word),
    ((∃ i, decodeCommand slots w = .ok i) ↔
      w.toNat / 65536 = 0 ∧
      ((0x10 ≤ w.toNat % 256 ∧ w.toNat % 256 ≤ 0x1A) ∨ (0x20 ≤ w.toNat % 256 ∧ w.toNat % 256 ≤ 0x25) ∨
        (0x30 ≤ w.toNat % 256 ∧ w.toNat % 256 ≤ 0x34)) ∧
      ((0x21 ≤ w.toNat % 256 ∧ w.toNat % 256 ≤ 0x25) ∨ w.toNat % 256 = 0x30 ∨ w.toNat % 256 = 0x31 ∨ w.toNat % 256 = 0x34 →
        w.toNat / 256 % 256 = 0) ∧
      (w.toNat % 256 ≤ 0x1A → w.toNat / 256 % 256 < slots)) ∧
    (∀ s : State, s.params.userSlots = slots → (∀ i, decodeCommand slots w ≠ .ok i) →
      exec (.wr 0 w) s = .next { s with st := 3 })

/-- Words of R84 and patterns of R100, written out, decode to the instruction they stand for. -/
def Obligations.WrittenWordsDecode : Prop :=
  decodeTableWord 32 0x00000110 = some (.rbCreate 1) ∧ decodeTableWord 32 0x00000014 = some (.rbGet 0) ∧
  decodeTableWord 32 0x00000720 = some (.lfoInit 7) ∧ decodeTableWord 32 0x00000024 = some .lfoNext ∧
  decodeTableWord 32 0x0000FF33 = some (.vibGetparam 0xFF) ∧ decodeTableWord 32 0x00000034 = some .vibProcess ∧
  decodeTableWord 36 0xC3FC00000 = some (.wr 4 0x3FC00000) ∧ decodeTableWord 36 0x2DEADBEEF = some (.rd 2) ∧
  decodeTableWord 32 0x00000210 = none ∧ decodeTableWord 32 0x00010024 = none ∧ decodeTableWord 32 0 = none

/-! ### The host port -/

/-- R101: a write to offset 0 executes the word as the command it encodes, or raises IllegalCall; offsets 4 to 7 store the word in
`A0` to `A3` and do nothing else; offsets 1, 2 and 3 ignore the write. -/
def Obligations.WritePort : Prop :=
  ∀ (addr : BitVec 3) (w : Word) (s : State),
    (addr = 0 → ∀ i, decodeCommand s.params.userSlots w = .ok i → exec (.wr addr w) s = exec i s) ∧
    (addr = 0 → (∀ i, decodeCommand s.params.userSlots w ≠ .ok i) → exec (.wr addr w) s = .next { s with st := 3 }) ∧
    (addr = 1 ∨ addr = 2 ∨ addr = 3 → exec (.wr addr w) s = .next s) ∧
    (addr = 4 → exec (.wr addr w) s = .next { s with args := s.args.set 0 w }) ∧
    (addr = 5 → exec (.wr addr w) s = .next { s with args := s.args.set 1 w }) ∧
    (addr = 6 → exec (.wr addr w) s = .next { s with args := s.args.set 2 w }) ∧
    (addr = 7 → exec (.wr addr w) s = .next { s with args := s.args.set 3 w })

/-- R102: a read returns `ST`, `RES`, an argument register, or 0 for `CMD` and offset 3, and changes no state of the CORE. The
returned data stands in `rdata`, the model's own field (log 10). -/
def Obligations.ReadPort : Prop :=
  ∀ (addr : BitVec 3) (s : State),
    exec (.rd addr) s = .next { s with rdata :=
      if addr = 1 then s.st else if addr = 2 then s.res else if addr = 4 then s.args[0] else if addr = 5 then s.args[1]
      else if addr = 6 then s.args[2] else if addr = 7 then s.args[3] else 0 }

/-- A step at which the host issues a transaction, the port not blocked, is the execution of the instruction that its 36 bits
decode to, the transaction taken from the events still to come (R100, R103). `pending` is the model's choice of how the host's
side stands in the state (log 9). -/
def Obligations.StepRunsTransaction : Prop :=
  ∀ (s : State) (bits : BitVec 36) (rest : List HostEvent),
    s.stuck = false → s.pending = .transaction bits :: rest → step s = exec (decodeTransaction bits) { s with pending := rest }

/-- The state that has an instruction's encoding as the host's next transaction runs exactly that instruction next (log 9). -/
def Obligations.StepRunsPlacedInstruction : Prop :=
  ∀ (i : Instr) (s : State), i.wellFormed s.params.userSlots = true →
    step (s.withFetchWord (encode i).1 (encode i).2) = exec i { s with stuck := false }

/-- R103, R240: while the CORE is stuck no transaction is accepted and nothing changes, however often the host waits; hardware
reset gets through. The waiting events are a list, the model's choice (log 9), and that a host write to the sample memory waits too
is the model's choice (log 13). -/
def Obligations.StuckPortBlocks : Prop :=
  ∀ (s : State) (e : HostEvent) (rest : List HostEvent), s.stuck = true → s.pending = e :: rest →
    (e ≠ .hardReset → step s = .next s) ∧
    (e = .hardReset → ∃ t, step s = .next t ∧ t.stuck = false ∧ t.st = 0 ∧ t.pending = rest)

/-- The machine never stops: every instruction and every step answers a next state (R104, R232). -/
def Obligations.EveryStepAnswersNext : Prop :=
  (∀ (i : Instr) (s : State), ∃ t, exec i s = .next t) ∧ (∀ s : State, ∃ t, step s = .next t)

/-! ### Reset -/

/-- R37: the state after hardware reset, from any state, stuck or not. What `rdata` then holds is the model's choice (log 10) and is
not stated. -/
def Obligations.HardwareResetValues : Prop :=
  ∀ (s : State) (rest : List HostEvent), s.pending = .hardReset :: rest →
    ∃ t, step s = .next t ∧ t.args = #v[0, 0, 0, 0] ∧ t.res = 0 ∧ t.st = 0 ∧ t.urb = List.replicate s.params.userSlots none ∧
      t.ulfo = { ready := false, wave := 0, freq := 0, fs := 0, inc := 0, phase := 0 } ∧
      t.vib = { ready := false, fs := 0, nch := 0, modFreq := 0, amp := 0, ampMin := 0, ampMax := 0, freqMin := 0,
                freqMax := 0, delay := 0, dl := List.replicate s.params.channelsMax none,
                lfo := { ready := false, wave := 0, freq := 0, fs := 0, inc := 0, phase := 0 } } ∧
      t.mem = s.mem ∧ t.stuck = false ∧ t.pending = rest

/-- R230, R68: hardware reset while a command runs, after `writes` of its memory writes. The state is that after hardware reset, but
for the memory, which holds exactly the first `writes` writes of the command in the order of R68, or all it makes if those are
fewer: none for a command that writes no memory or fails; `RB.GETN` element by element; `LFO.BLOCK` frame by frame and in each
channel by channel, `L i` the LFO before frame `i`, `v i` its value; `VIB.PROCESS` likewise, `M k` the memory and `D k` the delay
lines after `k` channel steps. `F` is how many frames are not stuck, as far as the reset lets it matter. That the moment of the
reset is a number of memory writes is the model's choice (log 12); that the values are those of the same operations on the same
operands rests, for a produced NaN, on log 2, and for unwritten words on log 4. -/
def Obligations.ResetAbandonsCommand : Prop :=
  ∀ (s : State) (bits : BitVec 36) (writes : Nat) (rest : List HostEvent) (i : Instr) (w : Word),
    s.stuck = false → s.pending = .resetDuring bits writes :: rest → decodeTransaction bits = .wr 0 w →
    decodeCommand s.params.userSlots w = .ok i →
    ∃ t, step s = .next t ∧ t = { hardwareReset s with mem := t.mem, pending := rest } ∧
      ((∀ n, i ≠ .rbGetn n) → i ≠ .lfoBlock → i ≠ .vibProcess → t.mem = s.mem) ∧
      (∀ n, i = .rbGetn n → slot n s = none → t.mem = s.mem) ∧
      (∀ n b, i = .rbGetn n → slot n s = some b → bufferSound s.params.userCapacityMax b →
        t.mem = (List.range (min writes s.args[1].toNat)).foldl
          (fun m k => memWrite s.params.addressWidth m (s.args[0].toNat + k) (b.store.getD ((b.rd + k) % b.cap) 0)) s.mem) ∧
      (i = .lfoBlock → s.ulfo.ready = false → t.mem = s.mem) ∧
      (∀ (F : Nat) (L : Nat → Lfo) (v : Nat → Word), i = .lfoBlock → s.ulfo.ready = true → L 0 = s.ulfo →
        F ≤ s.args[3].toNat → (∀ f, f < F → lfoNext s.params.sine (L f) = some (v f, L (f + 1))) →
        F = s.args[3].toNat ∨ lfoNext s.params.sine (L F) = none ∨ writes ≤ F * s.args[2].toNat →
        t.mem = (List.range (min writes (F * s.args[2].toNat))).foldl
          (fun m k => memWrite s.params.addressWidth m
            (s.args[0].toNat + k % s.args[2].toNat * s.args[1].toNat + k / s.args[2].toNat) (v (k / s.args[2].toNat))) s.mem) ∧
      (i = .vibProcess → s.vib.ready = false → t.mem = s.mem) ∧
      (∀ (F : Nat) (L : Nat → Lfo) (sample : Nat → Word) (D : Nat → Nat → RingBuffer) (M : Nat → Memory),
        i = .vibProcess → s.vib.ready = true → vibSound s.params s.vib → L 0 = s.vib.lfo → M 0 = s.mem →
        (∀ j, j < s.vib.nch → s.vib.dl[j]? = some (some (D 0 j))) → F ≤ s.args[3].toNat →
        (∀ f, f < F → lfoNext s.params.sine (L f) = some (sample f, L (f + 1))) →
        (∀ k, k < F * s.vib.nch → channelAccesses s sample D M k) →
        F = s.args[3].toNat ∨ lfoNext s.params.sine (L F) = none ∨ writes ≤ F * s.vib.nch →
        t.mem = M (min writes (F * s.vib.nch)))

/-- R231: `RB.DESTROY` of every slot, one after another, `LFO.RESET` and `VIB.RESET` bring every unit to its state after hardware
reset, each writing `ST <- 0`, and leave `A0` to `A3` and `RES` as they were. -/
def Obligations.SoftwareResets : Prop :=
  ∀ s : State, s.params.userSlots ≤ 256 → s.urb.length = s.params.userSlots →
    ∃ (r : Nat → State) (t1 t2 : State),
      r 0 = s ∧
      (∀ k, k < s.params.userSlots → exec (.rbDestroy (BitVec.ofNat 8 k)) (r k) = .next (r (k + 1)) ∧ (r (k + 1)).st = 0) ∧
      exec .lfoReset (r s.params.userSlots) = .next t1 ∧ t1.st = 0 ∧ exec .vibReset t1 = .next t2 ∧
      t2 = { s with
        st := 0, urb := (State.resetWith s.params).urb, ulfo := (State.resetWith s.params).ulfo,
        vib := (State.resetWith s.params).vib }

/-! ### The ring-buffer family -/

/-- R112: `RB.CREATE s`, its three failures in their order, and the empty ring buffer it makes. -/
def Obligations.RbCreate : Prop :=
  ∀ (n : BitVec 8) (s : State), n.toNat < s.params.userSlots →
    (∀ b, s.urb[n.toNat]? = some (some b) → exec (.rbCreate n) s = .next { s with st := 3 }) ∧
    (s.urb[n.toNat]? = some none → s.args[0].toInt ≤ 0 → exec (.rbCreate n) s = .next { s with st := 1 }) ∧
    (s.urb[n.toNat]? = some none → (s.params.userCapacityMax : Int) < s.args[0].toInt →
      exec (.rbCreate n) s = .next { s with st := 4 }) ∧
    (s.urb[n.toNat]? = some none → (0 : Int) < s.args[0].toInt → s.args[0].toInt ≤ (s.params.userCapacityMax : Int) →
      exec (.rbCreate n) s = .next { s with
        st := 0,
        urb := s.urb.set n.toNat (some
          { cap := s.args[0].toInt.toNat, rd := 0, wr := 0, store := List.replicate s.args[0].toInt.toNat 0 }) })

/-- R113: `RB.DESTROY s` always succeeds, and the slot then does not exist. -/
def Obligations.RbDestroy : Prop :=
  ∀ (n : BitVec 8) (s : State), n.toNat < s.params.userSlots →
    exec (.rbDestroy n) s = .next { s with st := 0, urb := s.urb.set n.toNat none }

/-- R111: on a slot that does not exist, every `RB.*` command but `RB.CREATE` and `RB.DESTROY` raises NotInitialized and changes
nothing else; on one that exists each ends with `ST <- 0`. -/
def Obligations.RbPreamble : Prop :=
  ∀ (n : BitVec 8) (s : State) (i : Instr), n.toNat < s.params.userSlots →
    i ∈ [.rbPut n, .rbPutn n, .rbGet n, .rbGetpi n, .rbGetn n, .rbSetrd n, .rbGetrd n, .rbSetwr n, .rbGetwr n] →
    (s.urb[n.toNat]? = some none → exec i s = .next { s with st := 2 }) ∧
    (∀ b, s.urb[n.toNat]? = some (some b) → ∃ t, exec i s = .next t ∧ t.st = 0)

/-- R114, R106, R117, R107: `RB.PUT` stores `A0` bit for bit at the write cursor and advances that cursor by one modulo the
capacity; `RB.GETPI` returns the word at the read cursor bit for bit and advances that cursor likewise. NotInitialized, and nothing
else, when the slot does not exist. -/
def Obligations.RbPutAndGetpi : Prop :=
  ∀ (n : BitVec 8) (s : State), n.toNat < s.params.userSlots →
    (s.urb[n.toNat]? = some none →
      exec (.rbPut n) s = .next { s with st := 2 } ∧ exec (.rbGetpi n) s = .next { s with st := 2 }) ∧
    (∀ b, s.urb[n.toNat]? = some (some b) →
      exec (.rbPut n) s = .next { s with
        st := 0,
        urb := s.urb.set n.toNat
          (some { b with store := b.store.set b.wr s.args[0], wr := (b.wr + 1) % b.cap }) } ∧
      (∀ v, b.store[b.rd]? = some v →
        exec (.rbGetpi n) s = .next { s with
          st := 0, res := v, urb := s.urb.set n.toNat (some { b with rd := (b.rd + 1) % b.cap }) }))

/-- R115: `RB.PUTN` puts the `n = uint(A1)` words from memory address `A0` on, one after another: the write cursor advances by `n`
modulo the capacity, each position among the last `C` written holds its word, every other position is unchanged. NotInitialized,
and nothing else, when the slot does not exist. -/
def Obligations.RbPutn : Prop :=
  ∀ (n : BitVec 8) (s : State), n.toNat < s.params.userSlots →
    (s.urb[n.toNat]? = some none → exec (.rbPutn n) s = .next { s with st := 2 }) ∧
    (∀ b, s.urb[n.toNat]? = some (some b) → bufferSound s.params.userCapacityMax b →
      ∃ b', exec (.rbPutn n) s = .next { s with st := 0, urb := s.urb.set n.toNat (some b') } ∧
        b'.cap = b.cap ∧ b'.rd = b.rd ∧ b'.wr = (b.wr + s.args[1].toNat) % b.cap ∧ b'.store.length = b.cap ∧
        (∀ k, k < s.args[1].toNat → s.args[1].toNat ≤ k + b.cap →
          b'.store[(b.wr + k) % b.cap]? = some (memRead s.params.addressWidth s.mem (s.args[0].toNat + k))) ∧
        (∀ p, (∀ k, k < s.args[1].toNat → (b.wr + k) % b.cap ≠ p) → b'.store[p]? = b.store[p]?))

/-- R118: `RB.GETN` writes the `n = uint(A1)` words from the read cursor on, round the store, to memory from address `A0` on, and
advances the read cursor by `n` modulo the capacity; every byte of memory outside those words is unchanged. (Where
more than 2^AW words are written, the last written to an address stays.) NotInitialized, and
nothing else, when the slot does not exist. -/
def Obligations.RbGetn : Prop :=
  ∀ (n : BitVec 8) (s : State), n.toNat < s.params.userSlots →
    (s.urb[n.toNat]? = some none → exec (.rbGetn n) s = .next { s with st := 2 }) ∧
    (∀ b, s.urb[n.toNat]? = some (some b) → bufferSound s.params.userCapacityMax b →
      ∃ m', exec (.rbGetn n) s = .next { s with
          st := 0, mem := m',
          urb := s.urb.set n.toNat (some { b with rd := (b.rd + s.args[1].toNat) % b.cap }) } ∧
        (∀ k, k < s.args[1].toNat → s.args[1].toNat ≤ k + 2 ^ s.params.addressWidth →
          some (memRead s.params.addressWidth m' (s.args[0].toNat + k)) = b.store[(b.rd + k) % b.cap]?) ∧
        (∀ x, (∀ k, k < s.args[1].toNat → x / 4 ≠ (s.args[0].toNat + k) % 2 ^ s.params.addressWidth) →
          readByte m' x = readByte s.mem x))

/-- R116: `RB.GET` writes the fractional read at offset `A0` to `RES` and changes nothing else but `ST`. NotInitialized, and nothing
else, when the slot does not exist. -/
def Obligations.RbGet : Prop :=
  ∀ (n : BitVec 8) (s : State), n.toNat < s.params.userSlots →
    (s.urb[n.toNat]? = some none → exec (.rbGet n) s = .next { s with st := 2 }) ∧
    (∀ b, s.urb[n.toNat]? = some (some b) → exec (.rbGet n) s = .next { s with st := 0, res := rbInterp b s.args[0] })

/-- R108: the fractional read. A NaN for an offset that is not finite; otherwise `(1 - frac)*a + frac*b` of the two neighbouring
elements, each operation rounded once, the indices wrapped by the Euclidean remainder. -/
def Obligations.FractionalRead : Prop :=
  ∀ (capMax : Nat) (b : RingBuffer) (x : Word), bufferSound capMax b →
    (isFinite x = false → isNaN (rbInterp b x) = true) ∧
    (isFinite x = true → ∃ lo hi : Word,
      b.store[(((b.rd : Int) + ifloor x) % (b.cap : Int)).toNat]? = some lo ∧
      b.store[((((b.rd : Int) + ifloor x) % (b.cap : Int)).toNat + 1) % b.cap]? = some hi ∧
      rbInterp b x = fadd (fmul (fsub 0x3F800000 (fsub x (i2f (ifloor x)))) lo) (fmul (fsub x (i2f (ifloor x))) hi))

/-- R119 to R122, R110: the setters store the signed index `A0` modulo the capacity in the read or the write cursor, the other one
unchanged; the getters return the cursor as an unsigned integer and change nothing else but `ST`. NotInitialized, and nothing else,
when the slot does not exist. -/
def Obligations.CursorCommands : Prop :=
  ∀ (n : BitVec 8) (s : State), n.toNat < s.params.userSlots →
    (s.urb[n.toNat]? = some none →
      exec (.rbSetrd n) s = .next { s with st := 2 } ∧ exec (.rbSetwr n) s = .next { s with st := 2 } ∧
      exec (.rbGetrd n) s = .next { s with st := 2 } ∧ exec (.rbGetwr n) s = .next { s with st := 2 }) ∧
    (∀ b, s.urb[n.toNat]? = some (some b) →
      exec (.rbSetrd n) s = .next { s with
        st := 0, urb := s.urb.set n.toNat (some { b with rd := (s.args[0].toInt % (b.cap : Int)).toNat }) } ∧
      exec (.rbSetwr n) s = .next { s with
        st := 0, urb := s.urb.set n.toNat (some { b with wr := (s.args[0].toInt % (b.cap : Int)).toNat }) } ∧
      exec (.rbGetrd n) s = .next { s with st := 0, res := BitVec.ofNat 32 b.rd } ∧
      exec (.rbGetwr n) s = .next { s with st := 0, res := BitVec.ofNat 32 b.wr })

/-- An instruction whose slot selector is not below the number of user slots is no command of this machine; `exec` gives it the
effect of an undefined word (R85). The model's choice for terms that no word decodes to (log 11). -/
def Obligations.SlotOutOfRange : Prop :=
  ∀ (n : BitVec 8) (s : State) (i : Instr), s.params.userSlots ≤ n.toNat →
    i ∈ [.rbCreate n, .rbDestroy n, .rbPut n, .rbPutn n, .rbGet n, .rbGetpi n, .rbGetn n, .rbSetrd n, .rbGetrd n, .rbSetwr n,
      .rbGetwr n] → exec i s = .next { s with st := 3 }

/-- R109 (a): the fraction of a fractional read lies in [0, 1]; for `x ≥ +0` it is exact and below 1. -/
def Obligations.FractionInUnitInterval : Prop :=
  ∀ x : Word, isFinite x = true →
    isFinite (fsub x (i2f (ifloor x))) = true ∧ 0 ≤ realUnits (fsub x (i2f (ifloor x))) ∧
    realUnits (fsub x (i2f (ifloor x))) ≤ (unitsPerOne : Int) ∧
    (fge x 0 = true → realUnits (fsub x (i2f (ifloor x))) = realUnits x - ifloor x * (unitsPerOne : Int) ∧
      realUnits (fsub x (i2f (ifloor x))) < (unitsPerOne : Int))

/-- R109 (b): the fractional read at `+0` or `-0`, `a` the element at the read cursor and `c` the next one: `a` bit for bit when it
is finite and not zero and `c` is finite; a zero when `a` is a zero and `c` finite; a NaN when `c` is not finite. -/
def Obligations.ReadAtZeroOffset : Prop :=
  ∀ (capMax : Nat) (b : RingBuffer) (x a c : Word), bufferSound capMax b → x = 0x00000000 ∨ x = 0x80000000 →
    b.store[b.rd]? = some a → b.store[(b.rd + 1) % b.cap]? = some c →
    (isFinite a = true → magnitude a ≠ 0 → isFinite c = true → rbInterp b x = a) ∧
    (isFinite a = true → magnitude a = 0 → isFinite c = true → magnitude (rbInterp b x) = 0 ∧ isFinite (rbInterp b x) = true) ∧
    (isFinite c = false → isNaN (rbInterp b x) = true)

/-- Interpolating a store of equal elements, whatever the finite offset: exactly 1.0 for a store of 1.0 (R109 (f)), and `+0` for a
store of zeros (R180 (g)). -/
def Obligations.ConstantInterpolation : Prop :=
  ∀ (capMax : Nat) (b : RingBuffer) (x : Word), bufferSound capMax b → isFinite x = true →
    ((∀ w, w ∈ b.store → w = 0x3F800000) → rbInterp b x = 0x3F800000) ∧
    ((∀ w, w ∈ b.store → w = 0x00000000) → rbInterp b x = 0x00000000)

/-! ### The LFO family -/

/-- R142, R141: `LFO.INIT w`. It fails, the LFO unchanged, on a waveform other than sine, a frequency that is not `≥ +0`, or a
sample rate that is not `> +0`; otherwise it sets every field. -/
def Obligations.LfoInit : Prop :=
  ∀ (w : BitVec 8) (s : State),
    (w ≠ 0 ∨ fge s.args[0] 0x00000000 = false ∨ fgt s.args[1] 0x00000000 = false →
      exec (.lfoInit w) s = .next { s with st := 1 }) ∧
    (w = 0 → fge s.args[0] 0x00000000 = true → fgt s.args[1] 0x00000000 = true →
      exec (.lfoInit w) s = .next { s with
        st := 0,
        ulfo := { ready := true, wave := 0, freq := s.args[0], fs := s.args[1],
                  inc := fmul (fdiv 0x45000000 s.args[1]) s.args[0], phase := 0x00000000 } })

/-- R145, R153: `LFO.SETFREQ`: NotInitialized, then InvalidArguments; otherwise the new frequency and increment, the phase kept. -/
def Obligations.LfoSetfreq : Prop :=
  ∀ s : State,
    (s.ulfo.ready = false → exec .lfoSetfreq s = .next { s with st := 2 }) ∧
    (s.ulfo.ready = true → fge s.args[0] 0x00000000 = false → exec .lfoSetfreq s = .next { s with st := 1 }) ∧
    (s.ulfo.ready = true → fge s.args[0] 0x00000000 = true →
      exec .lfoSetfreq s = .next { s with
        st := 0,
        ulfo := { s.ulfo with freq := s.args[0], inc := fmul (fdiv 0x45000000 s.ulfo.fs) s.args[0] } })

/-- R146: `LFO.GETFREQ`: the frequency bit for bit, or NotInitialized with the sentinel 2.0 in `RES`. -/
def Obligations.LfoGetfreq : Prop :=
  ∀ s : State,
    (s.ulfo.ready = false → exec .lfoGetfreq s = .next { s with st := 2, res := 0x40000000 }) ∧
    (s.ulfo.ready = true → exec .lfoGetfreq s = .next { s with st := 0, res := s.ulfo.freq })

/-- R148: `LfoNext` on a Ready LFO whose wrap loop subtracts 2048 just `k` times, `k` at most 2^24 + 1: `RES` is the sine table read
at the old phase, the phase is advanced by the increment and wrapped. Not Ready: NotInitialized, nothing else. (That no loop that
ends runs more often is `WrapLoopTermination`.) -/
def Obligations.LfoNext : Prop :=
  ∀ s : State,
    (s.ulfo.ready = false → exec .lfoNext s = .next { s with st := 2 }) ∧
    (∀ k, s.ulfo.ready = true → k ≤ 2 ^ 24 + 1 →
      (∀ i, i < k → fgt (wrapped i (fadd s.ulfo.phase s.ulfo.inc)) 0x44FFE000 = true) →
      fgt (wrapped k (fadd s.ulfo.phase s.ulfo.inc)) 0x44FFE000 = false →
      exec .lfoNext s = .next { s with
        st := 0,
        res := rbInterp { cap := 2048, rd := 0, wr := 0, store := (List.range 2048).map (sineEntry s.params.sine) } s.ulfo.phase,
        ulfo := { s.ulfo with phase := wrapped k (fadd s.ulfo.phase s.ulfo.inc) } })

/-- R149 (a), (b), (c), of `LFO.NEXT` on a Ready LFO with `p0 = fadd(phase, inc)`: for a finite `p0` of at most 2^35 the command
completes and the phase is `p0 - 2048k` exactly, `k` least such that it is at most 2047; for `p0 = 2^35 + 4096` the phase is `+0`;
for `p0 = +Inf` or a finite `p0` above that the CORE is stuck and neither `ST`, `RES` nor memory is written; for a NaN the loop
does not run. Stuck is a state of the model's (log 6). -/
def Obligations.WrapLoopTermination : Prop :=
  ∀ s : State, s.ulfo.ready = true →
    (isFinite (fadd s.ulfo.phase s.ulfo.inc) = true →
      realUnits (fadd s.ulfo.phase s.ulfo.inc) ≤ 2 ^ 35 * (unitsPerOne : Int) →
      ∃ (t : State) (k : Nat), exec .lfoNext s = .next t ∧ t.st = 0 ∧ t.stuck = s.stuck ∧ isFinite t.ulfo.phase = true ∧
        realUnits t.ulfo.phase = realUnits (fadd s.ulfo.phase s.ulfo.inc) - 2048 * k * (unitsPerOne : Int) ∧
        realUnits t.ulfo.phase ≤ 2047 * (unitsPerOne : Int) ∧ (0 < k → -(unitsPerOne : Int) < realUnits t.ulfo.phase)) ∧
    (isFinite (fadd s.ulfo.phase s.ulfo.inc) = true →
      realUnits (fadd s.ulfo.phase s.ulfo.inc) = (2 ^ 35 + 4096) * (unitsPerOne : Int) →
      ∃ t : State, exec .lfoNext s = .next t ∧ t.st = 0 ∧ t.stuck = s.stuck ∧ t.ulfo.phase = 0x00000000) ∧
    (fadd s.ulfo.phase s.ulfo.inc = 0x7F800000 ∨
      (isFinite (fadd s.ulfo.phase s.ulfo.inc) = true ∧
        (2 ^ 35 + 4096) * (unitsPerOne : Int) < realUnits (fadd s.ulfo.phase s.ulfo.inc)) →
      ∃ t : State, exec .lfoNext s = .next t ∧ t.stuck = true ∧ t.st = s.st ∧ t.res = s.res ∧ t.mem = s.mem ∧
        t.args = s.args) ∧
    (isNaN (fadd s.ulfo.phase s.ulfo.inc) = true →
      ∃ t : State, exec .lfoNext s = .next t ∧ t.st = 0 ∧ t.stuck = s.stuck ∧
        t.ulfo = { s.ulfo with phase := fadd s.ulfo.phase s.ulfo.inc })

/-- R151 (d): with an increment of exactly 1.0 the phase walks the table: at phase `n` the call returns `SINE[n]` bit for bit and
the phase becomes `(n + 1) mod 2048`. For every legal table, where the entry is not `-0`; no entry of the default table is
(`SineTableShape`). -/
def Obligations.UnitIncrementWalksTable : Prop :=
  ∀ (s : State) (n : Nat), paramsLegal s.params → n < 2048 → sineEntry s.params.sine n ≠ 0x80000000 →
    s.ulfo.ready = true → s.ulfo.inc = 0x3F800000 → s.ulfo.phase = i2f n →
    exec .lfoNext s = .next { s with
      st := 0, res := sineEntry s.params.sine n, ulfo := { s.ulfo with phase := i2f (((n + 1) % 2048 : Nat) : Int) } }

/-- R150: `LFO.BLOCK` on a Ready LFO none of whose `n = uint(A3)` steps is stuck, `L i` the LFO before frame `i` and `v i` the value
that `LfoNext` gives there: the LFO is advanced once in each frame; element `[j][i]` is written with `v i`, for each channel
`j < uint(A2)`, and holds it unless a later element falls on the same word; every other byte of memory is unchanged. Not Ready:
NotInitialized, nothing else. -/
def Obligations.LfoBlock : Prop :=
  ∀ (s : State) (L : Nat → Lfo) (v : Nat → Word),
    (s.ulfo.ready = false → exec .lfoBlock s = .next { s with st := 2 }) ∧
    (s.ulfo.ready = true → L 0 = s.ulfo →
      (∀ i, i < s.args[3].toNat → lfoNext s.params.sine (L i) = some (v i, L (i + 1))) →
      ∃ m', exec .lfoBlock s = .next { s with st := 0, ulfo := L s.args[3].toNat, mem := m' } ∧
        (∀ i j, i < s.args[3].toNat → j < s.args[2].toNat →
          (∀ i' j', i' < s.args[3].toNat → j' < s.args[2].toNat → i < i' ∨ (i = i' ∧ j < j') →
            (s.args[0].toNat + j' * s.args[1].toNat + i') % 2 ^ s.params.addressWidth ≠
              (s.args[0].toNat + j * s.args[1].toNat + i) % 2 ^ s.params.addressWidth) →
          memRead s.params.addressWidth m' (s.args[0].toNat + j * s.args[1].toNat + i) = v i) ∧
        (∀ x, (∀ i j, i < s.args[3].toNat → j < s.args[2].toNat →
            x / 4 ≠ (s.args[0].toNat + j * s.args[1].toNat + i) % 2 ^ s.params.addressWidth) →
          readByte m' x = readByte s.mem x))

/-- R240, R207: `LFO.BLOCK` whose frame `f < uint(A3)` has a wrap loop that never ends leaves the CORE stuck: `ST`, `RES` and the
arguments as they were, and no byte of memory changed outside the frames before `f`. Stuck is a state of the model's (log 6). -/
def Obligations.LfoBlockStuck : Prop :=
  ∀ (s : State) (L : Nat → Lfo) (v : Nat → Word) (f : Nat), s.ulfo.ready = true → L 0 = s.ulfo → f < s.args[3].toNat →
    (∀ i, i < f → lfoNext s.params.sine (L i) = some (v i, L (i + 1))) → lfoNext s.params.sine (L f) = none →
    ∃ t, exec .lfoBlock s = .next t ∧ t.stuck = true ∧ t.st = s.st ∧ t.res = s.res ∧ t.args = s.args ∧
      (∀ x, (∀ i j, i < f → j < s.args[2].toNat →
          x / 4 ≠ (s.args[0].toNat + j * s.args[1].toNat + i) % 2 ^ s.params.addressWidth) →
        readByte t.mem x = readByte s.mem x)

/-! ### The vibrato engine -/

/-- R171: `VIB.INIT` with `fs = A0`, `nch = sint(A1)`, `fm = A2`, `amp = A3`: InvalidArguments, then UnknownError, and otherwise the
whole engine set. `itrunc` of the delay product is the base delay of R172; the delay lines are those of R173. -/
def Obligations.VibInit : Prop :=
  ∀ s : State,
    (fgt s.args[0] 0 = false ∨ s.args[1].toInt ≤ 0 ∨ fge s.args[2] 0 = false ∨
        fle s.args[2] (fdiv s.args[0] 0x40800000) = false ∨ fge s.args[3] 0 = false ∨ fle s.args[3] 0x3F800000 = false →
      exec .vibInit s = .next { s with st := 1 }) ∧
    (fgt s.args[0] 0 = true → (0 : Int) < s.args[1].toInt → fge s.args[2] 0 = true →
      fle s.args[2] (fdiv s.args[0] 0x40800000) = true → fge s.args[3] 0 = true → fle s.args[3] 0x3F800000 = true →
      ((s.params.channelsMax : Int) < s.args[1].toInt ∨ isFinite (fmul 0x399D4952 s.args[0]) = false ∨
          (s.params.delayLineMax : Int) < (2 : Int) * itrunc (fmul 0x399D4952 s.args[0]) + 1 →
        exec .vibInit s = .next { s with st := 4 }) ∧
      (∀ D : Nat, s.args[1].toInt ≤ (s.params.channelsMax : Int) → isFinite (fmul 0x399D4952 s.args[0]) = true →
        itrunc (fmul 0x399D4952 s.args[0]) = D → 2 * D + 1 ≤ s.params.delayLineMax →
        exec .vibInit s = .next { s with
          st := 0,
          vib := { ready := true, fs := s.args[0], nch := s.args[1].toInt.toNat, modFreq := s.args[2], amp := s.args[3],
                   ampMin := 0, ampMax := 0x3F800000, freqMin := 0, freqMax := fdiv s.args[0] 0x40800000, delay := D,
                   dl := (List.range s.params.channelsMax).map fun j =>
                     if (j : Int) < s.args[1].toInt then
                       some { cap := 2 * D + 1, rd := 0, wr := D, store := List.replicate (2 * D + 1) 0 }
                     else none,
                   lfo := { ready := true, wave := 0, freq := s.args[2], fs := s.args[0],
                            inc := fmul (fdiv 0x45000000 s.args[0]) s.args[2], phase := 0 } } }))

/-- R172: the base delay is the truncated product of `K_DELAY` and the sample rate, one binary32 multiplication; and the table of
its eleven sample rates. -/
def Obligations.BaseDelay : Prop :=
  (∀ fs : Word, delayProduct fs = fmul 0x399D4952 fs) ∧
  (∀ fs : Word, fgt fs 0 = true → isFinite (delayProduct fs) = true → (delayInSamples fs : Int) = itrunc (delayProduct fs)) ∧
  [0x447A0000, 0x45505000, 0x45506000, 0x45FA0000, 0x461C4000, 0x467A0000, 0x46AC4400, 0x472C4400, 0x473B8000, 0x47BB8000,
    0x483B8000].map (fun fs => (delayProduct fs, delayInSamples fs)) =
  [(0x3E99999A, 0), (0x3F7FF973, 0), (0x3F80068E, 1), (0x4019999A, 2), (0x40400001, 3), (0x4099999A, 4), (0x40D3AE15, 6),
    (0x4153AE15, 13), (0x41666667, 14), (0x41E66667, 28), (0x42666667, 57)]

/-- R143, R144, R174: `LFO.RESET` and `VIB.RESET` always succeed, and the unit is then in its state after hardware reset, every
field zero. -/
def Obligations.UnitResets : Prop :=
  ∀ s : State,
    exec .lfoReset s = .next { s with
      st := 0, ulfo := { ready := false, wave := 0, freq := 0, fs := 0, inc := 0, phase := 0 } } ∧
    exec .vibReset s = .next { s with
      st := 0,
      vib := { ready := false, fs := 0, nch := 0, modFreq := 0, amp := 0, ampMin := 0, ampMax := 0, freqMin := 0, freqMax := 0,
               delay := 0, dl := List.replicate s.params.channelsMax none,
               lfo := { ready := false, wave := 0, freq := 0, fs := 0, inc := 0, phase := 0 } } }

/-- R176: `VIB.SETPARAM p`: NotInitialized, IllegalCall, InvalidArguments in this order; otherwise amplitude or modulation frequency
set, the latter with the LFO's frequency and increment, its phase kept. -/
def Obligations.VibSetparam : Prop :=
  ∀ (p : BitVec 8) (s : State), vibSound s.params s.vib →
    (s.vib.ready = false → exec (.vibSetparam p) s = .next { s with st := 2 }) ∧
    (s.vib.ready = true → 1 < p.toNat → exec (.vibSetparam p) s = .next { s with st := 3 }) ∧
    (s.vib.ready = true → p = 0 → (fge s.args[0] s.vib.ampMin = false ∨ fle s.args[0] s.vib.ampMax = false) →
      exec (.vibSetparam p) s = .next { s with st := 1 }) ∧
    (s.vib.ready = true → p = 0 → fge s.args[0] s.vib.ampMin = true → fle s.args[0] s.vib.ampMax = true →
      exec (.vibSetparam p) s = .next { s with st := 0, vib := { s.vib with amp := s.args[0] } }) ∧
    (s.vib.ready = true → p = 1 → (fge s.args[0] s.vib.freqMin = false ∨ fle s.args[0] s.vib.freqMax = false) →
      exec (.vibSetparam p) s = .next { s with st := 1 }) ∧
    (s.vib.ready = true → p = 1 → fge s.args[0] s.vib.freqMin = true → fle s.args[0] s.vib.freqMax = true →
      exec (.vibSetparam p) s = .next { s with
        st := 0,
        vib := { s.vib with
          modFreq := s.args[0],
          lfo := { s.vib.lfo with
            freq := s.args[0], inc := fmul (fdiv 0x45000000 s.vib.lfo.fs) s.args[0] } } })

/-- R178: `VIB.GETPARAM p`: the parameter bit for bit, or a failure with its code also in `RES` as a float. -/
def Obligations.VibGetparam : Prop :=
  ∀ (p : BitVec 8) (s : State),
    (s.vib.ready = false → exec (.vibGetparam p) s = .next { s with st := 2, res := 0x40000000 }) ∧
    (s.vib.ready = true → 1 < p.toNat → exec (.vibGetparam p) s = .next { s with st := 3, res := 0x40400000 }) ∧
    (s.vib.ready = true → p = 0 → exec (.vibGetparam p) s = .next { s with st := 0, res := s.vib.amp }) ∧
    (s.vib.ready = true → p = 1 → exec (.vibGetparam p) s = .next { s with st := 0, res := s.vib.modFreq })

/-- R177 by `VIB.PROCESS` of one frame (`A3 = 1`), with R68 and R71: the LFO is advanced once; channel by channel, `M j` the memory
before channel `j`, the input word `x j` is read, put into the delay line, the output `y j` is the fractional read at the offset
`(s * amp) * D`, it is written, and the read cursor advances. So an input word is the one in memory before the command where no lower
channel's output falls on it, and otherwise the output of the highest lower channel whose output does; an output word stays where
no higher channel's output falls on it; and every other byte of memory is unchanged. -/
def Obligations.VibProcessOneFrame : Prop :=
  ∀ (s : State) (sample : Word) (l : Lfo),
    s.vib.ready = true → vibSound s.params s.vib → s.args[3] = 1 → lfoNext s.params.sine s.vib.lfo = some (sample, l) →
    ∃ (M : Nat → Memory) (dl' : List (Option RingBuffer)) (x y : Nat → Word),
      exec .vibProcess s = .next { s with st := 0, mem := M s.vib.nch, vib := { s.vib with lfo := l, dl := dl' } } ∧
      M 0 = s.mem ∧ dl'.length = s.vib.dl.length ∧ (∀ j : Nat, s.vib.nch ≤ j → dl'[j]? = s.vib.dl[j]?) ∧
      (∀ (j : Nat) (b : RingBuffer), j < s.vib.nch → s.vib.dl[j]? = some (some b) →
        x j = memRead s.params.addressWidth (M j) (s.args[0].toNat + j * s.args[2].toNat) ∧
        y j = rbInterp { b with store := b.store.set b.wr (x j) } (fmul (fmul sample s.vib.amp) (i2f s.vib.delay)) ∧
        M (j + 1) = memWrite s.params.addressWidth (M j) (s.args[1].toNat + j * s.args[2].toNat) (y j) ∧
        dl'[j]? = some (some
          { b with store := b.store.set b.wr (x j), wr := (b.wr + 1) % b.cap, rd := (b.rd + 1) % b.cap })) ∧
      (∀ j, j < s.vib.nch →
        (∀ j', j' < j → (s.args[1].toNat + j' * s.args[2].toNat) % 2 ^ s.params.addressWidth ≠
          (s.args[0].toNat + j * s.args[2].toNat) % 2 ^ s.params.addressWidth) →
        x j = memRead s.params.addressWidth s.mem (s.args[0].toNat + j * s.args[2].toNat)) ∧
      (∀ j j', j < s.vib.nch → j' < j →
        (s.args[1].toNat + j' * s.args[2].toNat) % 2 ^ s.params.addressWidth =
          (s.args[0].toNat + j * s.args[2].toNat) % 2 ^ s.params.addressWidth →
        (∀ h, j' < h → h < j → (s.args[1].toNat + h * s.args[2].toNat) % 2 ^ s.params.addressWidth ≠
          (s.args[0].toNat + j * s.args[2].toNat) % 2 ^ s.params.addressWidth) →
        x j = y j') ∧
      (∀ j, j < s.vib.nch →
        (∀ j', j < j' → j' < s.vib.nch → (s.args[1].toNat + j' * s.args[2].toNat) % 2 ^ s.params.addressWidth ≠
          (s.args[1].toNat + j * s.args[2].toNat) % 2 ^ s.params.addressWidth) →
        memRead s.params.addressWidth (M s.vib.nch) (s.args[1].toNat + j * s.args[2].toNat) = y j) ∧
      (∀ a, (∀ j, j < s.vib.nch → a / 4 ≠ (s.args[1].toNat + j * s.args[2].toNat) % 2 ^ s.params.addressWidth) →
        readByte (M s.vib.nch) a = readByte s.mem a)

/-- R179: `VIB.PROCESS` of no frames does nothing but `ST <- NoError`; on an engine that is not Ready it raises NotInitialized and
accesses no memory; and when the wrap loop of its first frame never ends the CORE is stuck, memory and `ST` as they were.
That the engine too is as it was while stuck is the model's choice (log 6). -/
def Obligations.VibProcessEdges : Prop :=
  ∀ s : State,
    (s.vib.ready = false → exec .vibProcess s = .next { s with st := 2 }) ∧
    (s.vib.ready = true → s.args[3] = 0 → exec .vibProcess s = .next { s with st := 0 }) ∧
    (s.vib.ready = true → s.args[3] ≠ 0 → lfoNext s.params.sine s.vib.lfo = none →
      exec .vibProcess s = .next { s with stuck := true })

/-- R180 (f): block-size independence. A `VIB.PROCESS` of `n1` frames that is not stuck, followed by one of `n2` frames on the
continuation of the data, leaves the engine, the memory and the port as one `VIB.PROCESS` of `n1 + n2` frames does, and `ST` too
where the second is not stuck either. Bit for bit, so it rests for a produced NaN on log 2, for unwritten words on log 4, and for what
the engine holds where the second is stuck on log 6. -/
def Obligations.BlockSizeIndependence : Prop :=
  ∀ (s t1 t2 t3 : State) (inp out stride : Word) (n1 n2 : Nat), n1 + n2 < 2 ^ 32 → s.params.addressWidth ≤ 32 →
    exec .vibProcess { s with args := #v[inp, out, stride, BitVec.ofNat 32 n1] } = .next t1 → t1.stuck = false →
    exec .vibProcess { t1 with args := #v[inp + BitVec.ofNat 32 n1, out + BitVec.ofNat 32 n1, stride, BitVec.ofNat 32 n2] } =
      .next t2 →
    exec .vibProcess { s with args := #v[inp, out, stride, BitVec.ofNat 32 (n1 + n2)] } = .next t3 →
    t3.vib = t2.vib ∧ t3.mem = t2.mem ∧ t3.stuck = t2.stuck ∧ t3.res = t2.res ∧ (t2.stuck = false → t3.st = t2.st)

/-- R180 (g): for a sample rate at which `fdiv(2048.0, fs)` is finite, the stuck hazard cannot arise in the vibrato engine:
`VIB.PROCESS` of any number of frames completes with NoError. -/
def Obligations.VibProcessNeverStuck : Prop :=
  ∀ s : State, s.vib.ready = true → vibSound s.params s.vib → isFinite (fdiv 0x45000000 s.vib.fs) = true →
    ∃ t, exec .vibProcess s = .next t ∧ t.st = 0 ∧ t.stuck = s.stuck ∧ t.args = s.args ∧ t.res = s.res ∧ t.urb = s.urb ∧
      t.ulfo = s.ulfo

/-! ### The whole machine -/

/-- R24, R218: `RB.*` commands reach only their own slot, `LFO.*` commands only `ULFO`, `VIB.*` commands only `VIB`. -/
def Obligations.UnitsAreSeparate : Prop :=
  ∀ (i : Instr) (s t : State), exec i s = .next t →
    (isRingBufferCommand i = true → t.ulfo = s.ulfo ∧ t.vib = s.vib) ∧
    (isLfoCommand i = true → t.urb = s.urb ∧ t.vib = s.vib) ∧
    (isVibCommand i = true → t.urb = s.urb ∧ t.ulfo = s.ulfo) ∧
    (∀ n m, n ≠ m → i ∈ [.rbCreate n, .rbDestroy n, .rbPut n, .rbPutn n, .rbGet n, .rbGetpi n, .rbGetn n, .rbSetrd n, .rbGetrd n,
      .rbSetwr n, .rbGetwr n] → slot m t = slot m s)

/-- R21, R60: no command changes an argument register, and only `RB.GETN`, `LFO.BLOCK` and `VIB.PROCESS` can change the sample
memory. -/
def Obligations.CommandsKeepArgumentsAndMemory : Prop :=
  ∀ (i : Instr) (s t : State), isCommand i = true → exec i s = .next t →
    t.args = s.args ∧ t.pending = s.pending ∧ t.rdata = s.rdata ∧ t.params = s.params ∧
    ((∀ n, i ≠ .rbGetn n) → i ≠ .lfoBlock → i ≠ .vibProcess → t.mem = s.mem)

/-- R203: a command that ends with a failure code has changed nothing but `ST`; `LFO.GETFREQ` and `VIB.GETPARAM` have also written
the sentinel to `RES`. -/
def Obligations.FailureIsPrecise : Prop :=
  ∀ (i : Instr) (s t : State), isCommand i = true → exec i s = .next t → t.stuck = false → t.st ≠ 0 →
    t = { s with st := t.st, res := t.res } ∧ (i ≠ .lfoGetfreq → (∀ p, i ≠ .vibGetparam p) → t.res = s.res)

/-- R26: the capacity of a user ring buffer never changes while it exists: across any step, a slot that exists before and after
has the same capacity. -/
def Obligations.CapacityIsImmutable : Prop :=
  ∀ (s t : State) (n : BitVec 8) (b b' : RingBuffer), step s = .next t → slot n s = some b → slot n t = some b' → b'.cap = b.cap

/-- R33: the vibrato engine is private. A command of another unit does the same whatever the engine holds, and leaves it so. The two
runs agree bit for bit: for a produced NaN that rests on log 2, for unwritten words on log 4. -/
def Obligations.EngineIsPrivate : Prop :=
  ∀ (i : Instr) (s t : State) (v : Vib), isCommand i = true → isVibCommand i = false → exec i s = .next t →
    exec i { s with vib := v } = .next { t with vib := v }

/-- R22, R200: a command that completes writes one of the five status codes, whatever `ST` held before; so `ST` holds one of them
after every step, if it does before. -/
def Obligations.StatusIsACode : Prop :=
  (∀ (i : Instr) (s t : State), isCommand i = true → exec i s = .next t → t.stuck = false → t.st.toNat ≤ 4) ∧
  (∀ s t : State, statusSound s → step s = .next t → statusSound t)

/-- The memory keeps its canonical form in every step, and the parameters of the machine never change (R7, log 1). That a host write
to an address not below 2^AW stays inside the memory, taken modulo 2^AW, is the model's choice (log 18). -/
def Obligations.StepKeepsMemoryForm : Prop :=
  ∀ s t : State, Memory.wf s.params.addressWidth s.mem = true → step s = .next t →
    t.params = s.params ∧ Memory.wf t.params.addressWidth t.mem = true

/-- R26: the ring-buffer invariants of the user slots hold after every step, if they do before. -/
def Obligations.StepKeepsUserBuffers : Prop :=
  ∀ s t : State, userBuffersSound s → step s = .next t → userBuffersSound t

/-- R29: the invariants of the user LFO hold after every step, if they do before; its phase is a NaN or in (-1, 2047]. -/
def Obligations.StepKeepsLfo : Prop :=
  ∀ s t : State, lfoSound s.ulfo → step s = .next t → lfoSound t.ulfo

/-- R32: the invariants of the vibrato engine hold after every step, if they do before. -/
def Obligations.StepKeepsVib : Prop :=
  ∀ s t : State, vibSound s.params s.vib → step s = .next t → vibSound t.params t.vib

/-- The state after reset meets every invariant, whatever the parameters; the parameters of `State.reset` are the defaults of R7
(log 1), and legal. -/
def Obligations.ResetMeetsInvariants : Prop :=
  (∀ p : Params, statusSound (State.resetWith p) ∧ Memory.wf p.addressWidth (State.resetWith p).mem = true ∧
    userBuffersSound (State.resetWith p) ∧ lfoSound (State.resetWith p).ulfo ∧ vibSound p (State.resetWith p).vib) ∧
  State.reset = State.resetWith State.reset.params ∧
  State.reset.params = { addressWidth := 32, userSlots := 2, userCapacityMax := 65536, channelsMax := 8, delayLineMax := 1025,
                         sine := .standard } ∧
  paramsLegal State.reset.params

/-! ### Memory, arithmetic and the sine table -/

/-- R62: after `MemWrite` of a word, byte `4a + k` of the platform's view holds bits `8k+7:8k` of it. -/
def Obligations.WordsAreLittleEndian : Prop :=
  ∀ (aw : Nat) (m : Memory) (a : Nat) (v : Word) (k : Nat), k < 4 →
    readByte (memWrite aw m a v) (4 * (a % 2 ^ aw) + k) = v.extractLsb' (8 * k) 8

/-- R15, of the sum and the difference of finite values: finite exactly when the exact value is below the overflow threshold, and
then a binary32 value nearest to it, in a tie the one with even fraction; otherwise the infinity of its sign; an exact zero is `+0`,
but `-0` where both addends are `-0`. And an infinity with a finite value, or with one of its own sign in a sum or of the other in a
difference, is that infinity. -/
def Obligations.SumsCorrectlyRounded : Prop :=
  (∀ a b : Word, isFinite a = true → isFinite b = true →
    (isFinite (fadd a b) = true ↔ |realUnits a + realUnits b| < overflowUnits) ∧
    (isFinite (fadd a b) = true → nearestEven (fadd a b) 1 (realUnits a + realUnits b)) ∧
    (overflowUnits ≤ realUnits a + realUnits b → fadd a b = 0x7F800000) ∧
    (realUnits a + realUnits b ≤ -overflowUnits → fadd a b = 0xFF800000) ∧
    (realUnits a + realUnits b = 0 → fadd a b = if signBit a && signBit b then 0x80000000 else 0x00000000) ∧
    (isFinite (fsub a b) = true ↔ |realUnits a - realUnits b| < overflowUnits) ∧
    (isFinite (fsub a b) = true → nearestEven (fsub a b) 1 (realUnits a - realUnits b)) ∧
    (overflowUnits ≤ realUnits a - realUnits b → fsub a b = 0x7F800000) ∧
    (realUnits a - realUnits b ≤ -overflowUnits → fsub a b = 0xFF800000) ∧
    (realUnits a - realUnits b = 0 → fsub a b = if signBit a && !signBit b then 0x80000000 else 0x00000000)) ∧
  (∀ a b : Word, isInf a = true →
    (isFinite b = true → fadd a b = a ∧ fadd b a = a ∧ fsub a b = a ∧ fsub b a = negate a) ∧
    (isInf b = true → signBit a = signBit b → fadd a b = a) ∧ (isInf b = true → signBit a ≠ signBit b → fsub a b = a))

/-- R15, of the product and the quotient of finite values: the sign is negative exactly when the signs differ, also of a zero; finite
exactly when the exact value is below the overflow threshold, and then a binary32 value nearest to it, in a tie the one with even
fraction; otherwise an infinity, as is a non-zero value divided by zero. And with an infinity: a product with anything but a zero
and a quotient of an infinity by a finite value are infinities, a finite value divided by an infinity is a zero. -/
def Obligations.ProductsCorrectlyRounded : Prop :=
  (∀ a b : Word, isFinite a = true → isFinite b = true →
    signBit (fmul a b) = (signBit a != signBit b) ∧
    (isFinite (fmul a b) = true ↔ |realUnits a * realUnits b| < overflowUnits * (unitsPerOne : Int)) ∧
    (isFinite (fmul a b) = true → nearestEven (fmul a b) (unitsPerOne : Int) (realUnits a * realUnits b)) ∧
    (isFinite (fmul a b) = false → isInf (fmul a b) = true) ∧
    (realUnits b ≠ 0 →
      signBit (fdiv a b) = (signBit a != signBit b) ∧
      (isFinite (fdiv a b) = true ↔ |realUnits a| * (unitsPerOne : Int) < overflowUnits * |realUnits b|) ∧
      (isFinite (fdiv a b) = true → nearestEven (fdiv a b) (realUnits b) (realUnits a * (unitsPerOne : Int))) ∧
      (isFinite (fdiv a b) = false → isInf (fdiv a b) = true)) ∧
    (realUnits b = 0 → realUnits a ≠ 0 → fdiv a b = if signBit a = signBit b then 0x7F800000 else 0xFF800000)) ∧
  (∀ a b : Word, isInf a = true →
    (isInf b = true ∨ (isFinite b = true ∧ magnitude b ≠ 0) →
      fmul a b = (if signBit a = signBit b then 0x7F800000 else 0xFF800000) ∧
      fmul b a = (if signBit a = signBit b then 0x7F800000 else 0xFF800000)) ∧
    (isFinite b = true →
      fdiv a b = (if signBit a = signBit b then 0x7F800000 else 0xFF800000) ∧
      fdiv b a = (if signBit a = signBit b then 0x00000000 else 0x80000000)))

/-- R15: the comparisons of finite values are those of their real values, so that `-0` and `+0` are equal, and every comparison
with a NaN is false. -/
def Obligations.ComparisonsAreReal : Prop :=
  ∀ a b : Word,
    (isFinite a = true → isFinite b = true →
      (flt a b = true ↔ realUnits a < realUnits b) ∧ (fle a b = true ↔ realUnits a ≤ realUnits b) ∧
      (fgt a b = true ↔ realUnits b < realUnits a) ∧ (fge a b = true ↔ realUnits b ≤ realUnits a)) ∧
    (isNaN a = true ∨ isNaN b = true → flt a b = false ∧ fle a b = false ∧ fgt a b = false ∧ fge a b = false)

/-- R15: every invalid operation gives a NaN, whatever the free value. -/
def Obligations.InvalidOperationsGiveNaN : Prop :=
  ∀ a b : Word,
    (isNaN a = true ∨ isNaN b = true →
      isNaN (fadd a b) = true ∧ isNaN (fsub a b) = true ∧ isNaN (fmul a b) = true ∧ isNaN (fdiv a b) = true) ∧
    (isInf a = true → isInf b = true → signBit a ≠ signBit b → isNaN (fadd a b) = true) ∧
    (isInf a = true → isInf b = true → signBit a = signBit b → isNaN (fsub a b) = true) ∧
    (isInf a = true → isFinite b = true → magnitude b = 0 → isNaN (fmul a b) = true ∧ isNaN (fmul b a) = true) ∧
    (isFinite a = true → magnitude a = 0 → isFinite b = true → magnitude b = 0 → isNaN (fdiv a b) = true) ∧
    (isInf a = true → isInf b = true → isNaN (fdiv a b) = true)

/-- R36, of the default table: the XOR and the sum of its first 513 words and of all 2048, single entries, the symmetries of its
quarters, and that no entry is `-0`, only entry 512 is 1.0 and only entry 1536 is -1.0. -/
def Obligations.SineTableShape : Prop :=
  (List.range 513).foldl (fun x i => x ^^^ sine i) 0 = 0x00CE6AB5 ∧
  (List.range 513).foldl (fun x i => x + sine i) 0 = 0xF628F63B ∧
  (List.range 2048).foldl (fun x i => x ^^^ sine i) 0 = 0x80000000 ∧
  (List.range 2048).foldl (fun x i => x + sine i) 0 = 0xD9A3D8EC ∧
  sine 0 = 0x00000000 ∧ sine 1 = 0x3B490FC6 ∧ sine 256 = 0x3F3504F3 ∧ sine 512 = 0x3F800000 ∧ sine 1024 = 0x00000000 ∧
  sine 1536 = 0xBF800000 ∧
  (∀ i, 0 < i → i < 1024 → sine (1024 - i) = sine i ∧ sine (1024 + i) = negate (sine i)) ∧
  (∀ i, i < 2048 → sineEntry .standard i = sine i ∧ sine i ≠ 0x80000000 ∧ (sine i = 0x3F800000 → i = 512) ∧
    (sine i = 0xBF800000 → i = 1536))
end

