-- ==== Sys2Proof/Laws/Binary32.lean ====
section
/-! SUPPORT. The laws of the binary32 operations: the fields of a value, a produced NaN is a quiet NaN, and rounding gives back
a value that is exactly representable. -/

namespace Sys2Proof.Machine

/-- A word's number is its sign, exponent and fraction fields put together (R14). -/
theorem toNat_fields (x : Word) :
    x.toNat = (if signBit x then 2 ^ 31 else 0) + (exponentField x * 2 ^ 23 + fractionField x) := by
  have hx := x.isLt
  simp only [signBit, exponentField, fractionField, BitVec.extractLsb'_toNat, BitVec.msb_eq_decide, Nat.shiftRight_eq_div_pow,
    decide_eq_true_eq]
  split_ifs <;> omega

theorem exponentField_lt (x : Word) : exponentField x < 256 := (x.extractLsb' 23 8).isLt

theorem fractionField_lt (x : Word) : fractionField x < 2 ^ 23 := (x.extractLsb' 0 23).isLt

/-- Every bit of the word with the other sign. -/
theorem getLsbD_negate (x : Word) (i : Nat) : (negate x).getLsbD i = if i = 31 then !x.getLsbD i else x.getLsbD i := by
  unfold negate
  rw [BitVec.getLsbD_xor, show (0x80000000 : Word) = BitVec.twoPow 32 31 by decide, BitVec.getLsbD_twoPow]
  by_cases h : i = 31
  · simp [h]
  · simp [h, show ¬ 31 = i by omega]

/-- Changing the sign changes the sign and nothing else. -/
@[simp] theorem signBit_negate (x : Word) : signBit (negate x) = !signBit x := by
  rw [signBit, signBit, BitVec.msb_eq_getLsbD_last, BitVec.msb_eq_getLsbD_last, getLsbD_negate]
  simp

@[simp] theorem exponentField_negate (x : Word) : exponentField (negate x) = exponentField x := by
  unfold exponentField
  congr 1
  apply BitVec.eq_of_getLsbD_eq
  intro i hi
  simp [getLsbD_negate, hi, show 23 + i ≠ 31 by omega]

@[simp] theorem fractionField_negate (x : Word) : fractionField (negate x) = fractionField x := by
  unfold fractionField
  congr 1
  apply BitVec.eq_of_getLsbD_eq
  intro i hi
  simp [getLsbD_negate, hi, show i ≠ 31 by omega]

@[simp] theorem negate_negate (x : Word) : negate (negate x) = x := by simp [negate]

@[simp] theorem magnitude_negate (x : Word) : magnitude (negate x) = magnitude x := by simp [magnitude]

@[simp] theorem isNaN_negate (x : Word) : isNaN (negate x) = isNaN x := by simp [isNaN]

@[simp] theorem isInf_negate (x : Word) : isInf (negate x) = isInf x := by simp [isInf]

@[simp] theorem isFinite_negate (x : Word) : isFinite (negate x) = isFinite x := by simp [isFinite]

theorem realUnits_negate (x : Word) : realUnits (negate x) = -realUnits x := by
  unfold realUnits
  cases h : signBit x <;> simp [h]

/-- The bits a produced NaN has whatever the free value: exponent all ones and the quiet bit set (R15, log 3). -/
theorem getLsbD_nanResult (op : FloatOp) (a b : Word) (i : Nat) (h1 : 22 ≤ i) (h2 : i < 31) :
    (nanResult op a b).getLsbD i = true := by
  unfold nanResult
  have : (0x7FC00000 : Word).getLsbD i = true := by interval_cases i <;> decide
  rw [BitVec.getLsbD_or, this, Bool.or_true]

/-- A produced NaN is a NaN, whatever the free value (R15). -/
theorem isNaN_nanResult (op : FloatOp) (a b : Word) : isNaN (nanResult op a b) = true := by
  have h1 : exponentField (nanResult op a b) = 255 := by
    have h : (nanResult op a b).extractLsb' 23 8 = BitVec.allOnes 8 := by
      apply BitVec.eq_of_getLsbD_eq
      intro i hi
      rw [BitVec.getLsbD_extractLsb', getLsbD_nanResult op a b (23 + i) (by omega) (by omega), BitVec.getLsbD_allOnes]
      simp
    unfold exponentField
    rw [h]; rfl
  have h2 : fractionField (nanResult op a b) ≠ 0 := by
    intro h0
    have hz : (nanResult op a b).extractLsb' 0 23 = 0#23 := BitVec.eq_of_toNat_eq (by simpa [fractionField] using h0)
    have hb : ((nanResult op a b).extractLsb' 0 23).getLsbD 22 = true := by
      rw [BitVec.getLsbD_extractLsb', getLsbD_nanResult op a b (0 + 22) (by omega) (by omega)]
      rfl
    rw [hz] at hb
    simp at hb
  unfold isNaN
  rw [h1]
  simp [h2]

/-- A NaN is no finite value. -/
theorem isFinite_of_isNaN {x : Word} (h : isNaN x = true) : isFinite x = false := by
  simp_all [isNaN, isFinite]

/-- Rounding an integer that needs no rounding. -/
theorem roundHalfEven_exact (n d : Nat) (hd : 0 < d) : roundHalfEven (n * d) d = n := by
  simp [roundHalfEven, Nat.mul_div_cancel n hd, hd]

/-- The magnitude of a finite value, rounded, is the value's own bits 30:0: rounding gives back what is representable. -/
theorem roundMagnitude_magnitude (x : Word) (h : isFinite x = true) (den : Nat) (hd : 0 < den) :
    roundMagnitude (magnitude x * den) den = exponentField x * 2 ^ 23 + fractionField x := by
  have hf := fractionField_lt x
  have he := exponentField_lt x
  have he' : exponentField x ≠ 255 := by simpa [isFinite] using h
  unfold roundMagnitude
  simp only [Nat.mul_div_cancel _ hd]
  by_cases h0 : exponentField x = 0
  · have hm : magnitude x = fractionField x := by simp [magnitude, h0]
    have hlog : Nat.log2 (fractionField x) - 23 = 0 := by
      by_cases hz : fractionField x = 0
      · simp [hz]
      · have := (Nat.log2_lt hz).2 hf; omega
    rw [hm, hlog, h0]
    simp only [pow_zero, mul_one, zero_mul, zero_add, roundHalfEven_exact _ _ hd]
    omega
  · obtain ⟨e, rfl'⟩ : ∃ e, exponentField x = e + 1 := ⟨exponentField x - 1, by omega⟩
    have hm : magnitude x = (2 ^ 23 + fractionField x) * 2 ^ e := by simp [magnitude, rfl']
    have hlog : Nat.log2 ((2 ^ 23 + fractionField x) * 2 ^ e) = 23 + e := by
      rw [Nat.log2_eq_iff (by positivity)]
      constructor
      · rw [pow_add]; exact Nat.mul_le_mul_right _ (by omega)
      · rw [show 23 + e + 1 = 24 + e by omega, pow_add]
        exact Nat.mul_lt_mul_of_pos_right (by omega) (by positivity)
    have hr : roundHalfEven ((2 ^ 23 + fractionField x) * 2 ^ e * den) (den * 2 ^ e) = 2 ^ 23 + fractionField x := by
      rw [show (2 ^ 23 + fractionField x) * 2 ^ e * den = (2 ^ 23 + fractionField x) * (den * 2 ^ e) by ring]
      exact roundHalfEven_exact _ _ (by positivity)
    rw [hm, hlog, show 23 + e - 23 = e by omega, hr, rfl']
    omega

/-- Bits 30:0 of a word, as a word: its number without the sign. -/
theorem ofNat_fields (x : Word) :
    BitVec.ofNat 32 (exponentField x * 2 ^ 23 + fractionField x) = if signBit x then negate x else x := by
  have hx := x.isLt
  have h := toNat_fields x
  cases hs : signBit x with
  | false =>
    apply BitVec.eq_of_toNat_eq
    rw [BitVec.toNat_ofNat, Nat.mod_eq_of_lt] <;> simp [hs] at h ⊢ <;> omega
  | true =>
    have h' := toNat_fields (negate x)
    have hx' := (negate x).isLt
    apply BitVec.eq_of_toNat_eq
    rw [BitVec.toNat_ofNat, Nat.mod_eq_of_lt] <;> simp [hs] at h' ⊢ <;> omega

/-- Rounding the exact value of a finite word gives the word back, with the sign it is rounded with (R15). -/
theorem roundPack_magnitude (x : Word) (h : isFinite x = true) (den : Nat) (hd : 0 < den) :
    roundPack (signBit x) (magnitude x * den) den = x := by
  rw [roundPack, roundMagnitude_magnitude x h den hd, ofNat_fields x]
  cases signBit x <;> simp

/-- `fge` and `fgt` are `fle` and `flt` with their operands exchanged (R15). -/
theorem fgt_def (a b : Word) : fgt a b = flt b a := rfl

theorem fge_def (a b : Word) : fge a b = fle b a := rfl

/-- No comparison with a NaN is true (R15). -/
theorem fle_nan_left {a : Word} (b : Word) (h : isNaN a = true) : fle a b = false := by simp [fle, h]

theorem fle_nan_right (a : Word) {b : Word} (h : isNaN b = true) : fle a b = false := by simp [fle, h]

theorem flt_nan_left {a : Word} (b : Word) (h : isNaN a = true) : flt a b = false := by simp [flt, h]

theorem flt_nan_right (a : Word) {b : Word} (h : isNaN b = true) : flt a b = false := by simp [flt, h]

end Sys2Proof.Machine
end

