-- ==== Sys2Proof/Laws/Decode.lean ====
section
/-! SUPPORT. The fields of an encoded word and of an encoded transaction, and what the decoder can answer, said once. -/

namespace Sys2Proof

/-- A command word as a number (R81). -/
theorem commandWord_toNat (sel op : BitVec 8) : (commandWord sel op).toNat = sel.toNat * 256 + op.toNat := by
  have h : (commandWord sel op).toNat = (0#16 ++ sel ++ op : BitVec (16 + 8 + 8)).toNat := rfl
  have h1 := sel.isLt
  have h2 := op.isLt
  rw [h, BitVec.toNat_append, BitVec.toNat_append, ← Nat.shiftLeft_add_eq_or_of_lt h2,
    ← Nat.shiftLeft_add_eq_or_of_lt h1]
  simp [Nat.shiftLeft_eq]

/-- A write transaction as a number (R100). -/
theorem writeTransaction_toNat (addr : BitVec 3) (wdata : Word) :
    (writeTransaction addr wdata).toNat = 2 ^ 35 + addr.toNat * 2 ^ 32 + wdata.toNat := by
  have h : (writeTransaction addr wdata).toNat = (1#1 ++ addr ++ wdata : BitVec (1 + 3 + 32)).toNat := rfl
  have h1 := addr.isLt
  have h2 := wdata.isLt
  rw [h, BitVec.toNat_append, BitVec.toNat_append, ← Nat.shiftLeft_add_eq_or_of_lt h2,
    ← Nat.shiftLeft_add_eq_or_of_lt h1]
  simp [Nat.shiftLeft_eq]
  omega

/-- A read transaction as a number (R100). -/
theorem readTransaction_toNat (addr : BitVec 3) : (readTransaction addr).toNat = addr.toNat * 2 ^ 32 := by
  have h : (readTransaction addr).toNat = (0#1 ++ addr ++ 0#32 : BitVec (1 + 3 + 32)).toNat := rfl
  have h1 := addr.isLt
  rw [h, BitVec.toNat_append, BitVec.toNat_append, ← Nat.shiftLeft_add_eq_or_of_lt (by decide : (0#32).toNat < 2 ^ 32),
    ← Nat.shiftLeft_add_eq_or_of_lt h1]
  simp [Nat.shiftLeft_eq]

/-- The three fields of a word as numbers (R81). -/
theorem zeroField_toNat (w : Word) : (zeroField w).toNat = w.toNat / 65536 := by
  have := w.isLt
  simp [zeroField, BitVec.extractLsb'_toNat, Nat.shiftRight_eq_div_pow]; omega

theorem selField_toNat (w : Word) : (selField w).toNat = w.toNat / 256 % 256 := by
  simp [selField, BitVec.extractLsb'_toNat, Nat.shiftRight_eq_div_pow]

theorem opcodeField_toNat (w : Word) : (opcodeField w).toNat = w.toNat % 256 := by
  simp [opcodeField, BitVec.extractLsb'_toNat]

@[simp] theorem zeroField_commandWord (sel op : BitVec 8) : zeroField (commandWord sel op) = 0 := by
  have h1 := sel.isLt
  have h2 := op.isLt
  apply BitVec.eq_of_toNat_eq
  rw [zeroField_toNat, commandWord_toNat]
  simp; omega

@[simp] theorem selField_commandWord (sel op : BitVec 8) : selField (commandWord sel op) = sel := by
  have h1 := sel.isLt
  have h2 := op.isLt
  apply BitVec.eq_of_toNat_eq
  rw [selField_toNat, commandWord_toNat]
  omega

@[simp] theorem opcodeField_commandWord (sel op : BitVec 8) : opcodeField (commandWord sel op) = op := by
  have h2 := op.isLt
  apply BitVec.eq_of_toNat_eq
  rw [opcodeField_toNat, commandWord_toNat]
  omega

/-- A command word is its three fields put together (R81). -/
theorem commandWord_fields (w : Word) (h : zeroField w = 0) : commandWord (selField w) (opcodeField w) = w := by
  have hz : (zeroField w).toNat = 0 := by rw [h]; rfl
  apply BitVec.eq_of_toNat_eq
  rw [zeroField_toNat] at hz
  rw [commandWord_toNat, selField_toNat, opcodeField_toNat]
  omega

/-- Decoding a command word put together from its fields (R85). -/
@[simp] theorem decodeCommand_commandWord (slots : Nat) (sel op : BitVec 8) :
    decodeCommand slots (commandWord sel op) = decodeOpcode slots op sel := by
  simp [decodeCommand]

/-- A word decodes to a command only with its field `zero` zero (R85, test 1). -/
theorem decodeCommand_ok {slots : Nat} {w : Word} {i : Instr} (h : decodeCommand slots w = .ok i) :
    zeroField w = 0 ∧ decodeOpcode slots (opcodeField w) (selField w) = .ok i := by
  unfold decodeCommand at h
  by_cases hz : zeroField w = 0
  · rw [if_neg (by simpa using hz)] at h
    exact ⟨hz, h⟩
  · rw [if_pos hz] at h
    exact absurd h (by simp)

/-- Every write transaction decodes to its own `WR` (R100, R101). -/
@[simp] theorem decodeTransaction_write (addr : BitVec 3) (wdata : Word) :
    decodeTransaction (writeTransaction addr wdata) = .wr addr wdata := by
  have ha := addr.isLt
  have hw := wdata.isLt
  have ht := writeTransaction_toNat addr wdata
  have h1 : (writeTransaction addr wdata).msb = true := by
    rw [BitVec.msb_eq_decide, ht]; simp; omega
  have h2 : (writeTransaction addr wdata).extractLsb' 32 3 = addr := by
    apply BitVec.eq_of_toNat_eq
    rw [BitVec.extractLsb'_toNat, ht, Nat.shiftRight_eq_div_pow]; omega
  have h3 : (writeTransaction addr wdata).extractLsb' 0 32 = wdata := by
    apply BitVec.eq_of_toNat_eq
    rw [BitVec.extractLsb'_toNat, ht, Nat.shiftRight_eq_div_pow]; omega
  rw [decodeTransaction, if_pos h1, h2, h3]

/-- Every read transaction decodes to its own `RD` (R100, R102). -/
@[simp] theorem decodeTransaction_read (addr : BitVec 3) : decodeTransaction (readTransaction addr) = .rd addr := by
  have ha := addr.isLt
  have ht := readTransaction_toNat addr
  have h1 : (readTransaction addr).msb = false := by
    rw [BitVec.msb_eq_decide, ht]; simp; omega
  have h2 : (readTransaction addr).extractLsb' 32 3 = addr := by
    apply BitVec.eq_of_toNat_eq
    rw [BitVec.extractLsb'_toNat, ht, Nat.shiftRight_eq_div_pow]; omega
  rw [decodeTransaction, h1, h2]
  rfl

end Sys2Proof
end

