-- ==== Sys2Proof/Laws/Memory.lean ====
section
/-! SUPPORT. The laws of the sample memory: what a byte and a word read as after a write, and that every write keeps the
canonical form. -/

namespace Sys2Proof.Machine

variable {aw : Nat}

/-- The sample memory has at least one word. -/
theorem memoryWords_pos (aw : Nat) : 0 < memoryWords aw := Nat.two_pow_pos aw

/-- A byte reads back what was written there, and no other byte changes. -/
theorem lookupByte_writeByte (m : Memory) (a a' : Nat) (b : Byte) :
    lookupByte (writeByte m a b) a' = if a' = a then some b else lookupByte m a' := by
  induction m with
  | nil => simp [writeByte, lookupByte, eq_comm]
  | cons c m ih =>
    simp only [writeByte]
    split_ifs with h1 h2 h3 h3 h3 <;> simp only [lookupByte, ih] <;> split_ifs <;> first | rfl | omega

@[simp] theorem readByte_writeByte_same (m : Memory) (a : Nat) (b : Byte) : readByte (writeByte m a b) a = b := by
  simp [readByte, lookupByte_writeByte]

theorem readByte_writeByte_other (m : Memory) (a a' : Nat) (b : Byte) (h : a' ≠ a) :
    readByte (writeByte m a b) a' = readByte m a' := by
  simp [readByte, lookupByte_writeByte, h]

/-- Writing a byte keeps the addresses rising. -/
theorem risingFrom_writeByte (m : Memory) (lo a : Nat) (b : Byte) (hm : risingFrom lo m = true) (ha : lo ≤ a) :
    risingFrom lo (writeByte m a b) = true := by
  induction m generalizing lo with
  | nil => simp [writeByte, risingFrom, ha]
  | cons c m ih =>
    simp only [risingFrom, Bool.and_eq_true, decide_eq_true_eq] at hm
    simp only [writeByte]
    split_ifs with h1 h2
    · simp only [risingFrom, Bool.and_eq_true, decide_eq_true_eq]; exact ⟨ha, by omega, hm.2⟩
    · simp only [risingFrom, Bool.and_eq_true, decide_eq_true_eq]; exact ⟨ha, h2 ▸ hm.2⟩
    · simp only [risingFrom, Bool.and_eq_true, decide_eq_true_eq]; exact ⟨hm.1, ih _ hm.2 (by omega)⟩

/-- Writing a byte adds no address but its own. -/
theorem all_writeByte (m : Memory) (a : Nat) (b : Byte) (p : Host.Cell → Bool) (hm : m.all p = true) (hp : p (a, b) = true) :
    (writeByte m a b).all p = true := by
  induction m with
  | nil => simpa [writeByte] using hp
  | cons c m ih =>
    simp only [List.all_cons, Bool.and_eq_true] at hm
    simp only [writeByte]
    split_ifs <;> simp_all

/-- Writing a byte of the address space keeps the canonical form. -/
theorem writeByte_wf (m : Memory) (a : Nat) (b : Byte) (hm : Memory.wf aw m = true) (ha : a < 4 * memoryWords aw) :
    Memory.wf aw (writeByte m a b) = true := by
  simp only [Memory.wf, Bool.and_eq_true] at hm ⊢
  exact ⟨risingFrom_writeByte m 0 a b hm.1 (Nat.zero_le a), all_writeByte m a b _ hm.2 (by simpa using ha)⟩

/-- `MemWrite` keeps the canonical form. -/
theorem memWrite_wf (m : Memory) (a : Nat) (v : Word) (hm : Memory.wf aw m = true) : Memory.wf aw (memWrite aw m a v) = true := by
  have h : a % memoryWords aw < memoryWords aw := Nat.mod_lt _ (memoryWords_pos aw)
  simp only [memWrite]
  exact writeByte_wf _ _ _ (writeByte_wf _ _ _ (writeByte_wf _ _ _ (writeByte_wf _ _ _ hm (by omega)) (by omega))
    (by omega)) (by omega)

/-- A memory that no agent has written has the canonical form. -/
theorem memory_empty_wf : Memory.wf aw [] = true := rfl

/-- `MemWrite` changes no byte outside the four bytes of its word. -/
theorem readByte_memWrite_other (m : Memory) (a : Nat) (v : Word) (x : Nat) (h : x / 4 ≠ a % memoryWords aw) :
    readByte (memWrite aw m a v) x = readByte m x := by
  simp only [memWrite]
  rw [readByte_writeByte_other, readByte_writeByte_other, readByte_writeByte_other, readByte_writeByte_other] <;> omega

/-- The four bytes of a word, put together again. -/
theorem bytes_of_word (v : Word) :
    v.extractLsb' 24 8 ++ v.extractLsb' 16 8 ++ v.extractLsb' 8 8 ++ v.extractLsb' 0 8 = v := by
  apply BitVec.eq_of_getLsbD_eq
  intro i hi
  simp only [BitVec.getLsbD_append, BitVec.getLsbD_extractLsb']
  by_cases h1 : i < 8
  · simp [h1]
  · by_cases h2 : i < 16
    · have : i - 8 < 8 := by omega
      simp [h1, this, show 8 + (i - 8) = i by omega]
    · by_cases h3 : i < 24
      · have h4 : ¬ i - 8 < 8 := by omega
        have h5 : i - 8 - 8 < 8 := by omega
        simp [h1, h4, h5, show 16 + (i - 8 - 8) = i by omega]
      · have h4 : ¬ i - 8 < 8 := by omega
        have h5 : ¬ i - 8 - 8 < 8 := by omega
        have h6 : i - 8 - 8 - 8 < 8 := by omega
        simp [h1, h4, h5, h6, show 24 + (i - 8 - 8 - 8) = i by omega]

/-- `MemRead` of the word just written (R64). -/
theorem memRead_memWrite_same (m : Memory) (a a' : Nat) (v : Word) (h : a' % memoryWords aw = a % memoryWords aw) :
    memRead aw (memWrite aw m a v) a' = v := by
  simp [memRead, memWrite, readByte, lookupByte_writeByte, h, bytes_of_word]

/-- `MemRead` of any other word is not changed by `MemWrite` (R64). -/
theorem memRead_memWrite_other (m : Memory) (a a' : Nat) (v : Word)
    (h : a' % memoryWords aw ≠ a % memoryWords aw) : memRead aw (memWrite aw m a v) a' = memRead aw m a' := by
  simp only [memRead]
  rw [readByte_memWrite_other, readByte_memWrite_other, readByte_memWrite_other, readByte_memWrite_other] <;> omega

/-- Addresses are taken modulo 2^AW (R61). -/
@[simp] theorem memRead_mod (m : Memory) (a : Nat) : memRead aw m (a % memoryWords aw) = memRead aw m a := by
  simp [memRead]

@[simp] theorem memWrite_mod (m : Memory) (a : Nat) (v : Word) : memWrite aw m (a % memoryWords aw) v = memWrite aw m a v := by
  simp [memWrite]

end Sys2Proof.Machine
end

