-- ==== Sys2Proof/Laws/State.lean ====
section
/-! SUPPORT. One lemma per field for each update of the state that the commands share, all true by unfolding once. -/

namespace Sys2Proof.Machine

section Raise
variable (k : Status) (s : State)
@[simp] theorem raise_args : (raise k s).args = s.args := rfl
@[simp] theorem raise_res : (raise k s).res = s.res := rfl
@[simp] theorem raise_st : (raise k s).st = statusCode k := rfl
@[simp] theorem raise_urb : (raise k s).urb = s.urb := rfl
@[simp] theorem raise_ulfo : (raise k s).ulfo = s.ulfo := rfl
@[simp] theorem raise_vib : (raise k s).vib = s.vib := rfl
@[simp] theorem raise_mem : (raise k s).mem = s.mem := rfl
@[simp] theorem raise_stuck : (raise k s).stuck = s.stuck := rfl
@[simp] theorem raise_rdata : (raise k s).rdata = s.rdata := rfl
@[simp] theorem raise_pending : (raise k s).pending = s.pending := rfl
@[simp] theorem raise_params : (raise k s).params = s.params := rfl
@[simp] theorem raiseSentinel_args : (raiseSentinel k s).args = s.args := rfl
@[simp] theorem raiseSentinel_res : (raiseSentinel k s).res = statusSentinel k := rfl
@[simp] theorem raiseSentinel_st : (raiseSentinel k s).st = statusCode k := rfl
@[simp] theorem raiseSentinel_urb : (raiseSentinel k s).urb = s.urb := rfl
@[simp] theorem raiseSentinel_ulfo : (raiseSentinel k s).ulfo = s.ulfo := rfl
@[simp] theorem raiseSentinel_vib : (raiseSentinel k s).vib = s.vib := rfl
@[simp] theorem raiseSentinel_mem : (raiseSentinel k s).mem = s.mem := rfl
@[simp] theorem raiseSentinel_stuck : (raiseSentinel k s).stuck = s.stuck := rfl
@[simp] theorem raiseSentinel_rdata : (raiseSentinel k s).rdata = s.rdata := rfl
@[simp] theorem raiseSentinel_pending : (raiseSentinel k s).pending = s.pending := rfl
@[simp] theorem raiseSentinel_params : (raiseSentinel k s).params = s.params := rfl
end Raise

section Complete
variable (v : Word) (s : State)
@[simp] theorem complete_args : (complete s).args = s.args := rfl
@[simp] theorem complete_res : (complete s).res = s.res := rfl
@[simp] theorem complete_st : (complete s).st = statusCode .noError := rfl
@[simp] theorem complete_urb : (complete s).urb = s.urb := rfl
@[simp] theorem complete_ulfo : (complete s).ulfo = s.ulfo := rfl
@[simp] theorem complete_vib : (complete s).vib = s.vib := rfl
@[simp] theorem complete_mem : (complete s).mem = s.mem := rfl
@[simp] theorem complete_stuck : (complete s).stuck = s.stuck := rfl
@[simp] theorem complete_rdata : (complete s).rdata = s.rdata := rfl
@[simp] theorem complete_pending : (complete s).pending = s.pending := rfl
@[simp] theorem complete_params : (complete s).params = s.params := rfl
@[simp] theorem completeWith_args : (completeWith v s).args = s.args := rfl
@[simp] theorem completeWith_res : (completeWith v s).res = v := rfl
@[simp] theorem completeWith_st : (completeWith v s).st = statusCode .noError := rfl
@[simp] theorem completeWith_urb : (completeWith v s).urb = s.urb := rfl
@[simp] theorem completeWith_ulfo : (completeWith v s).ulfo = s.ulfo := rfl
@[simp] theorem completeWith_vib : (completeWith v s).vib = s.vib := rfl
@[simp] theorem completeWith_mem : (completeWith v s).mem = s.mem := rfl
@[simp] theorem completeWith_stuck : (completeWith v s).stuck = s.stuck := rfl
@[simp] theorem completeWith_rdata : (completeWith v s).rdata = s.rdata := rfl
@[simp] theorem completeWith_pending : (completeWith v s).pending = s.pending := rfl
@[simp] theorem completeWith_params : (completeWith v s).params = s.params := rfl
end Complete

section Stuck
variable (s : State)
@[simp] theorem becomeStuck_args : (becomeStuck s).args = s.args := rfl
@[simp] theorem becomeStuck_res : (becomeStuck s).res = s.res := rfl
@[simp] theorem becomeStuck_st : (becomeStuck s).st = s.st := rfl
@[simp] theorem becomeStuck_urb : (becomeStuck s).urb = s.urb := rfl
@[simp] theorem becomeStuck_ulfo : (becomeStuck s).ulfo = s.ulfo := rfl
@[simp] theorem becomeStuck_vib : (becomeStuck s).vib = s.vib := rfl
@[simp] theorem becomeStuck_mem : (becomeStuck s).mem = s.mem := rfl
@[simp] theorem becomeStuck_stuck : (becomeStuck s).stuck = true := rfl
@[simp] theorem becomeStuck_rdata : (becomeStuck s).rdata = s.rdata := rfl
@[simp] theorem becomeStuck_pending : (becomeStuck s).pending = s.pending := rfl
@[simp] theorem becomeStuck_params : (becomeStuck s).params = s.params := rfl
end Stuck

section SetSlot
variable (n : BitVec 8) (b : Option RingBuffer) (s : State)
@[simp] theorem setSlot_args : (setSlot n b s).args = s.args := rfl
@[simp] theorem setSlot_res : (setSlot n b s).res = s.res := rfl
@[simp] theorem setSlot_st : (setSlot n b s).st = s.st := rfl
@[simp] theorem setSlot_urb : (setSlot n b s).urb = s.urb.set n.toNat b := rfl
@[simp] theorem setSlot_ulfo : (setSlot n b s).ulfo = s.ulfo := rfl
@[simp] theorem setSlot_vib : (setSlot n b s).vib = s.vib := rfl
@[simp] theorem setSlot_mem : (setSlot n b s).mem = s.mem := rfl
@[simp] theorem setSlot_stuck : (setSlot n b s).stuck = s.stuck := rfl
@[simp] theorem setSlot_rdata : (setSlot n b s).rdata = s.rdata := rfl
@[simp] theorem setSlot_pending : (setSlot n b s).pending = s.pending := rfl
@[simp] theorem setSlot_params : (setSlot n b s).params = s.params := rfl
end SetSlot

section SetArg
variable (k : Fin 4) (v : Word) (s : State)
@[simp] theorem setArg_args : (setArg k v s).args = s.args.set k v := rfl
@[simp] theorem setArg_res : (setArg k v s).res = s.res := rfl
@[simp] theorem setArg_st : (setArg k v s).st = s.st := rfl
@[simp] theorem setArg_urb : (setArg k v s).urb = s.urb := rfl
@[simp] theorem setArg_ulfo : (setArg k v s).ulfo = s.ulfo := rfl
@[simp] theorem setArg_vib : (setArg k v s).vib = s.vib := rfl
@[simp] theorem setArg_mem : (setArg k v s).mem = s.mem := rfl
@[simp] theorem setArg_stuck : (setArg k v s).stuck = s.stuck := rfl
@[simp] theorem setArg_rdata : (setArg k v s).rdata = s.rdata := rfl
@[simp] theorem setArg_pending : (setArg k v s).pending = s.pending := rfl
@[simp] theorem setArg_params : (setArg k v s).params = s.params := rfl
end SetArg

section HardwareReset
variable (s : State)
@[simp] theorem hardwareReset_args : (hardwareReset s).args = (State.resetWith s.params).args := rfl
@[simp] theorem hardwareReset_res : (hardwareReset s).res = (State.resetWith s.params).res := rfl
@[simp] theorem hardwareReset_st : (hardwareReset s).st = (State.resetWith s.params).st := rfl
@[simp] theorem hardwareReset_urb : (hardwareReset s).urb = (State.resetWith s.params).urb := rfl
@[simp] theorem hardwareReset_ulfo : (hardwareReset s).ulfo = (State.resetWith s.params).ulfo := rfl
@[simp] theorem hardwareReset_vib : (hardwareReset s).vib = (State.resetWith s.params).vib := rfl
@[simp] theorem hardwareReset_mem : (hardwareReset s).mem = s.mem := rfl
@[simp] theorem hardwareReset_stuck : (hardwareReset s).stuck = false := rfl
@[simp] theorem hardwareReset_rdata : (hardwareReset s).rdata = (State.resetWith s.params).rdata := rfl
@[simp] theorem hardwareReset_pending : (hardwareReset s).pending = s.pending := rfl
@[simp] theorem hardwareReset_params : (hardwareReset s).params = s.params := rfl
end HardwareReset

section SetDelayLine
variable (v : Vib) (j : Nat) (b : RingBuffer)
@[simp] theorem setDelayLine_ready : (setDelayLine v j b).ready = v.ready := rfl
@[simp] theorem setDelayLine_fs : (setDelayLine v j b).fs = v.fs := rfl
@[simp] theorem setDelayLine_nch : (setDelayLine v j b).nch = v.nch := rfl
@[simp] theorem setDelayLine_modFreq : (setDelayLine v j b).modFreq = v.modFreq := rfl
@[simp] theorem setDelayLine_amp : (setDelayLine v j b).amp = v.amp := rfl
@[simp] theorem setDelayLine_ampMin : (setDelayLine v j b).ampMin = v.ampMin := rfl
@[simp] theorem setDelayLine_ampMax : (setDelayLine v j b).ampMax = v.ampMax := rfl
@[simp] theorem setDelayLine_freqMin : (setDelayLine v j b).freqMin = v.freqMin := rfl
@[simp] theorem setDelayLine_freqMax : (setDelayLine v j b).freqMax = v.freqMax := rfl
@[simp] theorem setDelayLine_delay : (setDelayLine v j b).delay = v.delay := rfl
@[simp] theorem setDelayLine_dl : (setDelayLine v j b).dl = v.dl.set j (some b) := rfl
@[simp] theorem setDelayLine_lfo : (setDelayLine v j b).lfo = v.lfo := rfl
end SetDelayLine

section RingBufferUpdates
variable (b : RingBuffer) (v : Word) (cap : Nat)
@[simp] theorem rbPut_cap : (rbPut b v).cap = b.cap := rfl
@[simp] theorem rbPut_rd : (rbPut b v).rd = b.rd := rfl
@[simp] theorem rbPut_wr : (rbPut b v).wr = (b.wr + 1) % b.cap := rfl
@[simp] theorem rbPut_store : (rbPut b v).store = b.store.set b.wr v := rfl
@[simp] theorem rbAdvance_cap : (rbAdvance b).cap = b.cap := rfl
@[simp] theorem rbAdvance_rd : (rbAdvance b).rd = (b.rd + 1) % b.cap := rfl
@[simp] theorem rbAdvance_wr : (rbAdvance b).wr = b.wr := rfl
@[simp] theorem rbAdvance_store : (rbAdvance b).store = b.store := rfl
@[simp] theorem rbCreated_cap : (rbCreated cap).cap = cap := rfl
@[simp] theorem rbCreated_rd : (rbCreated cap).rd = 0 := rfl
@[simp] theorem rbCreated_wr : (rbCreated cap).wr = 0 := rfl
@[simp] theorem rbCreated_store : (rbCreated cap).store = List.replicate cap posZero := rfl
end RingBufferUpdates

section ResetWith
variable (p : Params)

@[simp] theorem resetWith_args : (State.resetWith p).args = Vector.replicate 4 0 := rfl
@[simp] theorem resetWith_res : (State.resetWith p).res = 0 := rfl
@[simp] theorem resetWith_st : (State.resetWith p).st = 0 := rfl
@[simp] theorem resetWith_urb : (State.resetWith p).urb = List.replicate p.userSlots none := rfl
@[simp] theorem resetWith_ulfo : (State.resetWith p).ulfo = Lfo.reset := rfl
@[simp] theorem resetWith_vib : (State.resetWith p).vib = Vib.reset p.channelsMax := rfl
@[simp] theorem resetWith_mem : (State.resetWith p).mem = [] := rfl
@[simp] theorem resetWith_stuck : (State.resetWith p).stuck = false := rfl
@[simp] theorem resetWith_rdata : (State.resetWith p).rdata = 0 := rfl
@[simp] theorem resetWith_pending : (State.resetWith p).pending = [] := rfl
@[simp] theorem resetWith_params : (State.resetWith p).params = p := rfl
end ResetWith

end Sys2Proof.Machine
end

