-- ==== Sys2Proof/Laws/Ops.lean ====
section
/-! SUPPORT. What each shared operation can do, said once: the slots, the command preamble, the delay lines, and how a command
ends. -/

namespace Sys2Proof.Machine

/-- A slot that exists is one of the `N_URB` slots. -/
theorem slotLegal_of_slot {n : BitVec 8} {s : State} {b : RingBuffer} (hlen : s.urb.length = s.params.userSlots)
    (h : slot n s = some b) : slotLegal s.params.userSlots n = true := by
  unfold slotLegal slot at *
  by_contra hn
  have : ¬ n.toNat < s.params.userSlots := by simpa using hn
  rw [List.getElem?_eq_none (by omega)] at h
  simp at h

/-- A slot reads as what was last put there. -/
theorem slot_setSlot (n n' : BitVec 8) (b : Option RingBuffer) (s : State) (h : n.toNat < s.urb.length) :
    slot n' (setSlot n b s) = if n' = n then b else slot n' s := by
  unfold slot
  rw [setSlot_urb, List.getElem?_set]
  by_cases e : n' = n
  · subst e; simp [h]
  · have : n.toNat ≠ n'.toNat := fun e' => e (BitVec.eq_of_toNat_eq e'.symm)
    simp [this, e]

@[simp] theorem slot_raise (n : BitVec 8) (k : Status) (s : State) : slot n (raise k s) = slot n s := rfl
@[simp] theorem slot_raiseSentinel (n : BitVec 8) (k : Status) (s : State) : slot n (raiseSentinel k s) = slot n s := rfl
@[simp] theorem slot_complete (n : BitVec 8) (s : State) : slot n (complete s) = slot n s := rfl
@[simp] theorem slot_completeWith (n : BitVec 8) (v : Word) (s : State) : slot n (completeWith v s) = slot n s := rfl
@[simp] theorem slot_becomeStuck (n : BitVec 8) (s : State) : slot n (becomeStuck s) = slot n s := rfl

/-- The preamble of R111, with the test of the selector before it: one of three things happens. -/
theorem withSlot_cases (n : BitVec 8) (s : State) (body : RingBuffer → State) :
    (slotLegal s.params.userSlots n = false ∧ withSlot n s body = raise .illegalCall s) ∨
    (slotLegal s.params.userSlots n = true ∧ slot n s = none ∧ withSlot n s body = raise .notInitialized s) ∨
    (∃ b, slotLegal s.params.userSlots n = true ∧ slot n s = some b ∧ withSlot n s body = body b) := by
  unfold withSlot withLegalSlot
  cases h : slotLegal s.params.userSlots n with
  | false => simp
  | true => cases hs : slot n s with
    | none => simp
    | some b => simp

/-- On a legal slot that exists the preamble runs the command's body. -/
theorem withSlot_some {n : BitVec 8} {s : State} {b : RingBuffer} (body : RingBuffer → State)
    (hl : slotLegal s.params.userSlots n = true) (h : slot n s = some b) : withSlot n s body = body b := by
  simp [withSlot, withLegalSlot, hl, h]

/-- On a legal slot that does not exist the preamble raises NotInitialized (R111). -/
theorem withSlot_none {n : BitVec 8} {s : State} (body : RingBuffer → State)
    (hl : slotLegal s.params.userSlots n = true) (h : slot n s = none) :
    withSlot n s body = raise .notInitialized s := by
  simp [withSlot, withLegalSlot, hl, h]

/-- The test of the selector: the body, or IllegalCall. -/
theorem withLegalSlot_cases (n : BitVec 8) (s body : State) :
    (slotLegal s.params.userSlots n = false ∧ withLegalSlot n s body = raise .illegalCall s) ∨
    (slotLegal s.params.userSlots n = true ∧ withLegalSlot n s body = body) := by
  unfold withLegalSlot
  cases slotLegal s.params.userSlots n <;> simp

@[simp] theorem withLegalSlot_legal {n : BitVec 8} (s body : State) (h : slotLegal s.params.userSlots n = true) :
    withLegalSlot n s body = body := by simp [withLegalSlot, h]

/-- `VIB.dl[j]` reads as what was last put there. -/
theorem delayLine_setDelayLine (v : Vib) (j j' : Nat) (b : RingBuffer) (h : j < v.dl.length) :
    delayLine (setDelayLine v j b) j' = if j' = j then b else delayLine v j' := by
  unfold delayLine
  rw [setDelayLine_dl, List.getElem?_set]
  by_cases e : j' = j
  · subst e; simp [h]
  · have e' : j ≠ j' := fun x => e x.symm
    simp [e, e']

/-- Writing a delay line makes that one exist and changes the existence of no other. -/
theorem delayLineExists_setDelayLine (v : Vib) (j j' : Nat) (b : RingBuffer) (h : j < v.dl.length) :
    delayLineExists (setDelayLine v j b) j' = if j' = j then true else delayLineExists v j' := by
  unfold delayLineExists
  rw [setDelayLine_dl, List.getElem?_set]
  by_cases e : j' = j
  · subst e; simp [h]
  · have e' : j ≠ j' := fun x => e x.symm
    simp [e, e']

/-- A delay line depends on the engine's delay lines only. -/
theorem delayLine_withLfo (v : Vib) (l : Lfo) (j : Nat) : delayLine { v with lfo := l } j = delayLine v j := rfl

/-- The five codes (R200). -/
theorem statusCode_values : statusCode .noError = 0 ∧ statusCode .invalidArguments = 1 ∧ statusCode .notInitialized = 2 ∧
    statusCode .illegalCall = 3 ∧ statusCode .unknownError = 4 := by decide

/-- Every status code is at most 4 (R200). -/
theorem statusCode_le (k : Status) : (statusCode k).toNat ≤ 4 := by cases k <;> decide

/-- The sentinels are the codes as binary32 values (R200, R205). -/
theorem statusSentinel_eq (k : Status) : statusSentinel k = i2f (statusNumber k) := by cases k <;> decide +kernel

end Sys2Proof.Machine
end

