-- ==== Sys2Proof/Laws/RingBuffer.lean ====
section
/-! SUPPORT. What the ring-buffer primitives and the two bulk loops can do, said once. -/

namespace Sys2Proof.Machine

variable {aw : Nat}

/-- A normalised cursor lies in the buffer (R110). -/
theorem rbNorm_lt (i : Int) (cap : Nat) (h : 1 ≤ cap) : rbNorm i cap < cap := by
  unfold rbNorm
  have h1 := Int.emod_nonneg i (show (cap : Int) ≠ 0 by omega)
  have h2 := Int.emod_lt_of_pos i (show (0 : Int) < cap by omega)
  omega

/-- A created ring buffer is sound (R112). -/
theorem bufferSound_rbCreated (capMax cap : Nat) (h1 : 1 ≤ cap) (h2 : cap ≤ capMax) : bufferSound capMax (rbCreated cap) := by
  unfold bufferSound rbCreated
  simp; omega

/-- `RbPut` keeps a ring buffer sound (R105). -/
theorem bufferSound_rbPut {capMax : Nat} {b : RingBuffer} (v : Word) (h : bufferSound capMax b) :
    bufferSound capMax (rbPut b v) := by
  obtain ⟨h1, h2, h3, h4, h5⟩ := h
  exact ⟨h1, h2, h3, Nat.mod_lt _ (show 0 < b.cap by omega), by simpa using h5⟩

/-- Advancing the read cursor keeps a ring buffer sound (R105). -/
theorem bufferSound_rbAdvance {capMax : Nat} {b : RingBuffer} (h : bufferSound capMax b) :
    bufferSound capMax (rbAdvance b) := by
  obtain ⟨h1, h2, h3, h4, h5⟩ := h
  exact ⟨h1, h2, Nat.mod_lt _ (show 0 < b.cap by omega), h4, h5⟩

/-- A property that every put keeps holds after the loop of `RB.PUTN`. -/
theorem putWords_induct (mem : Memory) (src : Nat) (P : RingBuffer → Prop) (hP : ∀ b v, P b → P (rbPut b v)) (n k : Nat)
    (b : RingBuffer) (h : P b) : P (putWords aw mem src n k b) := by
  induction n generalizing k b with
  | zero => exact h
  | succ n ih => exact ih _ _ (hP _ _ h)

/-- The loop of `RB.PUTN` changes neither the capacity nor the read cursor (R115). -/
@[simp] theorem putWords_cap (mem : Memory) (src n k : Nat) (b : RingBuffer) : (putWords aw mem src n k b).cap = b.cap :=
  putWords_induct mem src (fun b' => b'.cap = b.cap) (fun _ _ h => h) n k b rfl

@[simp] theorem putWords_rd (mem : Memory) (src n k : Nat) (b : RingBuffer) : (putWords aw mem src n k b).rd = b.rd :=
  putWords_induct mem src (fun b' => b'.rd = b.rd) (fun _ _ h => h) n k b rfl

@[simp] theorem putWords_store_length (mem : Memory) (src n k : Nat) (b : RingBuffer) :
    (putWords aw mem src n k b).store.length = b.store.length :=
  putWords_induct mem src (fun b' => b'.store.length = b.store.length) (fun _ _ h => by simpa using h) n k b rfl

/-- The loop of `RB.PUTN` in two parts. -/
theorem putWords_add (mem : Memory) (src n n' k : Nat) (b : RingBuffer) :
    putWords aw mem src (n + n') k b = putWords aw mem src n' (k + n) (putWords aw mem src n k b) := by
  induction n generalizing k b with
  | zero => simp [putWords]
  | succ n ih => rw [Nat.succ_add, putWords, ih, putWords, show k + (n + 1) = k + 1 + n by omega]

/-- The loop of `RB.GETN` in two parts. -/
theorem getWords_add (dst n n' k : Nat) (b : RingBuffer) (m : Memory) :
    getWords aw dst (n + n') k b m = getWords aw dst n' (k + n) (getWords aw dst n k b m).1 (getWords aw dst n k b m).2 := by
  induction n generalizing k b m with
  | zero => simp [getWords]
  | succ n ih => rw [Nat.succ_add, getWords, ih, getWords, show k + (n + 1) = k + 1 + n by omega]

/-- The loop of `RB.GETN` moves the read cursor only (R118). -/
theorem getWords_buffer (dst n k : Nat) (b : RingBuffer) (m : Memory) :
    (getWords aw dst n k b m).1 = { b with rd := (getWords aw dst n k b m).1.rd } := by
  induction n generalizing k b m with
  | zero => rfl
  | succ n ih => rw [getWords]; exact ih _ _ _

/-- A property that every advance keeps holds after the loop of `RB.GETN`. -/
theorem getWords_induct (dst : Nat) (P : RingBuffer → Prop) (hP : ∀ b, P b → P (rbAdvance b)) (n k : Nat)
    (b : RingBuffer) (m : Memory) (h : P b) : P (getWords aw dst n k b m).1 := by
  induction n generalizing k b m with
  | zero => exact h
  | succ n ih => exact ih _ _ _ (hP _ h)

/-- A property of the memory that every `MemWrite` keeps holds after the loop of `RB.GETN`. -/
theorem getWords_mem_induct (dst : Nat) (P : Memory → Prop) (hP : ∀ m a v, P m → P (memWrite aw m a v)) (n k : Nat)
    (b : RingBuffer) (m : Memory) (h : P m) : P (getWords aw dst n k b m).2 := by
  induction n generalizing k b m with
  | zero => exact h
  | succ n ih => exact ih _ _ _ (hP _ _ _ h)

end Sys2Proof.Machine
end

