-- ==== Sys2Proof/Laws/Oscillator.lean ====
section
/-! SUPPORT. What the LFO primitives and the loops of `LFO.BLOCK` can do, said once. -/

namespace Sys2Proof.Machine

variable {aw : Nat} {p : Params} {table : SineContents}

/-- `LfoInit` succeeds exactly under its three tests, and then gives this LFO (R141). -/
theorem lfoInitialized_eq_some {w : BitVec 8} {f fs : Word} {l : Lfo} :
    lfoInitialized w f fs = some l ↔
      w = 0 ∧ fge f posZero = true ∧ fgt fs posZero = true ∧
        l = { ready := true, wave := w, freq := f, fs := fs, inc := lfoIncrement fs f, phase := posZero } := by
  unfold lfoInitialized
  by_cases h1 : w = 0
  · cases h2 : fge f posZero
    · simp
    · cases h3 : fgt fs posZero
      · simp
      · simp only [h1, ne_eq, not_true_eq_false, if_false, Bool.not_true, Bool.false_eq_true, Option.some.injEq, true_and]
        exact eq_comm
  · exact iff_of_false (by rw [if_pos h1]; simp) (fun h => h1 h.1)

/-- `LfoSetFreq` succeeds exactly under its test, and then keeps the phase (R153). -/
theorem lfoWithFrequency_eq_some {l l' : Lfo} {f : Word} :
    lfoWithFrequency l f = some l' ↔ fge f posZero = true ∧ l' = { l with freq := f, inc := lfoIncrement l.fs f } := by
  unfold lfoWithFrequency
  cases h : fge f posZero <;> simp [eq_comm]

/-- What one `LfoNext` that ends does (R148). -/
theorem lfoNext_eq_some {l l' : Lfo} {v : Word} :
    lfoNext table l = some (v, l') ↔
      ∃ p, wrapPhase wrapFuel (fadd l.phase l.inc) = some p ∧ v = lfoValue table l ∧ l' = { l with phase := p } := by
  unfold lfoNext
  cases h : wrapPhase wrapFuel (fadd l.phase l.inc) with
  | none => simp
  | some p => simp [eq_comm]

/-- `LfoNext` never ends exactly when its wrap loop does not (R149). -/
theorem lfoNext_eq_none {l : Lfo} : lfoNext table l = none ↔ wrapPhase wrapFuel (fadd l.phase l.inc) = none := by
  unfold lfoNext
  cases wrapPhase wrapFuel (fadd l.phase l.inc) <;> simp

/-- The wrap loop ends only where its condition is false (R148). -/
theorem wrapPhase_some {fuel : Nat} {p q : Word} (h : wrapPhase fuel p = some q) : fgt q f2047 = false := by
  induction fuel generalizing p with
  | zero =>
    unfold wrapPhase at h
    split at h
    · simp at h
    · simp_all
  | succ fuel ih =>
    unfold wrapPhase at h
    split at h
    · split at h
      · simp at h
      · exact ih h
    · simp_all

/-- Where its condition is false at once, the wrap loop does not run (R148). -/
theorem wrapPhase_of_not_gt (fuel : Nat) (p : Word) (h : fgt p f2047 = false) : wrapPhase fuel p = some p := by
  cases fuel <;> simp [wrapPhase, h]

/-- The wrap loop ends after the number of subtractions that makes its condition false, given enough fuel. -/
theorem wrapPhase_wrapped (fuel k : Nat) (p : Word) (hk : k ≤ fuel) (hgt : ∀ i, i < k → fgt (wrapped i p) f2047 = true)
    (hend : fgt (wrapped k p) f2047 = false) : wrapPhase fuel p = some (wrapped k p) := by
  induction k generalizing fuel p with
  | zero => exact wrapPhase_of_not_gt fuel p hend
  | succ k ih =>
    obtain ⟨f, rfl⟩ : ∃ f, fuel = f + 1 := ⟨fuel - 1, by omega⟩
    have h0 := hgt 0 (Nat.succ_pos k)
    simp only [wrapped] at h0 hend ⊢
    have hne : fsub p f2048 ≠ p := by
      intro e
      have : ∀ i, wrapped i p = p := by
        intro i
        induction i with
        | zero => rfl
        | succ i ihi => simp [wrapped, e, ihi]
      rw [e, this] at hend
      simp [h0] at hend
    rw [wrapPhase, if_pos h0, if_neg hne]
    exact ih f (fsub p f2048) (by omega) (fun i hi => hgt (i + 1) (by omega)) hend

/-- A property of the memory that every `MemWrite` keeps holds after the channels of a frame of `LFO.BLOCK`. -/
theorem blockChannels_induct (dst stride i : Nat) (v : Word) (P : Memory → Prop) (hP : ∀ m a, P m → P (memWrite aw m a v))
    (n j : Nat) (m : Memory) (h : P m) : P (blockChannels aw dst stride i v n j m) := by
  induction n generalizing j m with
  | zero => exact h
  | succ n ih => exact ih _ _ (hP _ _ h)

/-- A property of the memory that every `MemWrite` keeps holds after the frames of `LFO.BLOCK`, stuck or not. -/
theorem blockFrames_mem_induct (dst stride nch : Nat) (P : Memory → Prop) (hP : ∀ m a v, P m → P (memWrite p.addressWidth m a v))
    (n i : Nat) (l : Lfo) (m : Memory) (h : P m) : P (blockFrames p dst stride nch n i l m).mem := by
  induction n generalizing i l m with
  | zero => exact h
  | succ n ih =>
    rw [blockFrames]
    split
    · exact h
    · exact ih _ _ _ (blockChannels_induct dst stride i _ P (fun m a hm => hP m a _ hm) nch 0 m h)

/-- A property of an LFO that every `LfoNext` keeps holds after the frames of `LFO.BLOCK`, stuck or not. -/
theorem blockFrames_lfo_induct (dst stride nch : Nat) (P : Lfo → Prop)
    (hP : ∀ l v l', lfoNext p.sine l = some (v, l') → P l → P l')
    (n i : Nat) (l : Lfo) (m : Memory) (h : P l) : P (blockFrames p dst stride nch n i l m).lfo := by
  induction n generalizing i l m with
  | zero => exact h
  | succ n ih =>
    rw [blockFrames]
    split
    · exact h
    · rename_i v l' hn
      exact ih _ _ _ (hP l v l' hn h)

end Sys2Proof.Machine
end

