-- ==== Sys2Proof/Laws/PerInstr.lean ====
section
/-! SUPPORT. Statements made for each instruction. `EncodingFits`: the bits that `encode` gives fit the width it gives. -/

namespace Sys2Proof.Laws.EncodingFits

open Sys2Proof

/-- The encoding of an instruction is a number of its encoding's width: 32 bits for a command (R80), 36 for a transaction
(R100). -/
def Statement (i : Instr) : Prop := (encode i).2 < 2 ^ (encode i).1

theorem rbCreate (n : BitVec 8) : Statement (.rbCreate n) := BitVec.isLt _

theorem rbDestroy (n : BitVec 8) : Statement (.rbDestroy n) := BitVec.isLt _

theorem rbPut (n : BitVec 8) : Statement (.rbPut n) := BitVec.isLt _

theorem rbPutn (n : BitVec 8) : Statement (.rbPutn n) := BitVec.isLt _

theorem rbGet (n : BitVec 8) : Statement (.rbGet n) := BitVec.isLt _

theorem rbGetpi (n : BitVec 8) : Statement (.rbGetpi n) := BitVec.isLt _

theorem rbGetn (n : BitVec 8) : Statement (.rbGetn n) := BitVec.isLt _

theorem rbSetrd (n : BitVec 8) : Statement (.rbSetrd n) := BitVec.isLt _

theorem rbGetrd (n : BitVec 8) : Statement (.rbGetrd n) := BitVec.isLt _

theorem rbSetwr (n : BitVec 8) : Statement (.rbSetwr n) := BitVec.isLt _

theorem rbGetwr (n : BitVec 8) : Statement (.rbGetwr n) := BitVec.isLt _

theorem lfoInit (w : BitVec 8) : Statement (.lfoInit w) := BitVec.isLt _

theorem lfoReset : Statement .lfoReset := BitVec.isLt _

theorem lfoSetfreq : Statement .lfoSetfreq := BitVec.isLt _

theorem lfoGetfreq : Statement .lfoGetfreq := BitVec.isLt _

theorem lfoNext : Statement .lfoNext := BitVec.isLt _

theorem lfoBlock : Statement .lfoBlock := BitVec.isLt _

theorem vibInit : Statement .vibInit := BitVec.isLt _

theorem vibReset : Statement .vibReset := BitVec.isLt _

theorem vibSetparam (p : BitVec 8) : Statement (.vibSetparam p) := BitVec.isLt _

theorem vibGetparam (p : BitVec 8) : Statement (.vibGetparam p) := BitVec.isLt _

theorem vibProcess : Statement .vibProcess := BitVec.isLt _

theorem wr (addr : BitVec 3) (wdata : Word) : Statement (.wr addr wdata) := BitVec.isLt _

theorem rd (addr : BitVec 3) : Statement (.rd addr) := BitVec.isLt _

end Sys2Proof.Laws.EncodingFits
end

