-- ==== Sys2Proof/Laws/Vibrato.lean ====
section
/-! SUPPORT. What the loops of `VIB.PROCESS` can do, said once. -/

namespace Sys2Proof.Machine

variable {aw : Nat} {p : Params}

/-- The channels of a frame change the delay lines and nothing else of the engine (R177). -/
theorem vibChannels_vib (inp out stride i : Nat) (offset : Word) (n j : Nat) (v : Vib) (m : Memory) :
    (vibChannels aw inp out stride i offset n j v m).1 =
      { v with dl := (vibChannels aw inp out stride i offset n j v m).1.dl } := by
  induction n generalizing j v m with
  | zero => rfl
  | succ n ih => rw [vibChannels]; exact ih _ _ _

/-- A property of the memory that every `MemWrite` keeps holds after the channels of a frame. -/
theorem vibChannels_mem_induct (inp out stride i : Nat) (offset : Word) (P : Memory → Prop)
    (hP : ∀ m a v, P m → P (memWrite aw m a v)) (n j : Nat) (v : Vib) (m : Memory) (h : P m) :
    P (vibChannels aw inp out stride i offset n j v m).2 := by
  induction n generalizing j v m with
  | zero => exact h
  | succ n ih => rw [vibChannels]; exact ih _ _ _ (hP _ _ _ h)

/-- A property of the memory that every `MemWrite` keeps holds after the frames, stuck or not. -/
theorem vibFrames_mem_induct (inp out stride : Nat) (P : Memory → Prop)
    (hP : ∀ m a v, P m → P (memWrite p.addressWidth m a v)) (n i : Nat) (v : Vib) (m : Memory) (h : P m) : P (vibFrames p inp out stride n i v m).mem := by
  induction n generalizing i v m with
  | zero => exact h
  | succ n ih =>
    rw [vibFrames]
    split
    · exact h
    · exact ih _ _ _ (vibChannels_mem_induct inp out stride i _ P hP _ 0 _ m h)

/-- The frames change the delay lines and the LFO's phase and nothing else of the engine (R177). -/
theorem vibFrames_vib (inp out stride n i : Nat) (v : Vib) (m : Memory) :
    (vibFrames p inp out stride n i v m).vib =
      { v with dl := (vibFrames p inp out stride n i v m).vib.dl,
               lfo := { v.lfo with phase := (vibFrames p inp out stride n i v m).vib.lfo.phase } } := by
  induction n generalizing i v m with
  | zero => rfl
  | succ n ih =>
    rw [vibFrames]
    split
    · rfl
    · rename_i sample l hl
      obtain ⟨p, -, -, rfl⟩ := lfoNext_eq_some.1 hl
      rw [ih, vibChannels_vib]

/-- The frames in two parts, the first part not stuck. -/
theorem vibFrames_add (inp out stride n n' i : Nat) (v : Vib) (m : Memory)
    (h : (vibFrames p inp out stride n i v m).stuck = false) :
    vibFrames p inp out stride (n + n') i v m =
      vibFrames p inp out stride n' (i + n) (vibFrames p inp out stride n i v m).vib (vibFrames p inp out stride n i v m).mem := by
  induction n generalizing i v m with
  | zero => simp [vibFrames]
  | succ n ih =>
    rw [Nat.succ_add, vibFrames]
    rw [vibFrames] at h
    conv_rhs => rw [vibFrames]
    split
    · rename_i hl; simp [hl] at h
    · rename_i sample l hl
      simp only [hl] at h
      rw [ih _ _ _ h, show i + (n + 1) = i + 1 + n by omega]

end Sys2Proof.Machine
end

