-- ==== Sys2Proof/Laws/Step.lean ====
section
/-! SUPPORT. What executing a word, a transaction and a step can do, said once. -/

namespace Sys2Proof.Machine

/-- A command written to `CMD` has the meaning that its own arm gives it. -/
theorem runCommand_eq_exec {i : Instr} (h : isCommand i = true) (s : State) : runCommand i s = exec i s := by
  cases i <;> first | rfl | simp [isCommand] at h

/-- The decoder yields commands only (R84). -/
theorem isCommand_of_decodeCommand {slots : Nat} {w : Word} {i : Instr} (h : decodeCommand slots w = .ok i) :
    isCommand i = true := by
  obtain ⟨-, h⟩ := decodeCommand_ok h
  unfold decodeOpcode decodeSlot decodeBare at h
  split at h <;> first
    | (cases h; rfl)
    | cases h
    | (split at h
       · cases h; rfl
       · cases h)

/-- What `Execute(w)` does: the decoded command, or IllegalCall (R85). -/
theorem executeWord_cases (w : Word) (s : State) :
    (∃ r, decodeCommand s.params.userSlots w = .error r ∧ executeWord w s = .next (raise .illegalCall s)) ∨
    (∃ i, decodeCommand s.params.userSlots w = .ok i ∧ isCommand i = true ∧ executeWord w s = exec i s) := by
  unfold executeWord
  cases h : decodeCommand s.params.userSlots w with
  | error r => exact .inl ⟨r, rfl, rfl⟩
  | ok i => exact .inr ⟨i, rfl, isCommand_of_decodeCommand h, runCommand_eq_exec (isCommand_of_decodeCommand h) s⟩

/-- What a write transaction does: it executes the word, sets one argument register, or is ignored (R101). -/
theorem execWr_cases (addr : BitVec 3) (w : Word) (s : State) :
    (addr = 0 ∧ execWr addr w s = executeWord w s) ∨
    (∃ k : Fin 4, addr.toNat = 4 + k.val ∧ execWr addr w s = .next (setArg k w s)) ∨
    ((addr = 1 ∨ addr = 2 ∨ addr = 3) ∧ execWr addr w s = .next s) := by
  have h : addr = 0 ∨ addr = 1 ∨ addr = 2 ∨ addr = 3 ∨ addr = 4 ∨ addr = 5 ∨ addr = 6 ∨ addr = 7 := by
    revert addr; decide
  rcases h with rfl | rfl | rfl | rfl | rfl | rfl | rfl | rfl
  · exact .inl ⟨rfl, rfl⟩
  · exact .inr (.inr ⟨.inl rfl, rfl⟩)
  · exact .inr (.inr ⟨.inr (.inl rfl), rfl⟩)
  · exact .inr (.inr ⟨.inr (.inr rfl), rfl⟩)
  · exact .inr (.inl ⟨0, rfl, rfl⟩)
  · exact .inr (.inl ⟨1, rfl, rfl⟩)
  · exact .inr (.inl ⟨2, rfl, rfl⟩)
  · exact .inr (.inl ⟨3, rfl, rfl⟩)

/-- What one step does: nothing, or the first pending event. -/
theorem step_cases (s : State) :
    (s.pending = [] ∧ step s = .next s) ∨
    (∃ e rest, s.pending = e :: rest ∧ eventAccepted e s = false ∧ step s = .next s) ∨
    (∃ e rest, s.pending = e :: rest ∧ eventAccepted e s = true ∧ step s = acceptEvent e { s with pending := rest }) := by
  unfold step stepEvent
  cases h : s.pending with
  | nil => exact .inl ⟨rfl, rfl⟩
  | cons e rest =>
    cases ha : eventAccepted e s with
    | false => exact .inr (.inl ⟨e, rest, rfl, ha, by simp [ha]⟩)
    | true => exact .inr (.inr ⟨e, rest, rfl, ha, by simp [ha]⟩)

/-- A property of the memory that every `MemWrite` keeps holds of what an abandoned command leaves (R230). -/
theorem abandonedMemory_induct (s : State) (P : Memory → Prop)
    (hP : ∀ m a v, P m → P (memWrite s.params.addressWidth m a v)) (i : Instr) (writes : Nat) (h : P s.mem) :
    P (abandonedMemory i writes s) := by
  cases i <;> try exact h
  case rbGetn n =>
    simp only [abandonedMemory, abandonedGetn]
    split
    · exact h
    · exact getWords_mem_induct _ P hP _ _ _ _ h
  case lfoBlock =>
    simp only [abandonedMemory, abandonedBlock]
    split
    · exact h
    · split
      · exact blockFrames_mem_induct _ _ _ P hP _ _ _ _ h
      · split
        · exact blockFrames_mem_induct _ _ _ P hP _ _ _ _ h
        · exact blockChannels_induct _ _ _ _ P (fun m a hm => hP m a _ hm) _ _ _
            (blockFrames_mem_induct _ _ _ P hP _ _ _ _ h)
  case vibProcess =>
    simp only [abandonedMemory, abandonedProcess]
    split
    · exact h
    · split
      · exact vibFrames_mem_induct _ _ _ P hP _ _ _ _ h
      · split
        · exact vibFrames_mem_induct _ _ _ P hP _ _ _ _ h
        · exact vibChannels_mem_induct _ _ _ _ _ P hP _ _ _ _ (vibFrames_mem_induct _ _ _ P hP _ _ _ _ h)

/-- A property of the state that every command keeps, and the port's own updates, is kept by every instruction (R101, R102). -/
theorem exec_invariant (P : State → Prop)
    (hcmd : ∀ i s t, isCommand i = true → P s → exec i s = .next t → P t)
    (hbad : ∀ s, P s → P (raise .illegalCall s))
    (harg : ∀ k v s, P s → P (setArg k v s))
    (hdata : ∀ v s, P s → P { s with rdata := v })
    (i : Instr) (s t : State) (hs : P s) (h : exec i s = .next t) : P t := by
  by_cases hi : isCommand i = true
  · exact hcmd i s t hi hs h
  · cases i <;> first | exact absurd rfl hi | skip
    case wr addr w =>
      have h' : execWr addr w s = .next t := h
      rcases execWr_cases addr w s with ⟨-, e⟩ | ⟨k, -, e⟩ | ⟨-, e⟩
      · rcases executeWord_cases w s with ⟨r, -, e'⟩ | ⟨i, -, hi', e'⟩
        · rw [e, e'] at h'; cases h'; exact hbad s hs
        · rw [e, e'] at h'; exact hcmd i s t hi' hs h'
      · rw [e] at h'; cases h'; exact harg k w s hs
      · rw [e] at h'; cases h'; exact hs
    case rd addr =>
      have h' : execRd addr s = .next t := h
      unfold execRd at h'
      cases h'; exact hdata _ s hs

/-- A property of the state that every instruction keeps, and the events that are no instruction, is kept by every step. -/
theorem step_invariant (P : State → Prop)
    (hexec : ∀ i s t, P s → exec i s = .next t → P t)
    (hpend : ∀ l s, P s → P { s with pending := l })
    (hreset : ∀ s, P s → P (hardwareReset s))
    (hcut : ∀ i k s, P s → P { s with mem := abandonedMemory i k s })
    (hmem : ∀ a v s, P s → P { s with mem := memWrite s.params.addressWidth s.mem a v })
    (s t : State) (hs : P s) (h : step s = .next t) : P t := by
  rcases step_cases s with ⟨-, e⟩ | ⟨_, _, -, -, e⟩ | ⟨ev, rest, -, -, e⟩
  · rw [e] at h; cases h; exact hs
  · rw [e] at h; cases h; exact hs
  · rw [e] at h
    have hp := hpend rest s hs
    cases ev with
    | transaction bits => exact hexec _ _ t hp h
    | hardReset => unfold acceptEvent at h; cases h; exact hreset _ hp
    | resetDuring bits writes =>
      unfold acceptEvent resetDuringTransaction at h
      cases h
      split
      · exact hreset _ hp
      · exact hreset _ (hcut _ _ _ hp)
    | memWrite addr value => unfold acceptEvent at h; cases h; exact hmem _ _ _ hp

end Sys2Proof.Machine
end

