-- ==== Sys2Proof/Tests/Slice0.lean ====
section
/-! SUPPORT. The model's own tests: the smoke test of well-formedness, the decoding of one written word for every instruction,
one-step tests whose expected values are the vectors of spec/95_test_vectors.md and the examples of the command rules, and for
every statement with hypotheses a witness that meets them. -/

namespace Sys2Proof.Tests

-- One theorem after another: the many kernel evaluations below would otherwise wait for one another, each on a thread of its own.
set_option Elab.async false

open Sys2Proof Sys2Proof.Machine

/-! ### Well-formedness: the ill-formed term of each check is refused -/

theorem test_rbCreate_slot_2_ill_formed : Instr.wellFormed 2 (.rbCreate 2) = false := by decide

theorem test_rbDestroy_slot_2_ill_formed : Instr.wellFormed 2 (.rbDestroy 2) = false := by decide

theorem test_rbPut_slot_2_ill_formed : Instr.wellFormed 2 (.rbPut 2) = false := by decide

theorem test_rbPutn_slot_2_ill_formed : Instr.wellFormed 2 (.rbPutn 2) = false := by decide

theorem test_rbGet_slot_2_ill_formed : Instr.wellFormed 2 (.rbGet 2) = false := by decide

theorem test_rbGetpi_slot_2_ill_formed : Instr.wellFormed 2 (.rbGetpi 2) = false := by decide

theorem test_rbGetn_slot_2_ill_formed : Instr.wellFormed 2 (.rbGetn 2) = false := by decide

theorem test_rbSetrd_slot_2_ill_formed : Instr.wellFormed 2 (.rbSetrd 2) = false := by decide

theorem test_rbGetrd_slot_2_ill_formed : Instr.wellFormed 2 (.rbGetrd 2) = false := by decide

theorem test_rbSetwr_slot_2_ill_formed : Instr.wellFormed 2 (.rbSetwr 2) = false := by decide

theorem test_rbGetwr_slot_2_ill_formed : Instr.wellFormed 2 (.rbGetwr 2) = false := by decide

theorem test_slots_0_and_1_well_formed : Instr.wellFormed 2 (.rbPut 0) = true ∧ Instr.wellFormed 2 (.rbPut 1) = true := by decide

/-! ### Decoding: one word of R84 (or pattern of R100) for every instruction, written out from the table -/

theorem test_decode_rbCreate : decodeTableWord 32 0x00000110 = some (.rbCreate 1) := by decide

theorem test_decode_rbDestroy : decodeTableWord 32 0x00000111 = some (.rbDestroy 1) := by decide

theorem test_decode_rbPut : decodeTableWord 32 0x00000112 = some (.rbPut 1) := by decide

theorem test_decode_rbPutn : decodeTableWord 32 0x00000113 = some (.rbPutn 1) := by decide

theorem test_decode_rbGet : decodeTableWord 32 0x00000114 = some (.rbGet 1) := by decide

theorem test_decode_rbGetpi : decodeTableWord 32 0x00000115 = some (.rbGetpi 1) := by decide

theorem test_decode_rbGetn : decodeTableWord 32 0x00000116 = some (.rbGetn 1) := by decide

theorem test_decode_rbSetrd : decodeTableWord 32 0x00000117 = some (.rbSetrd 1) := by decide

theorem test_decode_rbGetrd : decodeTableWord 32 0x00000118 = some (.rbGetrd 1) := by decide

theorem test_decode_rbSetwr : decodeTableWord 32 0x00000119 = some (.rbSetwr 1) := by decide

theorem test_decode_rbGetwr : decodeTableWord 32 0x0000011A = some (.rbGetwr 1) := by decide

theorem test_decode_lfoInit : decodeTableWord 32 0x0000FF20 = some (.lfoInit 0xFF) := by decide

theorem test_decode_lfoReset : decodeTableWord 32 0x00000021 = some .lfoReset := by decide

theorem test_decode_lfoSetfreq : decodeTableWord 32 0x00000022 = some .lfoSetfreq := by decide

theorem test_decode_lfoGetfreq : decodeTableWord 32 0x00000023 = some .lfoGetfreq := by decide

theorem test_decode_lfoNext : decodeTableWord 32 0x00000024 = some .lfoNext := by decide

theorem test_decode_lfoBlock : decodeTableWord 32 0x00000025 = some .lfoBlock := by decide

theorem test_decode_vibInit : decodeTableWord 32 0x00000030 = some .vibInit := by decide

theorem test_decode_vibReset : decodeTableWord 32 0x00000031 = some .vibReset := by decide

theorem test_decode_vibSetparam : decodeTableWord 32 0x00000132 = some (.vibSetparam 1) := by decide

theorem test_decode_vibGetparam : decodeTableWord 32 0x00000733 = some (.vibGetparam 7) := by decide

theorem test_decode_vibProcess : decodeTableWord 32 0x00000034 = some .vibProcess := by decide

theorem test_decode_wr : decodeTableWord 36 0xF3FC00000 = some (.wr 7 0x3FC00000) := by decide

theorem test_decode_rd : decodeTableWord 36 0x100000000 = some (.rd 1) := by decide

/-- Each of the four tests of R85 refuses by its own name. -/
theorem test_decode_rejects :
    decodeCommand 2 0x00010024 = .error .zeroFieldNotZero ∧ decodeCommand 2 0x0000001B = .error .unknownOpcode ∧
    decodeCommand 2 0x00000124 = .error .selectorNotZero ∧ decodeCommand 2 0x00000210 = .error .slotOutOfRange := by decide

/-- The number of slots is a parameter: with three there is a slot 2 (R7, R85). -/
theorem test_decode_third_slot :
    decodeCommand 3 0x00000210 = .ok (.rbCreate 2) ∧ Instr.wellFormed 3 (.rbCreate 2) = true ∧
    decodeBits 3 32 0x00000210 = some (.rbCreate 2) := by decide

/-! ### One step of every instruction -/

/-- The next state of an answer. -/
def after (o : Answer) : State :=
  match o with
  | .next s => s
  | .fault _ => State.reset
  | .refused _ => State.reset

/-- The state after reset with the given argument registers. -/
def withArgs (a0 a1 a2 a3 : Word) : State := { State.reset with args := #v[a0, a1, a2, a3] }

/-- The four-element store 10, 20, 30, 40 of spec/95_test_vectors.md V13. -/
def tens : List Word := [0x41200000, 0x41A00000, 0x41F00000, 0x42200000]

/-- A slot 0 with the given cursors over that store, slot 1 absent. -/
def withTens (rd wr : Nat) (a0 a1 : Word) : State :=
  { withArgs a0 a1 0 0 with urb := [some { cap := 4, rd := rd, wr := wr, store := tens }, none] }

/-- A slot 0 of the given capacity, all zero. -/
def withZeros (cap rd wr : Nat) (a0 : Word) : State :=
  { withArgs a0 0 0 0 with urb := [some { cap := cap, rd := rd, wr := wr, store := List.replicate cap 0 }, none] }

/-- A Ready LFO with the given increment and phase. -/
def withLfo (inc phase a0 a1 a2 a3 : Word) : State :=
  { withArgs a0 a1 a2 a3 with
    ulfo := { ready := true, wave := 0, freq := 0x3F800000, fs := 0x41000000, inc := inc, phase := phase } }

/-- A delay line of V45: D = 3, C = 7. -/
def line : RingBuffer := { cap := 7, rd := 0, wr := 3, store := List.replicate 7 0 }

/-- The engine of V45 after `VIB.INIT f:10000, nch, f:2500, f:1`: D = 3, C = 7, increment 512. -/
def engine (nch : Nat) : Vib :=
  { ready := true, fs := 0x461C4000, nch := nch, modFreq := 0x451C4000, amp := 0x3F800000, ampMin := 0, ampMax := 0x3F800000,
    freqMin := 0, freqMax := 0x451C4000, delay := 3,
    dl := (List.range 8).map fun j => if j < nch then some line else none,
    lfo := { ready := true, wave := 0, freq := 0x451C4000, fs := 0x461C4000, inc := 0x44000000, phase := 0 } }

/-- The engine of V45 with `nch` channels, and input words 1, 2, 3 at 0x100. -/
def withEngines (nch : Nat) (a0 a1 a2 a3 : Word) : State :=
  { withArgs a0 a1 a2 a3 with
    vib := engine nch
    mem := memWrite 32 (memWrite 32 (memWrite 32 [] 0x100 0x3F800000) 0x101 0x40000000) 0x102 0x40400000 }

/-- The engine of V45. -/
def withEngine (a0 a1 a2 a3 : Word) : State := withEngines 1 a0 a1 a2 a3

/-- R112: the example. -/
theorem test_rbCreate_4 :
    slot 0 (after (exec (.rbCreate 0) (withArgs 4 0 0 0))) = some { cap := 4, rd := 0, wr := 0, store := [0, 0, 0, 0] } := by
  decide

/-- V10: a capacity of -2^31 is no capacity. -/
theorem test_rbCreate_negative : (after (exec (.rbCreate 0) (withArgs 0x80000000 0 0 0))).st = 1 := by decide

/-- R113: the example. -/
theorem test_rbDestroy : slot 0 (after (exec (.rbDestroy 0) (withTens 0 0 0 0))) = none := by decide

/-- V11: an absent slot. -/
theorem test_rbDestroy_absent : (after (exec (.rbDestroy 1) { State.reset with st := 2 })).st = 0 := by decide

/-- R114: the example. -/
theorem test_rbPut :
    slot 0 (after (exec (.rbPut 0) (withZeros 4 0 3 0x42200000))) =
      some { cap := 4, rd := 0, wr := 0, store := [0, 0, 0, 0x42200000] } := by decide

/-- V16, the address wrap: the words of 0xFFFFFFFF and of 0. -/
theorem test_rbPutn_wraps :
    slot 0 (after (exec (.rbPutn 0) { withZeros 2 0 0 0xFFFFFFFF with
      args := #v[0xFFFFFFFF, 2, 0, 0], mem := memWrite 32 (memWrite 32 [] 0xFFFFFFFF 0x40E00000) 0 0x41000000 })) =
      some { cap := 2, rd := 0, wr := 0, store := [0x40E00000, 0x41000000] } := by decide +kernel

/-- V13, offset 1.5. -/
theorem test_rbGet : (after (exec (.rbGet 0) (withTens 0 0 0x3FC00000 0))).res = 0x41C80000 := by decide +kernel

/-- V13, offset -0.25 with the read cursor 2. -/
theorem test_rbGet_negative : (after (exec (.rbGet 0) (withTens 2 0 0xBE800000 0))).res = 0x41DC0000 := by decide +kernel

/-- R117: the example. -/
theorem test_rbGetpi :
    (after (exec (.rbGetpi 0) (withTens 3 0 0 0))).res = 0x42200000 ∧
    slot 0 (after (exec (.rbGetpi 0) (withTens 3 0 0 0))) = some { cap := 4, rd := 0, wr := 0, store := tens } := by decide

/-- R118: the example. -/
theorem test_rbGetn :
    [0x200, 0x201, 0x202].map (memRead 32 (after (exec (.rbGetn 0) (withTens 2 0 0x200 3))).mem) =
      [0x41F00000, 0x42200000, 0x41200000] := by decide +kernel

theorem test_rbGetn_cursor :
    slot 0 (after (exec (.rbGetn 0) (withTens 2 0 0x200 3))) = some { cap := 4, rd := 1, wr := 0, store := tens } := by
  decide +kernel

/-- V15: -1 modulo 5. -/
theorem test_rbSetrd :
    slot 0 (after (exec (.rbSetrd 0) (withZeros 5 0 0 0xFFFFFFFF))) =
      some { cap := 5, rd := 4, wr := 0, store := [0, 0, 0, 0, 0] } := by decide

/-- V15: -2^31 modulo 5. -/
theorem test_rbSetwr :
    slot 0 (after (exec (.rbSetwr 0) (withZeros 5 0 0 0x80000000))) =
      some { cap := 5, rd := 0, wr := 2, store := [0, 0, 0, 0, 0] } := by decide

/-- R120: the example. -/
theorem test_rbGetrd : (after (exec (.rbGetrd 0) (withZeros 5 4 1 0))).res = 4 := by decide

theorem test_rbGetwr : (after (exec (.rbGetwr 0) (withZeros 5 4 1 0))).res = 1 := by decide

/-- R142: the example, 100 Hz at 44100 Hz. -/
theorem test_lfoInit : (after (exec (.lfoInit 0) (withArgs 0x42C80000 0x472C4400 0 0))).ulfo.inc = 0x40949B93 := by
  decide +kernel

/-- V20: a waveform that does not exist. -/
theorem test_lfoInit_waveform : (after (exec (.lfoInit 1) (withArgs 0x42C80000 0x472C4400 0 0))).st = 1 := by decide

/-- R143. -/
theorem test_lfoReset : (after (exec .lfoReset (withLfo 0x43800000 0 0 0 0 0))).ulfo.ready = false := by decide

/-- R145: setting 8 Hz at 8 Hz gives an increment of 2048, and keeps the phase. -/
theorem test_lfoSetfreq :
    (after (exec .lfoSetfreq (withLfo 0x43800000 0x43000000 0x41000000 0 0 0))).ulfo =
      { ready := true, wave := 0, freq := 0x41000000, fs := 0x41000000, inc := 0x45000000, phase := 0x43000000 } := by
  decide +kernel

/-- R146: the sentinel. -/
theorem test_lfoGetfreq_sentinel :
    (after (exec .lfoGetfreq State.reset)).res = 0x40000000 ∧ (after (exec .lfoGetfreq State.reset)).st = 2 := by decide

/-- V21, the eighth call: the value at phase 1792, and 2048 wrapped to +0. -/
theorem test_lfoNext_wraps :
    (after (exec .lfoNext (withLfo 0x43800000 0x44E00000 0 0 0 0))).res = 0xBF3504F3 ∧
    (after (exec .lfoNext (withLfo 0x43800000 0x44E00000 0 0 0 0))).ulfo.phase = 0 := by decide +kernel

/-- V25: an infinite increment is stuck at once. -/
theorem test_lfoNext_stuck : (after (exec .lfoNext (withLfo 0x7F800000 0 0 0 0 0))).stuck = true := by decide +kernel

/-- V27: two channels of two frames, the channels 0x10 words apart. -/
theorem test_lfoBlock :
    [0x100, 0x101, 0x110, 0x111].map
      (memRead 32 (after (exec .lfoBlock (withLfo 0x43800000 0 0x100 0x10 2 2))).mem) =
      [0x00000000, 0x3F3504F3, 0x00000000, 0x3F3504F3] := by decide +kernel

/-- V45: what `VIB.INIT f:10000, 1, f:2500, f:1` makes. -/
theorem test_vibInit : (after (exec .vibInit (withArgs 0x461C4000 1 0x451C4000 0x3F800000))).vib = engine 1 := by decide +kernel

/-- V41: an amplitude above 1. -/
theorem test_vibInit_amplitude : (after (exec .vibInit (withArgs 0x461C4000 1 0x451C4000 0x3F800001))).st = 1 := by
  decide +kernel

/-- R174. -/
theorem test_vibReset : (after (exec .vibReset (withEngine 0 0 0 0))).vib = Vib.reset 8 := by decide

/-- R176: the bound itself is accepted, the next value is not. -/
theorem test_vibSetparam :
    (after (exec (.vibSetparam 1) (withEngine 0x451C4000 0 0 0))).st = 0 ∧
    (after (exec (.vibSetparam 1) (withEngine 0x451C4001 0 0 0))).st = 1 := by decide +kernel

/-- R178: the sentinel of an unknown parameter. -/
theorem test_vibGetparam_unknown : (after (exec (.vibGetparam 7) (withEngine 0 0 0 0))).res = 0x40400000 := by decide

/-- V45: the first three outputs. -/
theorem test_vibProcess :
    [0x200, 0x201, 0x202].map (memRead 32 (after (exec .vibProcess (withEngine 0x100 0x200 0x40 3))).mem) =
      [0x00000000, 0x40000000, 0x00000000] := by decide +kernel

/-- V2: a write to `A2` is kept, a write to `ST` is not. -/
theorem test_wr :
    (after (exec (.wr 6 0xDEADBEEF) State.reset)).args = #v[0, 0, 0xDEADBEEF, 0] ∧
    (after (exec (.wr 1 5) State.reset)).st = 0 := by decide

/-- V4: the all-zero word. -/
theorem test_wr_undefined_word : (after (exec (.wr 0 0) State.reset)).st = 3 := by decide

/-- R102. -/
theorem test_rd : (after (exec (.rd 5) (withArgs 1 2 3 4))).rdata = 2 := by decide

/-- A placed command word and a placed 36-bit transaction, in five whole bytes, run in the very next step. -/
theorem test_withFetchWord :
    (after (step (State.reset.withFetchWord 32 0x00000023))).res = 0x40000000 ∧
    (after (step (State.reset.withFetchWord 40 0xF3FC00000))).args = #v[0, 0, 0, 0x3FC00000] ∧
    decodeTableWord 40 0xF3FC00000 = some (.wr 7 0x3FC00000) := by decide

/-- R60, R7: with 4 address bits the CORE's word 0x23 is word 3; that the host's word 0x13 is too is the model's choice (log 18). -/
theorem test_narrow_memory :
    memRead 4 (after (step { State.resetWith { defaultParams with addressWidth := 4 } with pending := [.memWrite 0x13 0x40E00000] })).mem
      0x23 = 0x40E00000 := by decide +kernel

/-- R7: another sine table is read as the default one is. -/
theorem test_another_sine_table :
    (lfoNext (.custom (List.replicate 2048 0x3F000000))
      { ready := true, wave := 0, freq := 0, fs := 0, inc := 0x43800000, phase := 0x44E00000 }).map (fun r => (r.1, r.2.phase)) =
      some (0x3F000000, 0) := by decide +kernel

/-- R71: two channels of stride 0 in place; the second reads the word that the first wrote (its delay line is still silent: a zero). -/
theorem test_vibProcess_in_place :
    (((after (exec .vibProcess (withEngines 2 0x100 0x100 0 1))).vib.dl.map (Option.map fun b => b.store.getD 3 1)).take 2) =
      [some 0x3F800000, some 0x00000000] := by decide +kernel

/-! ### Witnesses for the hypotheses of the statements -/

theorem witness_DecodeOfEncode :
    Instr.wellFormed 2 (.rbGetwr 1) = true := by decide

theorem witness_EncodeOfDecode :
    decodeCommand 2 0x0000011A = .ok (.rbGetwr 1) ∧ BitVec.msb (0x800000000 : BitVec 36) = true ∧
      BitVec.msb (0x7FFFFFFFF : BitVec 36) = false := by decide

theorem witness_UndefinedWordRaisesIllegalCall :
    ∀ i, decodeCommand 2 0x00000135 ≠ .ok i := by
  intro i h
  have e : decodeCommand 2 0x00000135 = .error .unknownOpcode := by decide
  rw [e] at h
  cases h

theorem witness_WritePort :
    decodeCommand 2 0x00000024 = .ok .lfoNext ∧ ∀ i, decodeCommand 2 0x00000210 ≠ .ok i := by
  refine ⟨by decide, ?_⟩
  intro i h
  have e : decodeCommand 2 0x00000210 = .error .slotOutOfRange := by decide
  rw [e] at h
  cases h

theorem witness_StepRunsTransaction :
    ∃ s : State, s.stuck = false ∧ s.pending = .transaction 0x800000024 :: [] :=
  ⟨{ State.reset with pending := [.transaction 0x800000024] }, rfl, rfl⟩

theorem witness_StepRunsPlacedInstruction :
    Instr.wellFormed 2 (.rd 7) = true := by decide

theorem witness_StuckPortBlocks :
    ∃ s s' : State, s.stuck = true ∧ s.pending = .transaction 0 :: [] ∧ HostEvent.transaction 0 ≠ .hardReset ∧
      s'.stuck = true ∧ s'.pending = .hardReset :: [] :=
  ⟨{ State.reset with stuck := true, pending := [.transaction 0] }, { State.reset with stuck := true, pending := [.hardReset] },
    rfl, rfl, by decide, rfl, rfl⟩

theorem witness_HardwareResetValues :
    ∃ s : State, s.stuck = true ∧ s.pending = .hardReset :: [] :=
  ⟨{ State.reset with stuck := true, pending := [.hardReset] }, rfl, rfl⟩

theorem witness_ResetAbandonsCommand_getn :
    ∃ (s : State) (b : RingBuffer), s.stuck = false ∧ s.pending = .resetDuring 0x800000016 3 :: [] ∧
      decodeTransaction 0x800000016 = .wr 0 0x16 ∧ decodeCommand s.params.userSlots 0x16 = .ok (.rbGetn 0) ∧ slot 0 s = some b ∧
      bufferSound s.params.userCapacityMax b ∧ 3 < s.args[1].toNat :=
  ⟨{ withTens 2 0 0x100 4 with pending := [.resetDuring 0x800000016 3] }, { cap := 4, rd := 2, wr := 0, store := tens }, rfl, rfl,
    by decide, by decide, by decide, by unfold bufferSound; decide, by decide⟩

theorem witness_ResetAbandonsCommand_getn_absent :
    ∃ s : State, s.stuck = false ∧ s.pending = .resetDuring 0x800000116 3 :: [] ∧
      decodeTransaction 0x800000116 = .wr 0 0x116 ∧ decodeCommand s.params.userSlots 0x116 = .ok (.rbGetn 1) ∧ slot 1 s = none :=
  ⟨{ withTens 2 0 0x100 4 with pending := [.resetDuring 0x800000116 3] }, rfl, rfl, by decide, by decide, by decide⟩

/-- The LFO of `withLfo` with increment 256, before frame `i`. -/
def quarter (i : Nat) : Lfo := { (withLfo 0x43800000 0 0 0 0 0).ulfo with phase := i2f (256 * i : Nat) }

/-- Its value in frame `i`, for the first two frames. -/
def quarterValue (i : Nat) : Word := if i = 0 then 0 else 0x3F3504F3

theorem quarter_next (i : Nat) (h : i < 2) : lfoNext .standard (quarter i) = some (quarterValue i, quarter (i + 1)) := by
  have : i = 0 ∨ i = 1 := by omega
  rcases this with rfl | rfl <;> decide +kernel

/-- A cut inside frame 1 of two frames of two channels. -/
theorem witness_ResetAbandonsCommand_block :
    ∃ (s : State) (F : Nat) (L : Nat → Lfo) (v : Nat → Word), s.stuck = false ∧ s.pending = .resetDuring 0x800000025 3 :: [] ∧
      decodeTransaction 0x800000025 = .wr 0 0x25 ∧ decodeCommand s.params.userSlots 0x25 = .ok .lfoBlock ∧ s.ulfo.ready = true ∧
      L 0 = s.ulfo ∧ F ≤ s.args[3].toNat ∧ (∀ f, f < F → lfoNext s.params.sine (L f) = some (v f, L (f + 1))) ∧
      F = s.args[3].toNat ∧ 3 < F * s.args[2].toNat :=
  ⟨{ withLfo 0x43800000 0 0x100 0x10 2 2 with pending := [.resetDuring 0x800000025 3] }, 2, quarter, quarterValue, rfl, rfl,
    by decide, by decide, rfl, by decide +kernel, by decide, quarter_next, rfl, by decide⟩

/-- Fewer frames than the command has: enough for the writes made, or up to a stuck frame. -/
theorem witness_ResetAbandonsCommand_block_prefix :
    (2 ≤ (withLfo 0x43800000 0 0x100 0x10 2 5).args[3].toNat ∧ 3 ≤ 2 * (withLfo 0x43800000 0 0x100 0x10 2 5).args[2].toNat ∧
      quarter 0 = (withLfo 0x43800000 0 0x100 0x10 2 5).ulfo) ∧
    (0 ≤ (withLfo 0x7F800000 0 0x100 0x10 2 5).args[3].toNat ∧ (withLfo 0x7F800000 0 0x100 0x10 2 5).ulfo.ready = true ∧
      lfoNext .standard (withLfo 0x7F800000 0 0x100 0x10 2 5).ulfo = none) := by decide +kernel

/-- The memory and the delay lines after `k` channel steps of `VIB.PROCESS`. -/
def accesses (s : State) (sample : Nat → Word) (d : Nat → RingBuffer) : Nat → Memory × (Nat → RingBuffer)
  | 0 => (s.mem, d)
  | k + 1 =>
    let r := accesses s sample d k
    let i := k / s.vib.nch
    let j := k % s.vib.nch
    let b := r.2 j
    let x := memRead s.params.addressWidth r.1 (s.args[0].toNat + j * s.args[2].toNat + i)
    let y := rbInterp { b with store := b.store.set b.wr x } (fmul (fmul (sample i) s.vib.amp) (i2f s.vib.delay))
    (memWrite s.params.addressWidth r.1 (s.args[1].toNat + j * s.args[2].toNat + i) y,
      fun j' => if j' = j then { b with store := b.store.set b.wr x, wr := (b.wr + 1) % b.cap, rd := (b.rd + 1) % b.cap }
        else r.2 j')

/-- Memories and delay lines as `channelAccesses` asks for exist for every state. -/
theorem accesses_channelAccesses (s : State) (sample : Nat → Word) (d : Nat → RingBuffer) (k : Nat) :
    channelAccesses s sample (fun k => (accesses s sample d k).2) (fun k => (accesses s sample d k).1) k :=
  ⟨rfl, by simp [accesses], fun j' h => by simp [accesses, h]⟩

/-- The LFO of the engine of V45 in its first frame. -/
theorem engine_next : lfoNext .standard (engine 2).lfo = some (0, { (engine 2).lfo with phase := 0x44000000 }) := by decide +kernel

theorem delayLine_engine (nch j : Nat) (h : j < nch) (h8 : nch ≤ 8) : (engine nch).dl[j]? = some (some line) := by
  simp [engine, h, show j < 8 by omega]

/-- The engine of V45 meets the invariants of the engine. -/
theorem engine_sound (nch : Nat) (h1 : 1 ≤ nch) (h8 : nch ≤ 8) : vibSound defaultParams (engine nch) := by
  unfold vibSound
  rw [if_pos (by rfl)]
  have hl : ∀ j, j < nch → delayLine (engine nch) j = line := fun j h => by
    simp [delayLine, delayLine_engine nch j h h8]
  refine ⟨h1, h8, by simp [engine, defaultParams, Config.channelsMax], ?_, ?_, rfl, rfl, rfl, ?_, ?_, ?_, rfl, rfl, rfl, ?_⟩
  · intro j hj
    unfold delayLineSound delayLineExists
    rw [hl j hj, hl 0 h1, delayLine_engine nch j hj h8]
    unfold bufferSound
    change _ ∧ _ ∧ line.cap = 2 * 3 + 1 ∧ line.wr = (line.rd + 3) % line.cap ∧ _
    decide
  · intro j hj
    unfold delayLineExists
    have hj' : nch ≤ j := hj
    by_cases h : j < 8
    · simp [engine, h, Nat.not_lt.2 hj']
    · simp [engine, h]
  iterate 3 simp only [engine]; decide +kernel
  · unfold lfoSound
    rw [if_pos (by rfl)]
    refine ⟨rfl, ?_, ?_, ?_, .inr ⟨?_, ?_, ?_⟩⟩ <;> (simp only [engine]; decide +kernel)

/-- A cut inside the only frame of two channels. -/
theorem witness_ResetAbandonsCommand_process :
    ∃ (s : State) (F : Nat) (L : Nat → Lfo) (sample : Nat → Word) (D : Nat → Nat → RingBuffer) (M : Nat → Memory),
      s.stuck = false ∧ s.pending = .resetDuring 0x800000034 1 :: [] ∧ decodeTransaction 0x800000034 = .wr 0 0x34 ∧
      decodeCommand s.params.userSlots 0x34 = .ok .vibProcess ∧ s.vib.ready = true ∧ vibSound s.params s.vib ∧ L 0 = s.vib.lfo ∧
      M 0 = s.mem ∧ (∀ j, j < s.vib.nch → s.vib.dl[j]? = some (some (D 0 j))) ∧ F ≤ s.args[3].toNat ∧
      (∀ f, f < F → lfoNext s.params.sine (L f) = some (sample f, L (f + 1))) ∧
      (∀ k, k < F * s.vib.nch → channelAccesses s sample D M k) ∧ F = s.args[3].toNat ∧ 1 < F * s.vib.nch := by
  refine ⟨{ withEngines 2 0x100 0x200 0x10 1 with pending := [.resetDuring 0x800000034 1] }, 1,
    fun i => if i = 0 then (engine 2).lfo else { (engine 2).lfo with phase := 0x44000000 }, fun _ => 0,
    fun k => (accesses _ (fun _ => 0) (fun _ => line) k).2, fun k => (accesses _ (fun _ => 0) (fun _ => line) k).1, rfl, rfl,
    by decide, by decide, rfl, engine_sound 2 (by decide) (by decide), rfl, rfl,
    fun j h => delayLine_engine 2 j h (by decide), by decide, ?_, fun k _ => accesses_channelAccesses _ _ _ k, rfl, by decide⟩
  intro f hf
  have : f = 0 := by omega
  subst this
  exact engine_next

theorem witness_ResetAbandonsCommand_not_ready :
    State.reset.ulfo.ready = false ∧ State.reset.vib.ready = false ∧ State.reset.stuck = false ∧
      decodeCommand State.reset.params.userSlots 0x25 = .ok .lfoBlock ∧
      decodeCommand State.reset.params.userSlots 0x34 = .ok .vibProcess := by decide

theorem witness_ResetAbandonsCommand_other :
    ∃ s : State, s.stuck = false ∧ s.pending = .resetDuring 0x800000024 0 :: [] ∧
      decodeTransaction 0x800000024 = .wr 0 0x24 ∧ decodeCommand 2 0x24 = .ok .lfoNext ∧ (∀ n, Instr.lfoNext ≠ .rbGetn n) ∧
      Instr.lfoNext ≠ .lfoBlock ∧ Instr.lfoNext ≠ .vibProcess :=
  ⟨{ State.reset with pending := [.resetDuring 0x800000024 0] }, rfl, rfl, by decide, by decide, by simp, by simp, by simp⟩

theorem witness_SoftwareResets :
    State.reset.params.userSlots ≤ 256 ∧ (withTens 0 0 0 0).urb.length = (withTens 0 0 0 0).params.userSlots := by decide

theorem witness_RbCreate :
    ((1 : BitVec 8).toNat < 2 ∧
      (withTens 0 0 0 0).urb[(0 : BitVec 8).toNat]? = some (some { cap := 4, rd := 0, wr := 0, store := tens })) ∧
      ((withArgs 0 0 0 0).urb[(1 : BitVec 8).toNat]? = some none ∧ (withArgs 0 0 0 0).args[0].toInt ≤ 0) ∧
      (65536 : Int) < (withArgs 65537 0 0 0).args[0].toInt ∧
      ((0 : Int) < (withArgs 1 0 0 0).args[0].toInt ∧ (withArgs 1 0 0 0).args[0].toInt ≤ 65536) ∧
      ((0 : Int) < (withArgs 65536 0 0 0).args[0].toInt ∧ (withArgs 65536 0 0 0).args[0].toInt ≤ 65536) := by decide +kernel

theorem witness_RbDestroy :
    (1 : BitVec 8).toNat < 2 := by decide

theorem witness_RbPreamble_and_absent_slots :
    (1 : BitVec 8).toNat < 2 ∧ Instr.rbGet 1 ∈ [Instr.rbPut 1, .rbPutn 1, .rbGet 1] ∧
      (withTens 0 0 0 0).urb[(1 : BitVec 8).toNat]? = some none ∧
      (withTens 0 0 0 0).urb[(0 : BitVec 8).toNat]? = some (some { cap := 4, rd := 0, wr := 0, store := tens }) := by decide +kernel

theorem witness_RbPutAndGetpi :
    ∃ b : RingBuffer, (withTens 3 3 0 0).urb[(0 : BitVec 8).toNat]? = some (some b) ∧ b.store[b.rd]? = some 0x42200000 :=
  ⟨{ cap := 4, rd := 3, wr := 3, store := tens }, by decide, by decide⟩

/-- The ring buffer of `withTens` is sound. -/
theorem tens_sound : bufferSound 65536 { cap := 4, rd := 3, wr := 3, store := tens } := by
  unfold bufferSound; decide

theorem witness_RbPutn_RbGetn_RbGet_CursorCommands :
    ∃ b : RingBuffer, (withTens 3 3 0x100 6).urb[(0 : BitVec 8).toNat]? = some (some b) ∧ bufferSound 65536 b ∧
      2 < (withTens 3 3 0x100 6).args[1].toNat ∧ (withTens 3 3 0x100 6).args[1].toNat ≤ 2 + b.cap :=
  ⟨{ cap := 4, rd := 3, wr := 3, store := tens }, by decide, tens_sound, by decide, by decide⟩

theorem witness_RbPutn_unwritten_position :
    ∀ k, k < 3 → (3 + k) % 4 ≠ 2 := by omega

theorem witness_RbGetn_outside_byte :
    ∀ k, k < 6 → 0x410 / 4 ≠ (0x100 - 2 + k) % 2 ^ 32 := by omega

theorem witness_FractionalRead :
    isFinite 0x7F800000 = false ∧ isFinite 0x7F7FFFFF = true ∧
      bufferSound 65536 { cap := 4, rd := 3, wr := 3, store := tens } := ⟨by decide, by decide, tens_sound⟩

theorem witness_SlotOutOfRange :
    2 ≤ (2 : BitVec 8).toNat ∧ 2 ≤ (255 : BitVec 8).toNat ∧ Instr.rbGetwr 2 ∈ [Instr.rbSetwr 2, .rbGetwr 2] := by decide

theorem witness_FractionInUnitInterval :
    isFinite 0xB3000000 = true ∧ isFinite 0x80000000 = true ∧ fge 0x80000000 0 = true ∧ fge 0x7F7FFFFF 0 = true := by decide +kernel

/-- A two-element ring buffer of the given words. -/
def pair (a c : Word) : RingBuffer := { cap := 2, rd := 0, wr := 0, store := [a, c] }

theorem pair_sound (a c : Word) : bufferSound 65536 (pair a c) := by
  unfold bufferSound pair; simp

theorem witness_ReadAtZeroOffset_finite :
    bufferSound 65536 (pair 0x3F800000 0x40A00000) ∧ (pair 0x3F800000 0x40A00000).store[0]? = some 0x3F800000 ∧
      (pair 0x3F800000 0x40A00000).store[(0 + 1) % 2]? = some 0x40A00000 ∧ isFinite 0x3F800000 = true ∧ magnitude 0x3F800000 ≠ 0 ∧
      isFinite 0x40A00000 = true := ⟨pair_sound _ _, by decide, by decide, by decide, by decide, by decide⟩

theorem witness_ReadAtZeroOffset_zero_and_infinite :
    bufferSound 65536 (pair 0x80000000 0x7F800000) ∧ (pair 0x80000000 0x7F800000).store[0]? = some 0x80000000 ∧
      (pair 0x80000000 0x7F800000).store[(0 + 1) % 2]? = some 0x7F800000 ∧ isFinite 0x80000000 = true ∧
      magnitude 0x80000000 = 0 ∧ isFinite 0x7F800000 = false :=
  ⟨pair_sound _ _, by decide, by decide, by decide, by decide, by decide⟩

theorem witness_ReadAtZeroOffset_zero_and_finite :
    bufferSound 65536 (pair 0x80000000 0x40A00000) ∧ (pair 0x80000000 0x40A00000).store[0]? = some 0x80000000 ∧
      (pair 0x80000000 0x40A00000).store[(0 + 1) % 2]? = some 0x40A00000 ∧ isFinite 0x80000000 = true ∧
      magnitude 0x80000000 = 0 ∧ isFinite 0x40A00000 = true :=
  ⟨pair_sound _ _, by decide, by decide, by decide, by decide, by decide⟩

theorem witness_ConstantInterpolation :
    bufferSound 65536 (pair 0x3F800000 0x3F800000) ∧ (∀ w, w ∈ (pair 0x3F800000 0x3F800000).store → w = 0x3F800000) ∧
      bufferSound 65536 (pair 0 0) ∧ (∀ w, w ∈ (pair 0 0).store → w = 0) ∧ isFinite 0xB3000000 = true :=
  ⟨pair_sound _ _, by simp [pair], pair_sound _ _, by simp [pair], by decide⟩

theorem witness_LfoInit :
    ((1 : BitVec 8) ≠ 0 ∨ fge (withArgs 0 0 0 0).args[0] 0 = false ∨ fgt (withArgs 0 0 0 0).args[1] 0 = false) ∧
      fge (withArgs 0x80000000 1 0 0).args[0] 0x00000000 = true ∧
      fgt (withArgs 0x80000000 1 0 0).args[1] 0x00000000 = true := by decide +kernel

theorem witness_LfoSetfreq_LfoGetfreq :
    State.reset.ulfo.ready = false ∧ (withLfo 0 0 0xBF800000 0 0 0).ulfo.ready = true ∧
      fge (withLfo 0 0 0xBF800000 0 0 0).args[0] 0x00000000 = false ∧
      fge (withLfo 0 0 0x80000000 0 0 0).args[0] 0x00000000 = true := by decide +kernel

theorem witness_LfoNext_no_wrap :
    (withLfo 0x43800000 0 0 0 0 0).ulfo.ready = true ∧
      (∀ i, i < 0 → fgt (wrapped i (fadd (withLfo 0x43800000 0 0 0 0 0).ulfo.phase (withLfo 0x43800000 0 0 0 0 0).ulfo.inc)) 0x44FFE000 = true) ∧
      fgt (wrapped 0 (fadd (withLfo 0x43800000 0 0 0 0 0).ulfo.phase (withLfo 0x43800000 0 0 0 0 0).ulfo.inc)) 0x44FFE000 = false :=
  ⟨rfl, by simp, by decide +kernel⟩

theorem witness_LfoNext_one_wrap :
    (withLfo 0x43800000 0x44E00000 0 0 0 0).ulfo.ready = true ∧
      (∀ i, i < 1 → fgt (wrapped i (fadd 0x44E00000 0x43800000)) 0x44FFE000 = true) ∧
      fgt (wrapped 1 (fadd 0x44E00000 0x43800000)) 0x44FFE000 = false := ⟨rfl, by decide +kernel, by decide +kernel⟩

theorem witness_WrapLoopTermination :
    (isFinite (fadd 0 0x51000000) = true ∧ realUnits (fadd 0 0x51000000) = 2 ^ 35 * (unitsPerOne : Int)) ∧
      (isFinite (fadd 0 0x51000001) = true ∧ realUnits (fadd 0 0x51000001) = (2 ^ 35 + 4096) * (unitsPerOne : Int)) ∧
      (isFinite (fadd 0 0x51000002) = true ∧ (2 ^ 35 + 4096) * (unitsPerOne : Int) < realUnits (fadd 0 0x51000002)) ∧
      fadd 0 0x7F800000 = 0x7F800000 ∧ (withLfo 0x51000000 0 0 0 0 0).ulfo.ready = true := by decide +kernel

theorem witness_WrapLoopTermination_nan :
    isNaN (fadd 0x7FC00000 0) = true := isNaN_nanResult .add 0x7FC00000 0

theorem witness_UnitIncrementWalksTable :
    (withLfo 0x3F800000 0x44FFE000 0 0 0 0).ulfo.ready = true ∧ (0x44FFE000 : Word) = i2f ((2047 : Nat) : Int) ∧
      (0 : Word) = i2f ((0 : Nat) : Int) ∧ sineEntry (withLfo 0x3F800000 0x44FFE000 0 0 0 0).params.sine 2047 ≠ 0x80000000 ∧
      sineEntry State.reset.params.sine 0 ≠ 0x80000000 := by decide +kernel

/-- Every entry of the default table is finite and at most 1 in magnitude. -/
theorem sine_in_unit_interval (i : Nat) (h : i < 2048) : isFinite (sine i) = true ∧ magnitude (sine i) ≤ unitsPerOne := by
  have hq : ∀ i, i < 513 → isFinite (sineQuarter i) = true ∧ magnitude (sineQuarter i) ≤ unitsPerOne := by decide +kernel
  have hh : ∀ i, i ≤ 1024 → isFinite (sineHalf i) = true ∧ magnitude (sineHalf i) ≤ unitsPerOne := fun i h => by
    unfold sineHalf
    split <;> exact hq _ (by omega)
  unfold sine
  split
  · exact hh i ‹_›
  · change isFinite (negate (sineHalf (i - 1024))) = true ∧ magnitude (negate (sineHalf (i - 1024))) ≤ unitsPerOne
    rw [isFinite_negate, magnitude_negate]
    exact hh (i - 1024) (by omega)

theorem witness_UnitIncrementWalksTable_params : paramsLegal State.reset.params := by
  unfold paramsLegal
  refine ⟨by decide, by decide, by decide, by decide, by decide, by decide, by decide, by decide, by decide, by decide,
    fun e h => SineContents.noConfusion h, fun i h => ?_⟩
  obtain ⟨h1, h2⟩ := sine_in_unit_interval i h
  refine ⟨h1, ?_⟩
  rw [show sineEntry State.reset.params.sine i = sine i from rfl]
  unfold realUnits
  split <;> omega

theorem witness_LfoBlock :
    ∃ (L : Nat → Lfo) (v : Nat → Word), (withLfo 0x43800000 0 0x100 0x10 2 1).ulfo.ready = true ∧
      L 0 = (withLfo 0x43800000 0 0x100 0x10 2 1).ulfo ∧
      ∀ i, i < (withLfo 0x43800000 0 0x100 0x10 2 1).args[3].toNat → lfoNext .standard (L i) = some (v i, L (i + 1)) := by
  have h : lfoNext .standard (withLfo 0x43800000 0 0x100 0x10 2 1).ulfo =
      some (0, { (withLfo 0x43800000 0 0x100 0x10 2 1).ulfo with phase := 0x43800000 }) := by decide +kernel
  refine ⟨fun i => if i = 0 then (withLfo 0x43800000 0 0x100 0x10 2 1).ulfo
    else { (withLfo 0x43800000 0 0x100 0x10 2 1).ulfo with phase := 0x43800000 }, fun _ => 0, rfl, rfl, ?_⟩
  intro i hi
  have : i = 0 := by
    change i < 1 at hi
    omega
  subst this
  exact h

theorem witness_LfoBlock_last_element :
    ∀ i' j', i' < 1 → j' < 2 → 0 < i' ∨ (0 = i' ∧ 1 < j') →
      (0x100 + j' * 0x10 + i') % 2 ^ 32 ≠ (0x100 + 1 * 0x10 + 0) % 2 ^ 32 := by omega

theorem witness_LfoBlockStuck :
    ∃ L : Nat → Lfo, (withLfo 0x7F800000 0 0x100 0x10 2 1).ulfo.ready = true ∧ L 0 = (withLfo 0x7F800000 0 0x100 0x10 2 1).ulfo ∧
      0 < (withLfo 0x7F800000 0 0x100 0x10 2 1).args[3].toNat ∧ lfoNext .standard (L 0) = none :=
  ⟨fun _ => (withLfo 0x7F800000 0 0x100 0x10 2 1).ulfo, rfl, rfl, by decide, by decide +kernel⟩

theorem witness_VibInit_invalid :
    ∃ s : State, fgt s.args[0] 0 = false ∨ s.args[1].toInt ≤ 0 := ⟨withArgs 0 0 0 0, .inl (by decide)⟩

theorem witness_VibInit_too_large :
    (fgt (withArgs 0x447A0000 9 0 0x3F800000).args[0] 0 = true ∧ (0 : Int) < (withArgs 0x447A0000 9 0 0x3F800000).args[1].toInt ∧
      fge (withArgs 0x447A0000 9 0 0x3F800000).args[2] 0 = true ∧
      fle (withArgs 0x447A0000 9 0 0x3F800000).args[2] (fdiv (withArgs 0x447A0000 9 0 0x3F800000).args[0] 0x40800000) = true ∧
      fge (withArgs 0x447A0000 9 0 0x3F800000).args[3] 0 = true ∧
      fle (withArgs 0x447A0000 9 0 0x3F800000).args[3] 0x3F800000 = true) ∧
      (8 : Int) < (withArgs 0x447A0000 9 0 0x3F800000).args[1].toInt := by decide +kernel

theorem witness_VibInit_largest_delay :
    (fgt (withArgs 0x49D05FC0 8 0x80000000 0).args[0] 0 = true ∧ (0 : Int) < (withArgs 0x49D05FC0 8 0x80000000 0).args[1].toInt ∧
      fge (withArgs 0x49D05FC0 8 0x80000000 0).args[2] 0 = true ∧
      fle (withArgs 0x49D05FC0 8 0x80000000 0).args[2] (fdiv (withArgs 0x49D05FC0 8 0x80000000 0).args[0] 0x40800000) = true ∧
      fge (withArgs 0x49D05FC0 8 0x80000000 0).args[3] 0 = true ∧
      fle (withArgs 0x49D05FC0 8 0x80000000 0).args[3] 0x3F800000 = true) ∧
      (withArgs 0x49D05FC0 8 0x80000000 0).args[1].toInt ≤ 8 ∧ isFinite (fmul 0x399D4952 0x49D05FC0) = true ∧
      itrunc (fmul 0x399D4952 0x49D05FC0) = (512 : Nat) := by decide +kernel

theorem witness_VibSetparam :
    vibSound (withEngine 0x3F800001 0 0 0).params (withEngine 0x3F800001 0 0 0).vib ∧
      (withEngine 0x3F800001 0 0 0).vib.ready = true ∧ 1 < (2 : BitVec 8).toNat ∧
      fle (withEngine 0x3F800001 0 0 0).args[0] (engine 1).ampMax = false ∧
      fge 0x80000000 (engine 1).ampMin = true ∧ fle 0x80000000 (engine 1).ampMax = true ∧
      fle 0x451C4001 (engine 1).freqMax = false ∧ fge 0x451C4000 (engine 1).freqMin = true ∧
      fle 0x451C4000 (engine 1).freqMax = true :=
  ⟨engine_sound 1 (by decide) (by decide), rfl, by decide, by decide, by decide, by decide, by decide, by decide, by decide⟩

theorem witness_BaseDelay :
    fgt 0x447A0000 0 = true ∧ isFinite (delayProduct 0x447A0000) = true := by decide +kernel

theorem witness_VibSetparam_not_ready :
    vibSound State.reset.params State.reset.vib ∧ State.reset.vib.ready = false := ⟨rfl, rfl⟩

theorem witness_VibGetparam :
    State.reset.vib.ready = false ∧ (withEngine 0 0 0 0).vib.ready = true ∧ 1 < (2 : BitVec 8).toNat := by decide

theorem witness_VibProcessOneFrame :
    ∃ (sample : Word) (l : Lfo) (b : RingBuffer), (withEngine 0x100 0x100 0 1).vib.ready = true ∧
      vibSound (withEngine 0x100 0x100 0 1).params (withEngine 0x100 0x100 0 1).vib ∧ (withEngine 0x100 0x100 0 1).args[3] = 1 ∧
      lfoNext .standard (withEngine 0x100 0x100 0 1).vib.lfo = some (sample, l) ∧ 0 < (withEngine 0x100 0x100 0 1).vib.nch ∧
      (withEngine 0x100 0x100 0 1).vib.dl[0]? = some (some b) :=
  ⟨0, { (engine 1).lfo with phase := 0x44000000 }, { cap := 7, rd := 0, wr := 3, store := List.replicate 7 0 }, rfl, engine_sound 1 (by decide) (by decide), rfl,
    by decide +kernel, by decide, by decide⟩

/-- In place with stride 0, channel 1 reads the word that channel 0 wrote; with the outputs elsewhere it does not. -/
theorem witness_VibProcessOneFrame_overlap :
    vibSound (withEngines 2 0x100 0x100 0 1).params (withEngines 2 0x100 0x100 0 1).vib ∧
      (1 < (withEngines 2 0x100 0x100 0 1).vib.nch ∧
        ((withEngines 2 0x100 0x100 0 1).args[1].toNat + 0 * (withEngines 2 0x100 0x100 0 1).args[2].toNat) % 2 ^ 32 =
          ((withEngines 2 0x100 0x100 0 1).args[0].toNat + 1 * (withEngines 2 0x100 0x100 0 1).args[2].toNat) % 2 ^ 32 ∧
        ∀ h, 0 < h → ¬ h < 1) ∧
      (∀ j', j' < 1 → (0x200 + j' * 0x10) % 2 ^ 32 ≠ (0x100 + 1 * 0x10) % 2 ^ 32) ∧
      (∀ j', 0 < j' → j' < 2 → (0x200 + j' * 0x10) % 2 ^ 32 ≠ (0x200 + 0 * 0x10) % 2 ^ 32) :=
  ⟨engine_sound 2 (by decide) (by decide), ⟨by decide, by decide, by omega⟩, by omega, by omega⟩

theorem witness_VibProcessEdges :
    State.reset.vib.ready = false ∧ (withEngine 0 0 0 0).vib.ready = true ∧ (withEngine 0 0 0 0).args[3] = 0 ∧
      (withEngine 0 0 0 1).args[3] ≠ 0 ∧ lfoNext .standard { (engine 1).lfo with inc := 0x7F800000 } = none := by decide +kernel

theorem witness_BlockSizeIndependence :
    ∃ t1 t2 t3 : State, 1 + 1 < 2 ^ 32 ∧ (withEngine 0 0 0 0).params.addressWidth ≤ 32 ∧
      exec .vibProcess { withEngine 0 0 0 0 with args := #v[0x100, 0x200, 0, BitVec.ofNat 32 1] } = .next t1 ∧ t1.stuck = false ∧
      exec .vibProcess { t1 with args := #v[0x100 + BitVec.ofNat 32 1, 0x200 + BitVec.ofNat 32 1, 0, BitVec.ofNat 32 1] } =
        .next t2 ∧
      exec .vibProcess { withEngine 0 0 0 0 with args := #v[0x100, 0x200, 0, BitVec.ofNat 32 (1 + 1)] } = .next t3 ∧
      t2.stuck = false :=
  ⟨_, _, _, by decide, by decide, rfl, by decide +kernel, rfl, rfl, by decide +kernel⟩

theorem witness_VibProcessNeverStuck :
    (withEngine 0 0 0 3).vib.ready = true ∧ vibSound (withEngine 0 0 0 3).params (withEngine 0 0 0 3).vib ∧
      isFinite (fdiv 0x45000000 (withEngine 0 0 0 3).vib.fs) = true :=
  ⟨rfl, engine_sound 1 (by decide) (by decide), by decide +kernel⟩

theorem witness_UnitsAreSeparate :
    (∃ t, exec (.rbPut 0) (withTens 0 0 1 0) = .next t) ∧ isRingBufferCommand (.rbPut 0) = true ∧
      (∃ t, exec .lfoNext (withLfo 0 0 0 0 0 0) = .next t) ∧ isLfoCommand .lfoNext = true ∧
      (∃ t, exec .vibProcess (withEngine 0 0 0 1) = .next t) ∧ isVibCommand .vibProcess = true ∧ (0 : BitVec 8) ≠ 1 :=
  ⟨⟨_, rfl⟩, rfl, ⟨_, rfl⟩, rfl, ⟨_, rfl⟩, rfl, by decide⟩

theorem witness_CommandsKeepArgumentsAndMemory_EngineIsPrivate :
    ∃ t, isCommand .lfoReset = true ∧ isVibCommand .lfoReset = false ∧ exec .lfoReset (withLfo 0 0 1 2 3 4) = .next t ∧
      (∀ n, Instr.lfoReset ≠ .rbGetn n) ∧ Instr.lfoReset ≠ .lfoBlock ∧ Instr.lfoReset ≠ .vibProcess :=
  ⟨_, rfl, rfl, rfl, by simp, by simp, by simp⟩

theorem witness_FailureIsPrecise_StatusIsACode :
    ∃ t, isCommand (.rbPut 1) = true ∧ exec (.rbPut 1) (withTens 0 0 1 0) = .next t ∧ t.stuck = false ∧ t.st ≠ 0 ∧
      Instr.rbPut 1 ≠ .lfoGetfreq ∧ ∀ p, Instr.rbPut 1 ≠ .vibGetparam p :=
  ⟨_, rfl, rfl, by decide, by decide, by simp, by simp⟩

theorem witness_CapacityIsImmutable :
    ∃ t b b', step { withTens 0 0 1 0 with pending := [.transaction 0x800000012] } = .next t ∧
      slot 0 { withTens 0 0 1 0 with pending := [.transaction 0x800000012] } = some b ∧ slot 0 t = some b' :=
  ⟨_, _, _, rfl, rfl, rfl⟩

theorem witness_StepKeeps :
    ∃ t, statusSound (withEngine 0x100 0x200 0 1) ∧ Memory.wf 32 (withEngine 0x100 0x200 0 1).mem = true ∧
      lfoSound (withEngine 0x100 0x200 0 1).ulfo ∧ vibSound (withEngine 0x100 0x200 0 1).params (withEngine 0x100 0x200 0 1).vib ∧
      step { withEngine 0x100 0x200 0 1 with pending := [.transaction 0x800000034] } = .next t :=
  ⟨_, by unfold statusSound; decide, by decide +kernel, rfl, engine_sound 1 (by decide) (by decide), rfl⟩

theorem witness_StepKeepsUserBuffers :
    ∃ t, userBuffersSound (withTens 3 3 0 0) ∧ step (withTens 3 3 0 0) = .next t := by
  refine ⟨_, ⟨rfl, fun n b h => ?_⟩, rfl⟩
  have hn : n.toNat < 2 := by
    by_contra hn
    have e : (withTens 3 3 0 0).urb[n.toNat]? = none := List.getElem?_eq_none (Nat.not_lt.1 hn)
    unfold slot at h
    rw [e] at h
    cases h
  have h01 : n.toNat = 0 ∨ n.toNat = 1 := by omega
  rcases h01 with e | e <;> simp [slot, withTens, e] at h
  subst h
  exact tens_sound

theorem witness_WordsAreLittleEndian :
    3 < 4 := by decide

theorem witness_SumsCorrectlyRounded_tie :
    isFinite 0x3F800000 = true ∧ isFinite 0x33800000 = true ∧ isFinite 0x3F800001 = true ∧
      isFinite (fadd 0x3F800000 0x33800000) = true ∧ isFinite (fsub 0x3F800000 0xB3800000) = true ∧
      |realUnits (fadd 0x3F800000 0x33800000) - (realUnits 0x3F800000 + realUnits 0x33800000)| =
        |realUnits 0x3F800001 - (realUnits 0x3F800000 + realUnits 0x33800000)| ∧
      realUnits 0x3F800001 ≠ realUnits (fadd 0x3F800000 0x33800000) :=
  ⟨by decide, by decide, by decide, by decide +kernel, by decide +kernel, by decide +kernel, by decide +kernel⟩

/-- Sums: the overflow threshold itself, the value below it, an exact zero and infinite operands. -/
theorem witness_SumsCorrectlyRounded_overflow :
    realUnits 0x7F7FFFFF + realUnits 0x73000000 = overflowUnits ∧ realUnits 0xFF7FFFFF + realUnits 0xF3000000 = -overflowUnits ∧
      |realUnits 0x7F7FFFFF + realUnits 0x72FFFFFF| < overflowUnits ∧ realUnits 0x7F7FFFFF - realUnits 0xF3000000 = overflowUnits ∧
      realUnits 0xFF7FFFFF - realUnits 0x73000000 = -overflowUnits ∧ isFinite (fadd 0x7F7FFFFF 0x72FFFFFF) = true ∧
      realUnits 0x3F800000 + realUnits 0xBF800000 = 0 ∧ realUnits 0x80000000 + realUnits 0x80000000 = 0 ∧
      realUnits 0x80000000 - realUnits 0x00000000 = 0 ∧ isInf 0xFF800000 = true ∧ isInf 0x7F800000 = true ∧
      signBit 0x7F800000 ≠ signBit 0xFF800000 := by decide +kernel

/-- Products and quotients: finite results, a tie, an overflow, a division by zero and infinite operands. -/
theorem witness_ProductsCorrectlyRounded :
    isFinite 0x40400000 = true ∧ isFinite (fmul 0x3F800000 0x40400000) = true ∧ isFinite (fdiv 0x3F800000 0x40400000) = true ∧
      realUnits 0x40400000 ≠ 0 ∧ realUnits 0x80000000 = 0 ∧ isFinite 0x80000000 = true ∧
      isFinite (fmul 0x7F000000 0x40000000) = false ∧ isFinite (fdiv 0x7F000000 0x3F000000) = false ∧
      isInf 0xFF800000 = true ∧ magnitude 0x40400000 ≠ 0 := by decide +kernel

theorem witness_ProductsCorrectlyRounded_tie :
    isFinite (fmul 0x3F800001 0x3FC00000) = true ∧ isFinite 0x3FC00001 = true ∧
      |realUnits (fmul 0x3F800001 0x3FC00000) * (unitsPerOne : Int) - realUnits 0x3F800001 * realUnits 0x3FC00000| =
        |realUnits 0x3FC00001 * (unitsPerOne : Int) - realUnits 0x3F800001 * realUnits 0x3FC00000| ∧
      realUnits 0x3FC00001 ≠ realUnits (fmul 0x3F800001 0x3FC00000) := by decide +kernel

theorem witness_ComparisonsAreReal :
    isFinite 0x80000000 = true ∧ isFinite 0x00000001 = true ∧ isNaN 0x7F800001 = true := by decide

theorem witness_InvalidOperationsGiveNaN :
    isNaN 0x7F800001 = true ∧ isInf 0x7F800000 = true ∧ isInf 0xFF800000 = true ∧ signBit 0x7F800000 ≠ signBit 0xFF800000 ∧
      isFinite 0x80000000 = true ∧ magnitude 0x80000000 = 0 := by decide

theorem witness_SineTableShape :
    0 < 1 ∧ 1023 < 1024 ∧ 2047 < 2048 ∧ sine 512 = 0x3F800000 ∧ sine 1536 = 0xBF800000 := by decide +kernel

end Sys2Proof.Tests
end

section
/-! SUPPORT. Binary32 values as patterns. Bits 30:0 of a word, as a number, are its pattern; the magnitude is a strictly increasing
function of it, so that the order of the values and the neighbours of an exact value are questions about patterns. -/

namespace Sys2Proof.Machine

/-! ### The patterns of the values without sign -/

/-- Bits 30:0 of a word as a number: exponent field and fraction together. -/
def patternOf (x : Word) : Nat := exponentField x * 2 ^ 23 + fractionField x

/-- The magnitude, in units, that the bits 30:0 stand for, the values continued above the largest finite one with the same
rule: what `magnitude` says of a word, as a function of `patternOf` (`magnitude_eq_patternMagnitude`). -/
def patternMagnitude (p : Nat) : Nat :=
  if p < 2 ^ 23 then p else (2 ^ 23 + p % 2 ^ 23) * 2 ^ (p / 2 ^ 23 - 1)

theorem magnitude_eq_patternMagnitude (x : Word) : magnitude x = patternMagnitude (patternOf x) := by
  have hf := fractionField_lt x
  unfold magnitude patternMagnitude patternOf
  by_cases h0 : exponentField x = 0
  · rw [if_pos h0, h0, zero_mul, zero_add, if_pos hf]
  · have hdiv : (exponentField x * 2 ^ 23 + fractionField x) / 2 ^ 23 = exponentField x := by omega
    have hmod : (exponentField x * 2 ^ 23 + fractionField x) % 2 ^ 23 = fractionField x := by omega
    rw [if_neg h0, if_neg (by omega), hdiv, hmod]

/-- A significand `m` with its last place `k` places above one unit stands at the pattern `k * 2^23 + m`, the carry out of the
fraction, `m = 2^24`, included. -/
theorem patternMagnitude_significand {k m : Nat} (hlow : k = 0 ∨ 2 ^ 23 ≤ m) (hhigh : m ≤ 2 ^ 24) :
    patternMagnitude (k * 2 ^ 23 + m) = m * 2 ^ k := by
  unfold patternMagnitude
  by_cases hsub : m < 2 ^ 23
  · obtain rfl : k = 0 := by omega
    rw [zero_mul, zero_add, if_pos hsub, pow_zero, mul_one]
  rw [if_neg (by omega)]
  by_cases hcarry : m = 2 ^ 24
  · have hdiv : (k * 2 ^ 23 + m) / 2 ^ 23 - 1 = k + 1 := by omega
    have hmod : (k * 2 ^ 23 + m) % 2 ^ 23 = 0 := by omega
    rw [hdiv, hmod, hcarry, pow_succ]
    ring
  · have hdiv : (k * 2 ^ 23 + m) / 2 ^ 23 - 1 = k := by omega
    have hmod : 2 ^ 23 + (k * 2 ^ 23 + m) % 2 ^ 23 = m := by omega
    rw [hdiv, hmod]

/-- The values stand in the order of their patterns. -/
theorem patternMagnitude_strictMono : StrictMono patternMagnitude := by
  refine strictMono_nat_of_lt_succ fun p => ?_
  obtain ⟨k, m, rfl, hlow, hhigh⟩ : ∃ k m, p = k * 2 ^ 23 + m ∧ (k = 0 ∨ 2 ^ 23 ≤ m) ∧ m < 2 ^ 24 :=
    ⟨p / 2 ^ 23 - 1, p - (p / 2 ^ 23 - 1) * 2 ^ 23, by omega, by omega, by omega⟩
  rw [add_assoc, patternMagnitude_significand hlow hhigh.le, patternMagnitude_significand (by omega) (by omega)]
  exact Nat.mul_lt_mul_of_pos_right m.lt_succ_self (by positivity)

@[simp] theorem patternMagnitude_zero : patternMagnitude 0 = 0 := rfl

/-- The overflow threshold is half way between the largest finite value and the one that would follow it. -/
theorem two_mul_overflowUnits :
    2 * overflowUnits = (patternMagnitude 0x7F7FFFFF : Int) + (patternMagnitude 0x7F800000 : Int) := by
  unfold overflowUnits unitsPerOne
  norm_num [patternMagnitude]

theorem unitsPerOne_pos : 0 < unitsPerOne := by
  unfold unitsPerOne
  positivity

theorem overflowUnits_pos : 0 < overflowUnits := by
  have := unitsPerOne_pos
  unfold overflowUnits
  positivity

/-! ### Words and patterns -/

theorem isFinite_iff_patternOf_lt (x : Word) : isFinite x = true ↔ patternOf x < 0x7F800000 := by
  have he := exponentField_lt x
  have hf := fractionField_lt x
  simp only [isFinite, patternOf, bne_iff_ne]
  omega

theorem isInf_iff_patternOf_eq (x : Word) : isInf x = true ↔ patternOf x = 0x7F800000 := by
  have he := exponentField_lt x
  have hf := fractionField_lt x
  simp only [isInf, patternOf, Bool.and_eq_true, beq_iff_eq]
  omega

theorem patternOf_mod_two (x : Word) : patternOf x % 2 = fractionField x % 2 := by
  unfold patternOf
  omega

@[simp] theorem patternOf_negate (x : Word) : patternOf (negate x) = patternOf x := by simp [patternOf]

/-- Two words with one sign and one pattern are the same word. -/
theorem eq_of_patternOf_eq {x y : Word} (hs : signBit x = signBit y) (hp : patternOf x = patternOf y) : x = y := by
  apply BitVec.eq_of_toNat_eq
  rw [toNat_fields, toNat_fields, hs]
  exact congrArg _ hp

theorem signBit_ofNat {p : Nat} (hp : p < 2 ^ 31) : signBit (BitVec.ofNat 32 p) = false := by
  simp only [signBit, BitVec.msb_eq_decide, BitVec.toNat_ofNat, decide_eq_false_iff_not]
  omega

theorem patternOf_ofNat {p : Nat} (hp : p < 2 ^ 31) : patternOf (BitVec.ofNat 32 p) = p := by
  have h := toNat_fields (BitVec.ofNat 32 p)
  rw [signBit_ofNat hp, BitVec.toNat_ofNat, Nat.mod_eq_of_lt (by omega)] at h
  simpa [patternOf] using h.symm

/-- The order of the values is that of their patterns with sign. -/
theorem orderKey_eq (x : Word) : orderKey x = if signBit x then -(patternOf x : Int) else (patternOf x : Int) := by
  have h : (x.extractLsb' 0 31).toNat = patternOf x := by
    have hx := toNat_fields x
    have he := exponentField_lt x
    have hf := fractionField_lt x
    simp only [BitVec.extractLsb'_toNat, Nat.shiftRight_zero, patternOf]
    split_ifs at hx <;> omega
  unfold orderKey
  rw [h]

end Sys2Proof.Machine
end

section
/-! SUPPORT. Rounding. The exact value lies between two neighbouring patterns, rounding takes the nearer one or the even one of a
tie, and no other pattern is nearer; the overflow threshold is such a tie. -/

namespace Sys2Proof.Machine

/-! ### Rounding -/

/-- Rounding goes to the integer part or the next integer, to the nearer of the two, in a tie to the even one. -/
theorem roundHalfEven_cases (num den : Nat) :
    (roundHalfEven num den = num / den ∧
      (2 * (num % den) < den ∨ 2 * (num % den) = den ∧ roundHalfEven num den % 2 = 0)) ∨
    (roundHalfEven num den = num / den + 1 ∧
      (den < 2 * (num % den) ∨ 2 * (num % den) = den ∧ roundHalfEven num den % 2 = 0)) := by
  unfold roundHalfEven
  dsimp only
  split_ifs <;> omega

/-- The pattern of `num/den` units rounded, before the overflow to infinity. -/
def roundPattern (num den : Nat) : Nat :=
  (Nat.log2 (num / den) - 23) * 2 ^ 23 + roundHalfEven num (den * 2 ^ (Nat.log2 (num / den) - 23))

theorem roundMagnitude_eq_min (num den : Nat) : roundMagnitude num den = min (roundPattern num den) 0x7F800000 := by
  unfold roundMagnitude roundPattern
  rfl

/-- With the last place that rounding chooses, the integer part is a significand of 24 bits, or of fewer at the lowest place. -/
theorem significand_bounds (n : Nat) :
    (Nat.log2 n - 23 = 0 ∨ 2 ^ 23 ≤ n / 2 ^ (Nat.log2 n - 23)) ∧ n / 2 ^ (Nat.log2 n - 23) < 2 ^ 24 := by
  have hlt : n < 2 ^ (Nat.log2 n + 1) := Nat.lt_log2_self
  constructor
  · rcases Nat.lt_or_ge 23 (Nat.log2 n) with h | h
    · right
      rw [Nat.le_div_iff_mul_le (by positivity), ← pow_add, Nat.add_sub_cancel' h.le]
      exact Nat.log2_self_le (by rintro rfl; simp at h)
    · left; omega
  · rw [Nat.div_lt_iff_lt_mul (by positivity), ← pow_add]
    exact hlt.trans_le (Nat.pow_le_pow_right (by norm_num) (by omega))

/-- Rounding chooses between two neighbouring patterns with the exact value between their values: the lower one where it is
nearer, the upper one where that is, and the even one in a tie. -/
theorem roundPattern_neighbours (num : Nat) {den : Nat} (hd : 0 < den) :
    ∃ lo, patternMagnitude lo * den ≤ num ∧ num < patternMagnitude (lo + 1) * den ∧
      ((roundPattern num den = lo ∧
        (2 * num < patternMagnitude lo * den + patternMagnitude (lo + 1) * den ∨
          2 * num = patternMagnitude lo * den + patternMagnitude (lo + 1) * den ∧ roundPattern num den % 2 = 0)) ∨
      (roundPattern num den = lo + 1 ∧
        (patternMagnitude lo * den + patternMagnitude (lo + 1) * den < 2 * num ∨
          2 * num = patternMagnitude lo * den + patternMagnitude (lo + 1) * den ∧ roundPattern num den % 2 = 0))) := by
  obtain ⟨hlow, hhigh⟩ := significand_bounds (num / den)
  unfold roundPattern
  generalize Nat.log2 (num / den) - 23 = k at *
  rw [Nat.div_div_eq_div_mul] at hlow hhigh
  have hround := roundHalfEven_cases num (den * 2 ^ k)
  have hdivmod := Nat.div_add_mod num (den * 2 ^ k)
  have hmod : num % (den * 2 ^ k) < den * 2 ^ k := Nat.mod_lt _ (by positivity)
  generalize num / (den * 2 ^ k) = q at *
  have hlo : patternMagnitude (k * 2 ^ 23 + q) * den = den * 2 ^ k * q := by
    rw [patternMagnitude_significand hlow hhigh.le]
    ring
  have hhi : patternMagnitude (k * 2 ^ 23 + q + 1) * den = den * 2 ^ k * q + den * 2 ^ k := by
    rw [add_assoc, patternMagnitude_significand (by omega) (by omega : q + 1 ≤ 2 ^ 24)]
    ring
  refine ⟨k * 2 ^ 23 + q, ?_⟩
  rw [hlo, hhi]
  omega

/-- What rounding to the nearest pattern means: no pattern's value is nearer to `num/den`, and where another is as near, the
chosen pattern is even. -/
theorem roundPattern_nearest (num : Nat) {den : Nat} (hd : 0 < den) (p : Nat) :
    |(patternMagnitude (roundPattern num den) : Int) * den - num| ≤ |(patternMagnitude p : Int) * den - num| ∧
    (|(patternMagnitude (roundPattern num den) : Int) * den - num| = |(patternMagnitude p : Int) * den - num| →
      p ≠ roundPattern num den → roundPattern num den % 2 = 0) := by
  obtain ⟨lo, hlo, hhi, hround⟩ := roundPattern_neighbours num hd
  have hbelow : p < lo → patternMagnitude p * den < patternMagnitude lo * den := fun h =>
    Nat.mul_lt_mul_of_pos_right (patternMagnitude_strictMono h) hd
  have habove : lo + 1 < p → patternMagnitude (lo + 1) * den < patternMagnitude p * den := fun h =>
    Nat.mul_lt_mul_of_pos_right (patternMagnitude_strictMono h) hd
  have hp : p < lo ∨ p = lo ∨ p = lo + 1 ∨ lo + 1 < p := by omega
  simp only [Int.abs_eq_natAbs, ← Nat.cast_mul]
  rcases hround with ⟨hr, hnear⟩ | ⟨hr, hnear⟩
  all_goals
    rw [hr] at hnear ⊢
    rcases hp with h | rfl | rfl | h <;> omega

/-- Rounding stays below the pattern of the infinities exactly when the exact value is below the overflow threshold: the threshold
is a tie, and the largest finite pattern is odd. -/
theorem roundPattern_lt_iff (num : Nat) {den : Nat} (hd : 0 < den) :
    roundPattern num den < 0x7F800000 ↔ (num : Int) < overflowUnits * den := by
  have hmax := roundPattern_nearest num hd 0x7F7FFFFF
  have hinf := roundPattern_nearest num hd 0x7F800000
  have hthreshold : 2 * (overflowUnits * den) =
      ((patternMagnitude 0x7F7FFFFF * den + patternMagnitude 0x7F800000 * den : Nat) : Int) := by
    push_cast
    rw [← mul_assoc, two_mul_overflowUnits, add_mul]
  have hmono {p q : Nat} (h : p < q) : patternMagnitude p * den < patternMagnitude q * den :=
    Nat.mul_lt_mul_of_pos_right (patternMagnitude_strictMono h) hd
  have hgap := hmono (show 0x7F7FFFFF < 0x7F800000 by norm_num)
  generalize roundPattern num den = r at *
  have hr : r < 0x7F7FFFFF ∨ r = 0x7F7FFFFF ∨ r = 0x7F800000 ∨ 0x7F800000 < r := by omega
  simp only [Int.abs_eq_natAbs, ← Nat.cast_mul] at hmax hinf
  rcases hr with h | rfl | rfl | h
  · have := hmono h
    omega
  · omega
  · omega
  · have := hmono h
    omega

/-! ### The rounded word -/

/-- An integer with the given sign and magnitude. -/
def signedInt (neg : Bool) (n : Nat) : Int := if neg then -(n : Int) else (n : Int)

theorem realUnits_eq_signedInt (x : Word) : realUnits x = signedInt (signBit x) (magnitude x) := rfl

@[simp] theorem abs_signedInt (neg : Bool) (n : Nat) : |signedInt neg n| = n := by
  cases neg <;> simp [signedInt]

theorem signedInt_mul (s t : Bool) (m n : Nat) : signedInt s m * signedInt t n = signedInt (s != t) (m * n) := by
  cases s <;> cases t <;> simp [signedInt]

@[simp] theorem signedInt_eq_zero {neg : Bool} {n : Nat} : signedInt neg n = 0 ↔ n = 0 := by
  cases neg <;> simp [signedInt]

/-- A signed integer that is far from zero has the sign of that side. -/
theorem of_le_signedInt {neg : Bool} {n : Nat} {m : Int} (hm : 0 < m) (h : m ≤ signedInt neg n) : neg = false ∧ m ≤ n := by
  cases neg <;> simp [signedInt] at * <;> omega

theorem of_signedInt_le {neg : Bool} {n : Nat} {m : Int} (hm : 0 < m) (h : signedInt neg n ≤ -m) : neg = true ∧ m ≤ n := by
  cases neg <;> simp [signedInt] at * <;> omega

/-- An integer is its own sign and magnitude. -/
theorem signedInt_natAbs (n : Int) : signedInt (decide (n < 0)) n.natAbs = n := by
  simp only [signedInt, decide_eq_true_eq]
  split_ifs <;> omega

theorem realUnits_eq_zero_iff (x : Word) : realUnits x = 0 ↔ magnitude x = 0 := signedInt_eq_zero

theorem abs_realUnits (x : Word) : |realUnits x| = magnitude x := abs_signedInt _ _

theorem roundMagnitude_lt (num den : Nat) : roundMagnitude num den < 2 ^ 31 := by
  rw [roundMagnitude_eq_min]
  omega

@[simp] theorem signBit_roundPack (neg : Bool) (num den : Nat) : signBit (roundPack neg num den) = neg := by
  cases neg <;> simp [roundPack, signBit_ofNat (roundMagnitude_lt num den)]

@[simp] theorem patternOf_roundPack (neg : Bool) (num den : Nat) :
    patternOf (roundPack neg num den) = roundMagnitude num den := by
  cases neg <;> simp [roundPack, patternOf_ofNat (roundMagnitude_lt num den)]

/-- A rounded value is finite exactly when the exact one is below the overflow threshold (R15). -/
theorem isFinite_roundPack (neg : Bool) (num : Nat) {den : Nat} (hd : 0 < den) :
    isFinite (roundPack neg num den) = true ↔ (num : Int) < overflowUnits * den := by
  rw [isFinite_iff_patternOf_lt, patternOf_roundPack, roundMagnitude_eq_min, ← roundPattern_lt_iff num hd]
  omega

@[simp] theorem signBit_signedInf (neg : Bool) : signBit (signedInf neg) = neg := by cases neg <;> rfl

@[simp] theorem isInf_signedInf (neg : Bool) : isInf (signedInf neg) = true := by cases neg <;> rfl

/-- An infinity is the one of its sign. -/
theorem eq_signedInf {x : Word} (h : isInf x = true) : x = signedInf (signBit x) := by
  have h' := isInf_signedInf (signBit x)
  rw [isInf_iff_patternOf_eq] at h h'
  exact eq_of_patternOf_eq (signBit_signedInf _).symm (h.trans h'.symm)

/-- A rounded value that is not finite is an infinity (R15). -/
theorem isInf_roundPack {neg : Bool} {num den : Nat} (h : isFinite (roundPack neg num den) = false) :
    isInf (roundPack neg num den) = true := by
  rw [← Bool.not_eq_true, isFinite_iff_patternOf_lt] at h
  rw [isInf_iff_patternOf_eq]
  rw [patternOf_roundPack, roundMagnitude_eq_min] at *
  omega

/-- From the overflow threshold on, rounding gives the infinity of the sign (R15). -/
theorem roundPack_eq_signedInf (neg : Bool) {num den : Nat} (hd : 0 < den) (h : overflowUnits * den ≤ num) :
    roundPack neg num den = signedInf neg := by
  have hfin : isFinite (roundPack neg num den) = false := by
    rw [← Bool.not_eq_true, isFinite_roundPack neg num hd]
    omega
  simpa using eq_signedInf (isInf_roundPack hfin)

/-- A zero is what rounding makes of an exact zero. -/
theorem roundPack_zero (neg : Bool) (den : Nat) : roundPack neg 0 den = signedZero neg := by
  have h : roundMagnitude 0 den = 0 := by
    rw [roundMagnitude_eq_min]
    simp [roundPattern, roundHalfEven]
  cases neg <;> simp [roundPack, signedZero, h] <;> rfl

/-! ### Nearest, ties to even -/

/-- Changing every sign keeps what is nearest. -/
theorem nearestEven_negate {r : Word} {scale exact : Int} (h : nearestEven r scale exact) :
    nearestEven (negate r) scale (-exact) := by
  intro c hc
  have hdist (x : Word) : |realUnits (negate x) * scale - -exact| = |realUnits x * scale - exact| := by
    rw [realUnits_negate, ← abs_neg]
    congr 1
    ring
  obtain ⟨d, rfl⟩ : ∃ d, c = negate d := ⟨negate c, (negate_negate c).symm⟩
  rw [hdist, hdist, fractionField_negate, realUnits_negate, realUnits_negate, ne_eq, neg_inj]
  exact h d (by simpa using hc)

/-- A quotient keeps what is nearest when the signs of both of its parts change. -/
theorem nearestEven_neg_neg {r : Word} {scale exact : Int} (h : nearestEven r scale exact) :
    nearestEven r (-scale) (-exact) := by
  intro c hc
  have hdist (x : Word) : |realUnits x * -scale - -exact| = |realUnits x * scale - exact| := by
    rw [← abs_neg]
    congr 1
    ring
  rw [hdist, hdist]
  exact h c hc

/-- A word without sign at the rounded pattern is nearest: a value below zero is farther away than zero is, and the others are
compared by their patterns. -/
theorem nearestEven_of_patternOf_eq {r : Word} {num den : Nat} (hd : 0 < den) (hs : signBit r = false)
    (hp : patternOf r = roundPattern num den) : nearestEven r den num := by
  intro c _
  have hr : realUnits r = patternMagnitude (roundPattern num den) := by
    rw [realUnits_eq_signedInt, hs, magnitude_eq_patternMagnitude, hp]
    rfl
  rw [← patternOf_mod_two, hp, hr]
  rcases lt_or_ge (realUnits c) 0 with hneg | hpos
  · have hzero := (roundPattern_nearest num hd 0).1
    have hfar : |(patternMagnitude 0 : Int) * den - num| < |realUnits c * den - num| := by
      have : realUnits c * den < 0 := mul_neg_of_neg_of_pos hneg (by exact_mod_cast hd)
      rw [patternMagnitude_zero, Int.abs_eq_natAbs, Int.abs_eq_natAbs]
      omega
    exact ⟨(hzero.trans_lt hfar).le, fun h => absurd h (hzero.trans_lt hfar).ne⟩
  · have hc : realUnits c = patternMagnitude (patternOf c) := by
      rw [← magnitude_eq_patternMagnitude, ← abs_realUnits, abs_of_nonneg hpos]
    obtain ⟨hle, htie⟩ := roundPattern_nearest num hd (patternOf c)
    rw [hc]
    exact ⟨hle, fun h hne => htie h fun he => hne (by rw [he])⟩

/-- A finite rounded value is nearest to the exact one, in a tie the even one (R15). -/
theorem nearestEven_roundPack {neg : Bool} {num den : Nat} (hd : 0 < den) (hfin : isFinite (roundPack neg num den) = true) :
    nearestEven (roundPack neg num den) den (signedInt neg num) := by
  have hpos : nearestEven (roundPack false num den) den num := by
    refine nearestEven_of_patternOf_eq hd (signBit_roundPack ..) ?_
    rw [isFinite_iff_patternOf_lt] at hfin
    rw [patternOf_roundPack, roundMagnitude_eq_min] at *
    omega
  cases neg with
  | false => exact hpos
  | true => exact nearestEven_negate hpos

/-- The same of a quotient whose divisor has the sign `t`. -/
theorem nearestEven_roundPack_quotient {s t : Bool} {num den : Nat} (hd : 0 < den)
    (hfin : isFinite (roundPack (s != t) num den) = true) :
    nearestEven (roundPack (s != t) num den) (signedInt t den) (signedInt s num) := by
  have hnear := nearestEven_roundPack hd hfin
  cases t with
  | false => simpa [signedInt] using hnear
  | true =>
    have hsign : signedInt s num = -signedInt (s != true) num := by cases s <;> simp [signedInt]
    rw [hsign]
    exact nearestEven_neg_neg hnear

end Sys2Proof.Machine
end

section
/-! SUPPORT. What each operation answers for each kind of operand: a NaN, an infinity, a finite value. -/

namespace Sys2Proof.Machine

/-! ### The operations on each kind of operand -/

theorem isNaN_of_isFinite {x : Word} (h : isFinite x = true) : isNaN x = false := by
  simp_all [isNaN, isFinite]

theorem isInf_of_isFinite {x : Word} (h : isFinite x = true) : isInf x = false := by
  simp_all [isInf, isFinite]

theorem isNaN_of_isInf {x : Word} (h : isInf x = true) : isNaN x = false := by
  simp_all [isNaN, isInf]

theorem magnitude_ne_zero_of_isInf {x : Word} (h : isInf x = true) : magnitude x ≠ 0 := by
  rw [magnitude_eq_patternMagnitude, (isInf_iff_patternOf_eq x).1 h]
  simp [patternMagnitude]

/-- An operation with a NaN operand produces a NaN (R15). -/
theorem fadd_eq_nanResult {a b : Word} (h : isNaN a = true ∨ isNaN b = true) : fadd a b = nanResult .add a b := by
  simp [fadd, h]

theorem fsub_eq_nanResult {a b : Word} (h : isNaN a = true ∨ isNaN b = true) : fsub a b = nanResult .sub a b := by
  simp [fsub, h]

theorem fmul_eq_nanResult {a b : Word} (h : isNaN a = true ∨ isNaN b = true) : fmul a b = nanResult .mul a b := by
  simp [fmul, h]

theorem fdiv_eq_nanResult {a b : Word} (h : isNaN a = true ∨ isNaN b = true) : fdiv a b = nanResult .div a b := by
  simp [fdiv, h]

theorem fadd_eq_addValues {a b : Word} (ha : isNaN a = false) (hb : isNaN b = false) :
    fadd a b = addValues (nanResult .add a b) a b := by
  simp [fadd, ha, hb]

/-- A difference is the sum with the second operand's sign changed (R15). -/
theorem fsub_eq_addValues {a b : Word} (ha : isNaN a = false) (hb : isNaN b = false) :
    fsub a b = addValues (nanResult .sub a b) a (negate b) := by
  simp [fsub, ha, hb]

theorem addValues_inf_left {nan a b : Word} (ha : isInf a = true) (h : isInf b = true → signBit a = signBit b) :
    addValues nan a b = a := by
  cases hb : isInf b with
  | false => simp [addValues, ha, hb]
  | true => simp [addValues, ha, hb, h hb]

theorem addValues_inf_right {nan a b : Word} (ha : isInf a = false) (hb : isInf b = true) : addValues nan a b = b := by
  simp [addValues, ha, hb]

theorem addValues_inf_cancel {nan a b : Word} (ha : isInf a = true) (hb : isInf b = true) (h : signBit a ≠ signBit b) :
    addValues nan a b = nan := by
  simp [addValues, ha, hb, h]

theorem addValues_finite_zero {nan a b : Word} (ha : isFinite a = true) (hb : isFinite b = true)
    (h : realUnits a + realUnits b = 0) : addValues nan a b = signedZero (signBit a && signBit b) := by
  simp [addValues, isInf_of_isFinite ha, isInf_of_isFinite hb, h]

/-- A sum of finite values is the exact sum rounded, with the sign of it; a zero has one too. -/
theorem addValues_eq_roundPack (nan : Word) {a b : Word} (ha : isFinite a = true) (hb : isFinite b = true) :
    ∃ neg n, addValues nan a b = roundPack neg n 1 ∧ realUnits a + realUnits b = signedInt neg n := by
  by_cases h : realUnits a + realUnits b = 0
  · exact ⟨signBit a && signBit b, 0, by rw [addValues_finite_zero ha hb h, roundPack_zero],
      by rw [h, signedInt_eq_zero.2 rfl]⟩
  · exact ⟨_, _, by simp [addValues, isInf_of_isFinite ha, isInf_of_isFinite hb, h], (signedInt_natAbs _).symm⟩

theorem fmul_inf {a b : Word} (ha : isNaN a = false) (hb : isNaN b = false) (hinf : isInf a = true ∨ isInf b = true)
    (ha0 : magnitude a ≠ 0) (hb0 : magnitude b ≠ 0) : fmul a b = signedInf (signBit a != signBit b) := by
  simp [fmul, ha, hb, hinf, ha0, hb0]

theorem fmul_inf_zero {a b : Word} (ha : isNaN a = false) (hb : isNaN b = false) (hinf : isInf a = true ∨ isInf b = true)
    (h0 : magnitude a = 0 ∨ magnitude b = 0) : fmul a b = nanResult .mul a b := by
  simp [fmul, ha, hb, hinf, h0]

/-- A product of finite values is the exact product rounded, with the sign of the operands' signs (R15). -/
theorem fmul_eq_roundPack {a b : Word} (ha : isFinite a = true) (hb : isFinite b = true) :
    fmul a b = roundPack (signBit a != signBit b) (magnitude a * magnitude b) unitsPerOne := by
  simp [fmul, isNaN_of_isFinite ha, isNaN_of_isFinite hb, isInf_of_isFinite ha, isInf_of_isFinite hb]

theorem fdiv_inf_inf {a b : Word} (ha : isInf a = true) (hb : isInf b = true) : fdiv a b = nanResult .div a b := by
  simp [fdiv, ha, hb]

theorem fdiv_inf_finite {a b : Word} (ha : isInf a = true) (hb : isFinite b = true) :
    fdiv a b = signedInf (signBit a != signBit b) := by
  simp [fdiv, ha, isNaN_of_isInf ha, isNaN_of_isFinite hb, isInf_of_isFinite hb]

theorem fdiv_finite_inf {a b : Word} (ha : isFinite a = true) (hb : isInf b = true) :
    fdiv a b = signedZero (signBit a != signBit b) := by
  simp [fdiv, hb, isNaN_of_isFinite ha, isNaN_of_isInf hb, isInf_of_isFinite ha]

theorem fdiv_zero {a b : Word} (ha : isFinite a = true) (hb : isFinite b = true) (ha0 : magnitude a ≠ 0) (hb0 : magnitude b = 0) :
    fdiv a b = signedInf (signBit a != signBit b) := by
  simp [fdiv, isNaN_of_isFinite ha, isNaN_of_isFinite hb, isInf_of_isFinite ha, isInf_of_isFinite hb, ha0, hb0]

theorem fdiv_zero_zero {a b : Word} (ha : isFinite a = true) (hb : isFinite b = true) (ha0 : magnitude a = 0)
    (hb0 : magnitude b = 0) : fdiv a b = nanResult .div a b := by
  simp [fdiv, isInf_of_isFinite ha, isInf_of_isFinite hb, ha0, hb0]

/-- A quotient by a non-zero value is the exact quotient rounded, with the sign of the operands' signs (R15). -/
theorem fdiv_eq_roundPack {a b : Word} (ha : isFinite a = true) (hb : isFinite b = true) (hb0 : magnitude b ≠ 0) :
    fdiv a b = roundPack (signBit a != signBit b) (magnitude a * unitsPerOne) (magnitude b) := by
  simp [fdiv, isNaN_of_isFinite ha, isNaN_of_isFinite hb, isInf_of_isFinite ha, isInf_of_isFinite hb, hb0]

end Sys2Proof.Machine
end

section
/-! The obligations on the arithmetic of R15: invalid operations, comparisons, sums and products. -/

namespace Sys2Proof.Machine

/-! ### Invalid operations and comparisons -/

/-- Settles O59: each invalid operation takes the branch that answers `nanResult`, which is a NaN. -/
theorem invalidOperationsGiveNaN : Obligations.InvalidOperationsGiveNaN := by
  intro a b
  refine ⟨fun h => ?_, fun ha hb hs => ?_, fun ha hb hs => ?_, fun ha hb hb0 => ?_, fun ha ha0 hb hb0 => ?_, fun ha hb => ?_⟩
  · rw [fadd_eq_nanResult h, fsub_eq_nanResult h, fmul_eq_nanResult h, fdiv_eq_nanResult h]
    exact ⟨isNaN_nanResult .., isNaN_nanResult .., isNaN_nanResult .., isNaN_nanResult ..⟩
  · rw [fadd_eq_addValues (isNaN_of_isInf ha) (isNaN_of_isInf hb), addValues_inf_cancel ha hb hs]
    exact isNaN_nanResult ..
  · rw [fsub_eq_addValues (isNaN_of_isInf ha) (isNaN_of_isInf hb),
      addValues_inf_cancel ha (by rwa [isInf_negate]) (by simp [hs])]
    exact isNaN_nanResult ..
  · rw [fmul_inf_zero (isNaN_of_isInf ha) (isNaN_of_isFinite hb) (.inl ha) (.inr hb0),
      fmul_inf_zero (isNaN_of_isFinite hb) (isNaN_of_isInf ha) (.inr ha) (.inl hb0)]
    exact ⟨isNaN_nanResult .., isNaN_nanResult ..⟩
  · rw [fdiv_zero_zero ha hb ha0 hb0]
    exact isNaN_nanResult ..
  · rw [fdiv_inf_inf ha hb]
    exact isNaN_nanResult ..

/-- The order of the patterns with sign is the order of the real values. -/
theorem orderKey_lt_iff (a b : Word) : orderKey a < orderKey b ↔ realUnits a < realUnits b := by
  have hlt (x y : Word) : magnitude x < magnitude y ↔ patternOf x < patternOf y := by
    rw [magnitude_eq_patternMagnitude, magnitude_eq_patternMagnitude]
    exact patternMagnitude_strictMono.lt_iff_lt
  have hzero (x : Word) : magnitude x = 0 ↔ patternOf x = 0 := by
    rw [magnitude_eq_patternMagnitude]
    exact patternMagnitude_strictMono.injective.eq_iff' patternMagnitude_zero
  have := hlt a b
  have := hlt b a
  have := hzero a
  have := hzero b
  rw [orderKey_eq, orderKey_eq, realUnits, realUnits]
  cases signBit a <;> cases signBit b <;> simp only [Bool.false_eq_true, if_true, if_false] <;> omega

theorem orderKey_le_iff (a b : Word) : orderKey a ≤ orderKey b ↔ realUnits a ≤ realUnits b := by
  rw [← not_lt, ← not_lt, orderKey_lt_iff]

theorem flt_iff_realUnits {a b : Word} (ha : isFinite a = true) (hb : isFinite b = true) :
    flt a b = true ↔ realUnits a < realUnits b := by
  simp [flt, isNaN_of_isFinite ha, isNaN_of_isFinite hb, orderKey_lt_iff]

theorem fle_iff_realUnits {a b : Word} (ha : isFinite a = true) (hb : isFinite b = true) :
    fle a b = true ↔ realUnits a ≤ realUnits b := by
  simp [fle, isNaN_of_isFinite ha, isNaN_of_isFinite hb, orderKey_le_iff]

/-- Settles O58: patterns with sign stand in the order of the real values, and a NaN makes every comparison false. -/
theorem comparisonsAreReal : Obligations.ComparisonsAreReal := by
  refine fun a b => ⟨fun ha hb => ?_, fun h => ?_⟩
  · exact ⟨flt_iff_realUnits ha hb, fle_iff_realUnits ha hb, flt_iff_realUnits hb ha, fle_iff_realUnits hb ha⟩
  · rw [fgt_def, fge_def]
    rcases h with ha | hb
    · exact ⟨flt_nan_left b ha, fle_nan_left b ha, flt_nan_right b ha, fle_nan_right b ha⟩
    · exact ⟨flt_nan_right a hb, fle_nan_right a hb, flt_nan_left a hb, fle_nan_left a hb⟩

/-! ### Sums and differences -/

/-- R15 of a sum of two finite values: what `SumsCorrectlyRounded` says of it. -/
theorem addValues_correctlyRounded (nan : Word) {a b : Word} (ha : isFinite a = true) (hb : isFinite b = true) :
    (isFinite (addValues nan a b) = true ↔ |realUnits a + realUnits b| < overflowUnits) ∧
    (isFinite (addValues nan a b) = true → nearestEven (addValues nan a b) 1 (realUnits a + realUnits b)) ∧
    (overflowUnits ≤ realUnits a + realUnits b → addValues nan a b = signedInf false) ∧
    (realUnits a + realUnits b ≤ -overflowUnits → addValues nan a b = signedInf true) ∧
    (realUnits a + realUnits b = 0 → addValues nan a b = signedZero (signBit a && signBit b)) := by
  have hpos := overflowUnits_pos
  have hzero := addValues_finite_zero (nan := nan) ha hb
  obtain ⟨neg, n, hround, hexact⟩ := addValues_eq_roundPack nan ha hb
  have hfin := isFinite_roundPack neg n one_pos
  have hover := roundPack_eq_signedInf neg (num := n) one_pos
  rw [Nat.cast_one, mul_one] at hfin hover
  refine ⟨?_, ?_, fun h => ?_, fun h => ?_, hzero⟩
  · rw [hround, hexact, abs_signedInt, hfin]
  · rw [hround, hexact]
    exact nearestEven_roundPack one_pos
  · obtain ⟨rfl, hn⟩ := of_le_signedInt hpos (hexact ▸ h)
    rw [hround, hover hn]
  · obtain ⟨rfl, hn⟩ := of_signedInt_le hpos (hexact ▸ h)
    rw [hround, hover hn]

/-- Settles O56: the sum is `addValues` of the operands, the difference that of the first and the second with its sign changed. -/
theorem sumsCorrectlyRounded : Obligations.SumsCorrectlyRounded := by
  refine ⟨fun a b ha hb => ?_, fun a b ha => ⟨fun hb => ?_, fun hb hs => ?_, fun hb hs => ?_⟩⟩
  · have hna := isNaN_of_isFinite ha
    have hnb := isNaN_of_isFinite hb
    obtain ⟨hfin, hnear, hpos, hneg, hzero⟩ := addValues_correctlyRounded (nanResult .add a b) ha hb
    obtain ⟨hfin', hnear', hpos', hneg', hzero'⟩ :=
      addValues_correctlyRounded (nanResult .sub a b) ha (by rwa [isFinite_negate] : isFinite (negate b) = true)
    rw [realUnits_negate, ← sub_eq_add_neg] at hfin' hnear' hpos' hneg' hzero'
    rw [signBit_negate] at hzero'
    rw [fadd_eq_addValues hna hnb, fsub_eq_addValues hna hnb]
    exact ⟨hfin, hnear, hpos, hneg, hzero, hfin', hnear', hpos', hneg', hzero'⟩
  · have hna := isNaN_of_isInf ha
    have hnb := isNaN_of_isFinite hb
    have hib := isInf_of_isFinite hb
    rw [fadd_eq_addValues hna hnb, fadd_eq_addValues hnb hna, fsub_eq_addValues hna hnb, fsub_eq_addValues hnb hna]
    exact ⟨addValues_inf_left ha (by simp [hib]), addValues_inf_right hib ha, addValues_inf_left ha (by simp [hib]),
      addValues_inf_right hib (by rwa [isInf_negate])⟩
  · rw [fadd_eq_addValues (isNaN_of_isInf ha) (isNaN_of_isInf hb)]
    exact addValues_inf_left ha fun _ => hs
  · rw [fsub_eq_addValues (isNaN_of_isInf ha) (isNaN_of_isInf hb)]
    exact addValues_inf_left ha fun _ => by rw [signBit_negate, Bool.eq_not_iff]; exact hs

/-! ### Products and quotients -/

/-- The infinity and the zero of a product's sign, as the statements write them. -/
theorem signedInf_bne (s t : Bool) : signedInf (s != t) = if s = t then 0x7F800000 else 0xFF800000 := by
  cases s <;> cases t <;> rfl

theorem signedZero_bne (s t : Bool) : signedZero (s != t) = if s = t then 0x00000000 else 0x80000000 := by
  cases s <;> cases t <;> rfl

/-- R15 of a product of finite values: what `ProductsCorrectlyRounded` says of it. -/
theorem fmul_correctlyRounded {a b : Word} (ha : isFinite a = true) (hb : isFinite b = true) :
    signBit (fmul a b) = (signBit a != signBit b) ∧
    (isFinite (fmul a b) = true ↔ |realUnits a * realUnits b| < overflowUnits * (unitsPerOne : Int)) ∧
    (isFinite (fmul a b) = true → nearestEven (fmul a b) (unitsPerOne : Int) (realUnits a * realUnits b)) ∧
    (isFinite (fmul a b) = false → isInf (fmul a b) = true) := by
  rw [fmul_eq_roundPack ha hb, realUnits_eq_signedInt, realUnits_eq_signedInt, signedInt_mul, abs_signedInt]
  exact ⟨signBit_roundPack .., isFinite_roundPack _ _ unitsPerOne_pos, nearestEven_roundPack unitsPerOne_pos, isInf_roundPack⟩

/-- R15 of a quotient of finite values, the divisor no zero: what `ProductsCorrectlyRounded` says of it. -/
theorem fdiv_correctlyRounded {a b : Word} (ha : isFinite a = true) (hb : isFinite b = true) (hb0 : magnitude b ≠ 0) :
    signBit (fdiv a b) = (signBit a != signBit b) ∧
    (isFinite (fdiv a b) = true ↔ |realUnits a| * (unitsPerOne : Int) < overflowUnits * |realUnits b|) ∧
    (isFinite (fdiv a b) = true → nearestEven (fdiv a b) (realUnits b) (realUnits a * (unitsPerOne : Int))) ∧
    (isFinite (fdiv a b) = false → isInf (fdiv a b) = true) := by
  have hd := Nat.pos_of_ne_zero hb0
  rw [fdiv_eq_roundPack ha hb hb0, abs_realUnits, abs_realUnits, ← Nat.cast_mul]
  have hexact : realUnits a * (unitsPerOne : Int) = signedInt (signBit a) (magnitude a * unitsPerOne) := by
    cases h : signBit a <;> simp [realUnits, signedInt, h]
  rw [hexact]
  exact ⟨signBit_roundPack .., isFinite_roundPack _ _ hd, nearestEven_roundPack_quotient hd, isInf_roundPack⟩

/-- Settles O57: both are the exact value rounded, with the sign of the operands' signs. -/
theorem productsCorrectlyRounded : Obligations.ProductsCorrectlyRounded := by
  refine ⟨fun a b ha hb => ?_, fun a b ha => ⟨fun hb => ?_, fun hb => ?_⟩⟩
  · obtain ⟨hsign, hfin, hnear, hinf⟩ := fmul_correctlyRounded ha hb
    refine ⟨hsign, hfin, hnear, hinf, fun hb0 => ?_, fun hb0 ha0 => ?_⟩
    · exact fdiv_correctlyRounded ha hb (mt (realUnits_eq_zero_iff b).2 hb0)
    · rw [fdiv_zero ha hb (mt (realUnits_eq_zero_iff a).2 ha0) ((realUnits_eq_zero_iff b).1 hb0), signedInf_bne]
  · obtain ⟨hnb, hb0⟩ : isNaN b = false ∧ magnitude b ≠ 0 :=
      hb.elim (fun h => ⟨isNaN_of_isInf h, magnitude_ne_zero_of_isInf h⟩) (And.imp_left isNaN_of_isFinite)
    have hna := isNaN_of_isInf ha
    have ha0 := magnitude_ne_zero_of_isInf ha
    rw [fmul_inf hna hnb (.inl ha) ha0 hb0, fmul_inf hnb hna (.inr ha) hb0 ha0, bne_comm (a := signBit b), signedInf_bne]
    exact ⟨rfl, rfl⟩
  · rw [fdiv_inf_finite ha hb, fdiv_finite_inf hb ha, bne_comm (a := signBit b), signedInf_bne, signedZero_bne]
    exact ⟨rfl, rfl⟩

end Sys2Proof.Machine
end

section
/-! SUPPORT. The range of a phase (R29). Rounding is monotone towards a value that needs no rounding, so a sum that is exactly above
such a bound stays there; an increment is never below zero, and the wrap loop never takes a phase to -1. -/

namespace Sys2Proof.Machine

/-! ### Comparisons, infinities included -/

theorem flt_iff {a b : Word} : flt a b = true ↔ isNaN a = false ∧ isNaN b = false ∧ realUnits a < realUnits b := by
  simp [flt, orderKey_lt_iff, and_assoc]

theorem fle_iff {a b : Word} : fle a b = true ↔ isNaN a = false ∧ isNaN b = false ∧ realUnits a ≤ realUnits b := by
  simp [fle, orderKey_le_iff, and_assoc]

theorem fge_posZero_iff {x : Word} : fge x posZero = true ↔ isNaN x = false ∧ 0 ≤ realUnits x := by
  rw [fge_def, fle_iff, show isNaN posZero = false by decide, show realUnits posZero = 0 by decide]
  simp

theorem fgt_posZero_iff {x : Word} : fgt x posZero = true ↔ isNaN x = false ∧ 0 < realUnits x := by
  rw [fgt_def, flt_iff, show isNaN posZero = false by decide, show realUnits posZero = 0 by decide]
  simp

/-- Every word is a NaN, an infinity or a finite value (R14). -/
theorem word_kind (x : Word) : isNaN x = true ∨ isInf x = true ∨ isFinite x = true := by
  by_cases h : exponentField x = 255 <;> by_cases h0 : fractionField x = 0 <;> simp [isNaN, isInf, isFinite, h, h0]

/-- The real value of a finite word is below the overflow threshold. -/
theorem abs_realUnits_lt_overflowUnits {x : Word} (h : isFinite x = true) : |realUnits x| < overflowUnits := by
  rw [isFinite_iff_patternOf_lt] at h
  have hle : patternMagnitude (patternOf x) ≤ patternMagnitude 0x7F7FFFFF := patternMagnitude_strictMono.monotone (by omega)
  have hlt : patternMagnitude 0x7F7FFFFF < patternMagnitude 0x7F800000 := patternMagnitude_strictMono (by norm_num)
  have htwo := two_mul_overflowUnits
  rw [abs_realUnits, magnitude_eq_patternMagnitude]
  omega

/-! ### Lower bounds of a rounded sum -/

/-- What is nearest to an exact value is not below a finite value that the exact value is not below. -/
theorem le_of_nearestEven {r c : Word} {exact : Int} (hr : nearestEven r 1 exact) (hc : isFinite c = true)
    (h : realUnits c ≤ exact) : realUnits c ≤ realUnits r := by
  have hnear := (hr c hc).1
  rw [mul_one, mul_one, abs_of_nonpos (sub_nonpos.2 h)] at hnear
  have := (abs_le.1 hnear).1
  omega

/-- A sum of finite values is not below a finite value that its exact value is not below, an overflow to infinity included. -/
theorem le_realUnits_addValues (nan : Word) {a b c : Word} (ha : isFinite a = true) (hb : isFinite b = true)
    (hc : isFinite c = true) (h : realUnits c ≤ realUnits a + realUnits b) : realUnits c ≤ realUnits (addValues nan a b) := by
  obtain ⟨hfin, hnear, hpos, -, -⟩ := addValues_correctlyRounded nan ha hb
  have hbound := abs_lt.1 (abs_realUnits_lt_overflowUnits hc)
  by_cases hsum : realUnits a + realUnits b < overflowUnits
  · have hsmall := hfin.2 (abs_lt.2 ⟨by omega, hsum⟩)
    exact le_of_nearestEven (hnear hsmall) hc h
  · have hinf : overflowUnits < realUnits (signedInf false) := by
      unfold overflowUnits unitsPerOne
      decide +kernel
    rw [hpos (by omega)]
    omega

/-! ### The increment is not below zero -/

/-- A NaN, or a value that is not below zero; -0 and the infinity above are such values. -/
def nonNegativeOrNaN (x : Word) : Prop := isNaN x = true ∨ 0 ≤ realUnits x

/-- Rounding keeps an exact value that is not below zero there. -/
theorem realUnits_roundPack_nonneg {neg : Bool} {num den : Nat} (h : 0 ≤ signedInt neg num) :
    0 ≤ realUnits (roundPack neg num den) := by
  rw [realUnits_eq_signedInt, signBit_roundPack]
  cases neg with
  | false => exact Int.natCast_nonneg _
  | true =>
    obtain rfl : num = 0 := by simpa [signedInt] using h
    rw [roundPack_zero]
    decide

/-- A value that is not below zero and no zero has no sign. -/
theorem signBit_of_nonneg {x : Word} (h : 0 ≤ realUnits x) (h0 : magnitude x ≠ 0) : signBit x = false := by
  by_contra hs
  rw [Bool.not_eq_false] at hs
  rw [realUnits_eq_signedInt, hs] at h
  exact h0 (by simpa [signedInt] using h)

/-- A product of values that are not below zero is not below zero, or invalid. -/
theorem nonNegativeOrNaN_fmul {a b : Word} (ha : nonNegativeOrNaN a) (hb : nonNegativeOrNaN b) :
    nonNegativeOrNaN (fmul a b) := by
  by_cases hnan : isNaN a = true ∨ isNaN b = true
  · left; rw [fmul_eq_nanResult hnan]; exact isNaN_nanResult ..
  obtain ⟨hna, hnb⟩ := not_or.1 hnan
  replace ha := ha.resolve_left hna
  replace hb := hb.resolve_left hnb
  rw [Bool.not_eq_true] at hna hnb
  by_cases hinf : isInf a = true ∨ isInf b = true
  · by_cases h0 : magnitude a = 0 ∨ magnitude b = 0
    · left; rw [fmul_inf_zero hna hnb hinf h0]; exact isNaN_nanResult ..
    · obtain ⟨ha0, hb0⟩ := not_or.1 h0
      right
      rw [fmul_inf hna hnb hinf ha0 hb0, signBit_of_nonneg ha ha0, signBit_of_nonneg hb hb0]
      decide
  · obtain ⟨hia, hib⟩ := not_or.1 hinf
    have hfa : isFinite a = true := by have := word_kind a; simp_all
    have hfb : isFinite b = true := by have := word_kind b; simp_all
    right
    rw [fmul_eq_roundPack hfa hfb]
    refine realUnits_roundPack_nonneg ?_
    rw [← signedInt_mul]
    exact mul_nonneg ha hb

/-- The table length over a positive sample rate is not below zero. -/
theorem nonNegativeOrNaN_fdiv_f2048 {fs : Word} (h : fgt fs posZero = true) : nonNegativeOrNaN (fdiv f2048 fs) := by
  obtain ⟨hnan, hpos⟩ := fgt_posZero_iff.1 h
  have hm : magnitude fs ≠ 0 := mt (realUnits_eq_zero_iff fs).2 hpos.ne'
  have hs := signBit_of_nonneg hpos.le hm
  have hfin : isFinite f2048 = true := by decide
  have hsign : (signBit f2048 != signBit fs) = false := by rw [hs]; decide
  right
  rcases word_kind fs with hk | hk | hk
  · simp [hnan] at hk
  · rw [fdiv_finite_inf hfin hk, hsign]
    decide
  · rw [fdiv_eq_roundPack hfin hk hm, hsign]
    exact realUnits_roundPack_nonneg (Int.natCast_nonneg _)

/-- The increment of a legal frequency and sample rate is not below zero, or invalid (R141). -/
theorem nonNegativeOrNaN_lfoIncrement {fs f : Word} (hfs : fgt fs posZero = true) (hf : fge f posZero = true) :
    nonNegativeOrNaN (lfoIncrement fs f) :=
  nonNegativeOrNaN_fmul (nonNegativeOrNaN_fdiv_f2048 hfs) (.inr (fge_posZero_iff.1 hf).2)

/-! ### The phase stays above -1 -/

/-- A NaN, or a value above -1; the infinity above is such a value. It is what the wrap loop keeps. -/
def aboveMinusOneOrNaN (x : Word) : Prop := isNaN x = true ∨ -(unitsPerOne : Int) < realUnits x

/-- The range of R29 is what is above -1 and for which the wrap loop stops. -/
theorem phaseSound_iff (x : Word) : phaseSound x ↔ aboveMinusOneOrNaN x ∧ fgt x f2047 = false := by
  have h2047 : realUnits f2047 = 2047 * (unitsPerOne : Int) := by decide +kernel
  have hinf : realUnits f2047 < magnitude posInf := by decide +kernel
  have hgt : fgt x f2047 = true ↔ isNaN x = false ∧ realUnits f2047 < realUnits x := by
    rw [fgt_def, flt_iff, show isNaN f2047 = false by decide]
    simp
  unfold phaseSound aboveMinusOneOrNaN
  rw [← Bool.not_eq_true, hgt, ← h2047]
  rcases word_kind x with hk | hk | hk
  · simp [hk]
  · have hx := eq_signedInf hk
    have := unitsPerOne_pos
    have hfin : isFinite x = false := by rw [hx]; cases signBit x <;> decide
    have hreal : realUnits x = signedInt (signBit x) (magnitude posInf) := by
      rw [realUnits_eq_signedInt, hx]; cases signBit x <;> rfl
    cases hs : signBit x <;> simp [isNaN_of_isInf hk, hfin, hreal, hs, signedInt] <;> omega
  · simp [isNaN_of_isFinite hk, hk]

/-- Advancing a phase of R29 by an increment that is not below zero does not reach -1. -/
theorem aboveMinusOneOrNaN_fadd {phase inc : Word} (hp : phaseSound phase) (hi : nonNegativeOrNaN inc) :
    aboveMinusOneOrNaN (fadd phase inc) := by
  by_cases hnan : isNaN phase = true ∨ isNaN inc = true
  · left; rw [fadd_eq_nanResult hnan]; exact isNaN_nanResult ..
  obtain ⟨hnp, hni⟩ := not_or.1 hnan
  obtain ⟨hfin, hlow, -⟩ := hp.resolve_left hnp
  replace hi := hi.resolve_left hni
  rw [Bool.not_eq_true] at hnp hni
  right
  rw [fadd_eq_addValues hnp hni]
  rcases word_kind inc with hk | hk | hk
  · simp [hni] at hk
  · rw [addValues_inf_right (isInf_of_isFinite hfin) hk]
    have := unitsPerOne_pos
    omega
  · have := le_realUnits_addValues (nanResult .add phase inc) hfin hk hfin (by omega)
    omega

/-- Subtracting 2048 from a finite phase above 2047 does not reach -1: the next value above 2047 gives -1 + 2^-13. -/
theorem aboveMinusOneOrNaN_fsub {p : Word} (hfin : isFinite p = true) (hgt : fgt p f2047 = true) :
    aboveMinusOneOrNaN (fsub p f2048) := by
  have hnext : orderKey 0x44FFE001 ≤ orderKey p := by
    obtain ⟨-, -, hlt⟩ := flt_iff.1 hgt
    rw [← orderKey_lt_iff, show orderKey f2047 = 0x44FFE000 by decide] at hlt
    rw [show orderKey 0x44FFE001 = 0x44FFE001 by decide]
    omega
  have hbound : realUnits 0xBF7FF800 = realUnits 0x44FFE001 + realUnits (negate f2048) := by decide +kernel
  have hlow : -(unitsPerOne : Int) < realUnits 0xBF7FF800 := by decide +kernel
  rw [orderKey_le_iff] at hnext
  right
  rw [fsub_eq_addValues (isNaN_of_isFinite hfin) (by decide)]
  have := le_realUnits_addValues (nanResult .sub p f2048) hfin (show isFinite (negate f2048) = true by decide)
    (show isFinite 0xBF7FF800 = true by decide) (by omega)
  omega

/-- A property that every subtraction of the wrap loop keeps holds where the loop ends (R148). -/
theorem wrapPhase_induct (P : Word → Prop)
    (hP : ∀ p, fgt p f2047 = true → fsub p f2048 ≠ p → P p → P (fsub p f2048)) {fuel : Nat} {p q : Word} (hp : P p)
    (h : wrapPhase fuel p = some q) : P q := by
  induction fuel generalizing p with
  | zero =>
    unfold wrapPhase at h
    split at h
    · cases h
    · cases h; exact hp
  | succ fuel ih =>
    unfold wrapPhase at h
    split at h
    next hgt =>
      split at h
      next => cases h
      next hne => exact ih (hP p hgt hne hp) h
    next => cases h; exact hp

/-- The wrap loop, where it ends, ends in the range of R29. -/
theorem phaseSound_wrapPhase {fuel : Nat} {p q : Word} (hp : aboveMinusOneOrNaN p) (h : wrapPhase fuel p = some q) :
    phaseSound q := by
  refine (phaseSound_iff q).2 ⟨wrapPhase_induct aboveMinusOneOrNaN (fun p hgt hne _ => ?_) hp h, wrapPhase_some h⟩
  obtain ⟨-, hnan, -⟩ := flt_iff.1 hgt
  rcases word_kind p with hk | hk | hk
  · simp [hnan] at hk
  · refine absurd ?_ hne
    rw [fsub_eq_addValues hnan (by decide)]
    exact addValues_inf_left hk fun h => absurd h (by decide)
  · exact aboveMinusOneOrNaN_fsub hk hgt

/-! ### The LFO primitives keep the invariants of R29 -/

theorem lfoSound_of_ready {l : Lfo} (h : l.ready = true) :
    lfoSound l ↔ l.wave = 0 ∧ fge l.freq posZero = true ∧ fgt l.fs posZero = true ∧ l.inc = lfoIncrement l.fs l.freq ∧
      phaseSound l.phase := by
  simp [lfoSound, h]

theorem lfoSound_reset : lfoSound Lfo.reset := rfl

theorem phaseSound_posZero : phaseSound posZero := by
  have := unitsPerOne_pos
  have h : realUnits posZero = 0 := by decide
  exact .inr ⟨by decide, by omega, by omega⟩

/-- `LfoInit` gives a sound LFO, Ready with the frequency and the rate it was given (R141). -/
theorem lfoSound_lfoInitialized {w : BitVec 8} {f fs : Word} {l : Lfo} (h : lfoInitialized w f fs = some l) :
    l.ready = true ∧ l.freq = f ∧ l.fs = fs ∧ lfoSound l := by
  obtain ⟨hw, hf, hfs, rfl⟩ := lfoInitialized_eq_some.1 h
  exact ⟨rfl, rfl, rfl, (lfoSound_of_ready rfl).2 ⟨hw, hf, hfs, rfl, phaseSound_posZero⟩⟩

/-- `LfoSetFreq` keeps a Ready LFO sound (R153). -/
theorem lfoSound_lfoWithFrequency {l l' : Lfo} {f : Word} (h : lfoWithFrequency l f = some l') (hr : l.ready = true)
    (hl : lfoSound l) : lfoSound l' := by
  obtain ⟨hf, rfl⟩ := lfoWithFrequency_eq_some.1 h
  obtain ⟨hw, -, hfs, -, hp⟩ := (lfoSound_of_ready hr).1 hl
  exact (lfoSound_of_ready (l := { l with freq := f, inc := lfoIncrement l.fs f }) hr).2 ⟨hw, hf, hfs, rfl, hp⟩

/-- `LfoNext`, where it ends, keeps a Ready LFO sound and moves its phase only (R148). -/
theorem lfoSound_lfoNext {table : SineContents} {l l' : Lfo} {v : Word} (h : lfoNext table l = some (v, l'))
    (hr : l.ready = true) (hl : lfoSound l) : lfoSound l' := by
  obtain ⟨q, hq, -, rfl⟩ := lfoNext_eq_some.1 h
  obtain ⟨hw, hf, hfs, hinc, hp⟩ := (lfoSound_of_ready hr).1 hl
  have hinc' : nonNegativeOrNaN l.inc := hinc ▸ nonNegativeOrNaN_lfoIncrement hfs hf
  exact (lfoSound_of_ready (l := { l with phase := q }) hr).2
    ⟨hw, hf, hfs, hinc, phaseSound_wrapPhase (aboveMinusOneOrNaN_fadd hp hinc') hq⟩

theorem lfoNext_ready {table : SineContents} {l l' : Lfo} {v : Word} (h : lfoNext table l = some (v, l'))
    (hr : l.ready = true) : l'.ready = true := by
  obtain ⟨q, -, -, rfl⟩ := lfoNext_eq_some.1 h
  exact hr

end Sys2Proof.Machine
end

section
/-! SUPPORT. The vibrato engine keeps its invariants (R32): under `VIB.INIT`, under a parameter within its bounds, and under a
frame, in which every channel's cursors advance by one and so stay equal. -/

namespace Sys2Proof.Machine

/-- What `vibSound` says of a Ready engine, with a name for each part. -/
structure VibInvariant (p : Params) (v : Vib) : Prop where
  ready : v.ready = true
  one_le_nch : 1 ≤ v.nch
  nch_le : v.nch ≤ p.channelsMax
  dl_length : v.dl.length = p.channelsMax
  line : ∀ j, j < v.nch → delayLineSound p v j
  absent : ∀ j, v.nch ≤ j → delayLineExists v j = false
  ampMin : v.ampMin = posZero
  ampMax : v.ampMax = oneF
  freqMin : v.freqMin = posZero
  freqMax : v.freqMax = fdiv v.fs f4
  amp : withinBound v.amp v.ampMin v.ampMax = true
  modFreq : withinBound v.modFreq v.freqMin v.freqMax = true
  lfo_ready : v.lfo.ready = true
  lfo_freq : v.lfo.freq = v.modFreq
  lfo_fs : v.lfo.fs = v.fs
  lfo : lfoSound v.lfo

theorem vibInvariant_of_vibSound {p : Params} {v : Vib} (hr : v.ready = true) (h : vibSound p v) : VibInvariant p v := by
  rw [vibSound, if_pos hr] at h
  obtain ⟨hpos, hle, hlen, hline, habs, hamin, hamax, hfmin, hfmax, hamp, hfreq, hlr, hlf, hlfs, hl⟩ := h
  exact ⟨hr, hpos, hle, hlen, hline, habs, hamin, hamax, hfmin, hfmax, hamp, hfreq, hlr, hlf, hlfs, hl⟩

theorem vibSound_of_vibInvariant {p : Params} {v : Vib} (h : VibInvariant p v) : vibSound p v := by
  rw [vibSound, if_pos h.ready]
  exact ⟨h.one_le_nch, h.nch_le, h.dl_length, h.line, h.absent, h.ampMin, h.ampMax, h.freqMin, h.freqMax, h.amp, h.modFreq,
    h.lfo_ready, h.lfo_freq, h.lfo_fs, h.lfo⟩

theorem vibSound_reset (p : Params) : vibSound p (Vib.reset p.channelsMax) := rfl

/-! ### `VIB.INIT` and `VIB.SETPARAM` -/

/-- The delay lines that `VIB.INIT` makes: one for each channel, none beyond (R171, R173). -/
theorem delayLinesCreated_join (channels nch d j : Nat) :
    ((delayLinesCreated channels nch d)[j]?).join = if j < channels ∧ j < nch then some (delayLineCreated d) else none := by
  unfold delayLinesCreated
  by_cases hj : j < channels <;> by_cases hn : j < nch <;> simp [hj, hn]

/-- A delay line just created is sound, its write cursor `D` ahead (R173). -/
theorem bufferSound_delayLineCreated {capMax d : Nat} (h : 2 * d + 1 ≤ capMax) : bufferSound capMax (delayLineCreated d) := by
  refine ⟨?_, ?_, ?_, ?_, by simp [delayLineCreated]⟩ <;> simp only [delayLineCreated] <;> omega

/-- The commit of `VIB.INIT` under its tests gives a sound engine (R171). -/
theorem vibInvariant_vibInitialized {p : Params} {old : Vib} {fs fm amp : Word} {nch : Int}
    (hvalid : vibArgumentsValid fs nch fm amp = true) (hfits : vibFits p fs nch = true) :
    VibInvariant p (vibInitialized p.channelsMax old fs nch.toNat fm amp) := by
  simp only [vibArgumentsValid, Bool.and_eq_true, decide_eq_true_eq] at hvalid
  obtain ⟨⟨⟨hfs, hpos⟩, hfm⟩, hamp⟩ := hvalid
  simp only [vibFits, Bool.and_eq_true, decide_eq_true_eq] at hfits
  obtain ⟨⟨hnch, -⟩, hcap⟩ := hfits
  have hfm0 : fge fm posZero = true := by
    unfold withinBound at hfm
    exact (Bool.and_eq_true_iff.1 hfm).1
  have hinit := lfoInitialized_eq_some.2 ⟨rfl, hfm0, hfs, rfl⟩
  have hlfo : lfoInitialized 0 fm fs = some (vibLfo old.lfo fm fs) := by rw [vibLfo, hinit]; rfl
  obtain ⟨hready, hfreq, hrate, hsound⟩ := lfoSound_lfoInitialized hlfo
  have hdl (j : Nat) : ((vibInitialized p.channelsMax old fs nch.toNat fm amp).dl[j]?).join =
      if j < p.channelsMax ∧ j < nch.toNat then some (delayLineCreated (delayInSamples fs)) else none :=
    delayLinesCreated_join ..
  have hline (j : Nat) (hj : j < nch.toNat) :
      delayLine (vibInitialized p.channelsMax old fs nch.toNat fm amp) j = delayLineCreated (delayInSamples fs) := by
    rw [delayLine, hdl, if_pos ⟨by omega, hj⟩]
    rfl
  refine { ready := rfl, one_le_nch := ?_, nch_le := ?_, dl_length := by simp [vibInitialized, delayLinesCreated],
           line := fun j (hj : j < nch.toNat) => ?_, absent := fun j (hj : nch.toNat ≤ j) => ?_, ampMin := rfl, ampMax := rfl,
           freqMin := rfl, freqMax := rfl, amp := hamp, modFreq := hfm, lfo_ready := hready, lfo_freq := hfreq, lfo_fs := hrate,
           lfo := hsound }
  · change 1 ≤ nch.toNat
    omega
  · change nch.toNat ≤ p.channelsMax
    omega
  · refine ⟨?_, ?_, ?_⟩
    · rw [delayLineExists, hdl, if_pos ⟨by omega, hj⟩]
      rfl
    · rw [hline j hj]
      exact bufferSound_delayLineCreated hcap
    · have hahead : delayInSamples fs = (0 + delayInSamples fs) % (2 * delayInSamples fs + 1) := by
        rw [zero_add, Nat.mod_eq_of_lt (by omega)]
      rw [hline j hj, hline 0 (by omega)]
      exact ⟨rfl, hahead, rfl, rfl⟩
  · rw [delayLineExists, hdl, if_neg (by omega)]
    rfl

/-- A modulation frequency within its bounds, with its nested `LfoSetFreq`, keeps the engine sound (R176). -/
theorem vibInvariant_setModFreq {p : Params} {v : Vib} {f : Word} (h : VibInvariant p v)
    (hf : withinBound f v.freqMin v.freqMax = true) :
    VibInvariant p { v with modFreq := f, lfo := (lfoWithFrequency v.lfo f).getD v.lfo } := by
  have hf0 : fge f posZero = true := by
    unfold withinBound at hf
    exact h.freqMin ▸ (Bool.and_eq_true_iff.1 hf).1
  have hset := (lfoWithFrequency_eq_some (l := v.lfo)).2 ⟨hf0, rfl⟩
  have hlfo := lfoSound_lfoWithFrequency hset h.lfo_ready h.lfo
  rw [hset, Option.getD_some]
  exact { h with modFreq := hf, lfo_freq := rfl, lfo := hlfo }

/-! ### The frames of `VIB.PROCESS` -/

/-- The delay lines of `v'` are those of `v`, but that each of the channels `j` to `k - 1` has taken one step (R177). -/
def linesStepped (j k : Nat) (v v' : Vib) : Prop :=
  v'.dl.length = v.dl.length ∧ ∀ j',
    (j ≤ j' ∧ j' < k →
      delayLineExists v' j' = true ∧ ∃ x, delayLine v' j' = rbAdvance (rbPut (delayLine v j') x)) ∧
    (¬ (j ≤ j' ∧ j' < k) → delayLineExists v' j' = delayLineExists v j' ∧ delayLine v' j' = delayLine v j')

theorem linesStepped_vibChannels {aw : Nat} (inp out stride i : Nat) (offset : Word) (n j : Nat) (v : Vib) (m : Memory)
    (hlen : j + n ≤ v.dl.length) : linesStepped j (j + n) v (vibChannels aw inp out stride i offset n j v m).1 := by
  induction n generalizing j v m with
  | zero => exact ⟨rfl, fun j' => ⟨fun h => by omega, fun _ => ⟨rfl, rfl⟩⟩⟩
  | succ n ih =>
    rw [vibChannels]
    generalize hb : channelStep (delayLine v j) offset (memRead aw m (effectiveAddress aw inp stride j i)) = r
    have hr : r.2 = rbAdvance (rbPut (delayLine v j) (memRead aw m (effectiveAddress aw inp stride j i))) := by rw [← hb]; rfl
    have hset (j' : Nat) := delayLine_setDelayLine v j j' r.2 (by omega)
    have hexists (j' : Nat) := delayLineExists_setDelayLine v j j' r.2 (by omega)
    obtain ⟨hlen', hlines⟩ := ih (j + 1) (setDelayLine v j r.2) (memWrite aw m (effectiveAddress aw out stride j i) r.1)
      (by rw [setDelayLine_dl, List.length_set]; omega)
    refine ⟨by rw [hlen', setDelayLine_dl, List.length_set], fun j' => ⟨fun hin => ?_, fun hout => ?_⟩⟩
    · by_cases hj : j' = j
      · obtain ⟨he, hl⟩ := (hlines j').2 (by omega)
        rw [he, hl, hexists, hset, if_pos hj, if_pos hj, hj]
        exact ⟨rfl, _, hr⟩
      · obtain ⟨he, x, hl⟩ := (hlines j').1 (by omega)
        rw [he, hl, hset, if_neg hj]
        exact ⟨rfl, x, rfl⟩
    · obtain ⟨he, hl⟩ := (hlines j').2 (by omega)
      rw [he, hl, hexists, hset, if_neg (by omega), if_neg (by omega)]
      exact ⟨rfl, rfl⟩

/-- Advancing both cursors keeps their distance (R32). -/
theorem cursors_apart_step {rd wr d cap : Nat} (h : wr = (rd + d) % cap) : (wr + 1) % cap = ((rd + 1) % cap + d) % cap := by
  rw [h, Nat.mod_add_mod, Nat.mod_add_mod]
  congr 1
  omega

/-- A frame of all channels keeps the invariants of the engine: every delay line takes one step (R177). -/
theorem vibInvariant_vibChannels {p : Params} {aw : Nat} {v : Vib} (h : VibInvariant p v) (inp out stride i : Nat) (offset : Word)
    (m : Memory) : VibInvariant p (vibChannels aw inp out stride i offset v.nch 0 v m).1 := by
  have hle := h.nch_le
  have hpos := h.one_le_nch
  obtain ⟨hlen, hlines⟩ := linesStepped_vibChannels (aw := aw) inp out stride i offset v.nch 0 v m (by rw [h.dl_length]; omega)
  have hv := vibChannels_vib (aw := aw) inp out stride i offset v.nch 0 v m
  generalize (vibChannels aw inp out stride i offset v.nch 0 v m).1 = v' at hlen hlines hv ⊢
  have hstep (j : Nat) (hj : j < v.nch) := (hlines j).1 (by omega)
  have hline (j : Nat) (hj : j < v.nch) : delayLineSound p v' j := by
    obtain ⟨-, hsound, hcap, hwr, hrd0, hwr0⟩ := h.line j hj
    obtain ⟨-, -, hcap0, -⟩ := h.line 0 hpos
    obtain ⟨hexists, x, hj'⟩ := hstep j hj
    obtain ⟨-, x0, h0'⟩ := hstep 0 hpos
    have hdelay : v'.delay = v.delay := by rw [hv]
    refine ⟨hexists, ?_⟩
    rw [hj', h0', hdelay]
    refine ⟨bufferSound_rbAdvance (bufferSound_rbPut x hsound), hcap, ?_, ?_, ?_⟩
    · exact cursors_apart_step hwr
    · simp [hcap, hcap0, hrd0]
    · simp [hcap, hcap0, hwr0]
  rw [hv] at hline hlen ⊢
  refine { h with dl_length := hlen.trans h.dl_length, line := hline, absent := fun j (hj : v.nch ≤ j) => ?_ }
  rw [← hv, ((hlines j).2 (by omega)).1]
  exact h.absent j hj

/-- The frames of `VIB.PROCESS`, stuck or not, keep the invariants of the engine (R179). -/
theorem vibInvariant_vibFrames {p : Params} (inp out stride n i : Nat) (v : Vib) (m : Memory) (h : VibInvariant p v) :
    VibInvariant p (vibFrames p inp out stride n i v m).vib := by
  induction n generalizing i v m with
  | zero => exact h
  | succ n ih =>
    rw [vibFrames]
    split
    next => exact h
    next sample l hl =>
      have hlfo := lfoSound_lfoNext hl h.lfo_ready h.lfo
      obtain ⟨q, -, -, rfl⟩ := lfoNext_eq_some.1 hl
      have hnext : VibInvariant p { v with lfo := { v.lfo with phase := q } } := { h with lfo := hlfo }
      exact ih _ _ _ (vibInvariant_vibChannels hnext ..)

end Sys2Proof.Machine
end

section
/-! SUPPORT. What a command can change, said once for each family: the fields outside its unit stay, `ST` becomes a code unless the
command gets stuck, the unit keeps its invariants, and only three commands write memory. -/

namespace Sys2Proof.Machine

/-! ### What a command of each family may do -/

/-- The commands that write the sample memory (R60). -/
def writesMemory : Instr → Bool
  | .rbGetn _ => true
  | .lfoBlock => true
  | .vibProcess => true
  | _ => false

/-- The slot that a command of the ring-buffer family names. -/
def ringBufferSlot : Instr → Option (BitVec 8)
  | .rbCreate n | .rbDestroy n | .rbPut n | .rbPutn n | .rbGet n | .rbGetpi n | .rbGetn n | .rbSetrd n | .rbGetrd n
  | .rbSetwr n | .rbGetwr n => some n
  | _ => none

/-- A buffer that stands in a slot has the capacity of the one before it, if there was one, and is sound if that was. -/
def slotKept (capMax : Nat) (old new : Option RingBuffer) : Prop :=
  ∀ b', new = some b' →
    (∀ b, old = some b → b'.cap = b.cap) ∧ ((∀ b, old = some b → bufferSound capMax b) → bufferSound capMax b')

/-- What a command on slot `n` may do. -/
structure RingBufferEffect (writes : Bool) (n : BitVec 8) (s t : State) : Prop where
  frame : t = { s with res := t.res, st := t.st, urb := t.urb, mem := t.mem }
  status : ∃ k, t.st = statusCode k
  slots : ∃ b, t.urb = s.urb.set n.toNat b ∧ slotKept s.params.userCapacityMax (slot n s) b
  memory : writes = false → t.mem = s.mem

/-- How `ST` stands after an LFO or a vibrato command: a code, or unchanged by a command that got stuck (R22, R240). -/
def codeOrStuck (s t : State) : Prop := (∃ k, t.st = statusCode k) ∨ (t.stuck = true ∧ t.st = s.st)

/-- What a command of the LFO family may do. -/
structure LfoEffect (writes : Bool) (s t : State) : Prop where
  frame : t = { s with res := t.res, st := t.st, ulfo := t.ulfo, mem := t.mem, stuck := t.stuck }
  status : codeOrStuck s t
  sound : lfoSound s.ulfo → lfoSound t.ulfo
  memory : writes = false → t.mem = s.mem

/-- What a command of the vibrato family may do. -/
structure VibEffect (writes : Bool) (s t : State) : Prop where
  frame : t = { s with res := t.res, st := t.st, vib := t.vib, mem := t.mem, stuck := t.stuck }
  status : codeOrStuck s t
  sound : vibSound s.params s.vib → vibSound s.params t.vib
  memory : writes = false → t.mem = s.mem

/-! ### The ring-buffer family -/

theorem slotKept_refl (capMax : Nat) (old : Option RingBuffer) : slotKept capMax old old :=
  fun b' h => ⟨fun b hb => by rw [h] at hb; cases hb; rfl, fun hs => hs b' h⟩

theorem slotKept_none (capMax : Nat) (old : Option RingBuffer) : slotKept capMax old none := fun _ h => nomatch h

theorem slotKept_new {capMax : Nat} {b' : RingBuffer} (h : bufferSound capMax b') : slotKept capMax none (some b') := by
  rintro _ ⟨⟩
  exact ⟨fun _ h => (nomatch h), fun _ => h⟩

/-- An update that keeps the capacity and the invariants. -/
theorem slotKept_some {capMax : Nat} {b b' : RingBuffer} (hcap : b'.cap = b.cap)
    (h : bufferSound capMax b → bufferSound capMax b') : slotKept capMax (some b) (some b') := by
  rintro _ ⟨⟩
  exact ⟨fun _ e => by cases e; exact hcap, fun hs => h (hs b rfl)⟩

/-- Putting back what a slot holds changes nothing. -/
theorem urb_set_slot (n : BitVec 8) (s : State) : s.urb.set n.toNat (slot n s) = s.urb := by
  unfold slot
  rcases Nat.lt_or_ge n.toNat s.urb.length with h | h
  · simp [h]
  · exact List.set_eq_of_length_le h

/-- Where every slot is empty none holds a buffer. -/
theorem slot_eq_none_of_replicate {n : BitVec 8} {s : State} {k : Nat} (h : s.urb = List.replicate k none) : slot n s = none := by
  simp only [slot, h, List.getElem?_replicate]
  split <;> rfl

section RingBufferEnds
variable {writes : Bool} {n : BitVec 8} {s : State}

theorem ringBufferEffect_raise (k : Status) : RingBufferEffect writes n s (raise k s) :=
  ⟨rfl, ⟨k, rfl⟩, ⟨slot n s, (urb_set_slot n s).symm, slotKept_refl _ _⟩, fun _ => rfl⟩

theorem ringBufferEffect_completeWith (v : Word) : RingBufferEffect writes n s (completeWith v s) :=
  ⟨rfl, ⟨.noError, rfl⟩, ⟨slot n s, (urb_set_slot n s).symm, slotKept_refl _ _⟩, fun _ => rfl⟩

/-- A command that ends with its slot replaced, any `RES` returned and any memory written. -/
theorem ringBufferEffect_setSlot {b : Option RingBuffer} {r : Word} {m : Memory}
    (hb : slotKept s.params.userCapacityMax (slot n s) b) (hm : writes = false → m = s.mem) :
    RingBufferEffect writes n s { setSlot n b s with res := r, st := statusCode .noError, mem := m } :=
  ⟨rfl, ⟨.noError, rfl⟩, ⟨b, rfl, hb⟩, hm⟩

theorem ringBufferEffect_withLegalSlot {body : State} (h : RingBufferEffect writes n s body) :
    RingBufferEffect writes n s (withLegalSlot n s body) := by
  rcases withLegalSlot_cases n s body with ⟨-, e⟩ | ⟨-, e⟩
  · rw [e]; exact ringBufferEffect_raise _
  · rw [e]; exact h

theorem ringBufferEffect_withSlot {body : RingBuffer → State}
    (h : ∀ b, slot n s = some b → RingBufferEffect writes n s (body b)) : RingBufferEffect writes n s (withSlot n s body) := by
  rcases withSlot_cases n s body with ⟨-, e⟩ | ⟨-, -, e⟩ | ⟨b, -, hb, e⟩
  · rw [e]; exact ringBufferEffect_raise _
  · rw [e]; exact ringBufferEffect_raise _
  · rw [e]; exact h b hb

/-- A command that replaces the buffer of its slot by one of the same capacity, sound if the old one was. -/
theorem ringBufferEffect_update {f : RingBuffer → RingBuffer} {r : RingBuffer → Word} {m : RingBuffer → Memory}
    (hcap : ∀ b, (f b).cap = b.cap) (hf : ∀ capMax b, bufferSound capMax b → bufferSound capMax (f b))
    (hm : writes = false → ∀ b, m b = s.mem) :
    RingBufferEffect writes n s (withSlot n s fun b =>
      { setSlot n (some (f b)) s with res := r b, st := statusCode .noError, mem := m b }) :=
  ringBufferEffect_withSlot fun b hb =>
    ringBufferEffect_setSlot (by rw [hb]; exact slotKept_some (hcap b) (hf _ b)) fun hw => hm hw b

end RingBufferEnds

theorem bufferSound_setRd {capMax : Nat} {b : RingBuffer} (i : Int) (h : bufferSound capMax b) :
    bufferSound capMax { b with rd := rbNorm i b.cap } := by
  obtain ⟨h1, h2, -, h4, h5⟩ := h
  exact ⟨h1, h2, rbNorm_lt i b.cap h1, h4, h5⟩

theorem bufferSound_setWr {capMax : Nat} {b : RingBuffer} (i : Int) (h : bufferSound capMax b) :
    bufferSound capMax { b with wr := rbNorm i b.cap } := by
  obtain ⟨h1, h2, h3, -, h5⟩ := h
  exact ⟨h1, h2, h3, rbNorm_lt i b.cap h1, h5⟩

theorem ringBufferEffect_rbCreate {n : BitVec 8} {s t : State} (h : execRbCreate n s = .next t) :
    RingBufferEffect false n s t := by
  cases h
  refine ringBufferEffect_withLegalSlot ?_
  split_ifs with hsome hpos hmax
  · exact ringBufferEffect_raise _
  · exact ringBufferEffect_raise _
  · exact ringBufferEffect_raise _
  · refine ringBufferEffect_setSlot ?_ fun _ => rfl
    rw [Option.not_isSome_iff_eq_none.1 hsome]
    exact slotKept_new (bufferSound_rbCreated _ _ (by omega) (by omega))

theorem exec_ringBufferEffect {i : Instr} {n : BitVec 8} {s t : State} (hi : ringBufferSlot i = some n)
    (h : exec i s = .next t) : RingBufferEffect (writesMemory i) n s t := by
  cases i <;> cases hi
  case rbCreate => exact ringBufferEffect_rbCreate h
  all_goals cases h
  case rbDestroy => exact ringBufferEffect_withLegalSlot (ringBufferEffect_setSlot (slotKept_none _ _) fun _ => rfl)
  case rbPut => exact ringBufferEffect_update (fun _ => rfl) (fun _ _ => bufferSound_rbPut _) fun _ _ => rfl
  case rbPutn =>
    exact ringBufferEffect_update (fun _ => putWords_cap ..)
      (fun capMax _ => putWords_induct _ _ (bufferSound capMax) (fun _ v => bufferSound_rbPut v) _ _ _) fun _ _ => rfl
  case rbGet => exact ringBufferEffect_withSlot fun _ _ => ringBufferEffect_completeWith _
  case rbGetpi => exact ringBufferEffect_update (fun _ => rfl) (fun _ _ => bufferSound_rbAdvance) fun _ _ => rfl
  case rbGetn =>
    exact ringBufferEffect_update (fun b => getWords_induct _ (fun b' => b'.cap = b.cap) (fun _ h => h) _ _ b _ rfl)
      (fun capMax _ => getWords_induct _ (bufferSound capMax) (fun _ => bufferSound_rbAdvance) _ _ _ _) fun hw => nomatch hw
  case rbSetrd => exact ringBufferEffect_update (fun _ => rfl) (fun _ _ => bufferSound_setRd _) fun _ _ => rfl
  case rbGetrd => exact ringBufferEffect_withSlot fun _ _ => ringBufferEffect_completeWith _
  case rbSetwr => exact ringBufferEffect_update (fun _ => rfl) (fun _ _ => bufferSound_setWr _) fun _ _ => rfl
  case rbGetwr => exact ringBufferEffect_withSlot fun _ _ => ringBufferEffect_completeWith _

/-! ### The LFO family -/

section LfoEnds
variable {writes : Bool} {s : State}

theorem lfoEffect_raise (k : Status) : LfoEffect writes s (raise k s) := ⟨rfl, .inl ⟨k, rfl⟩, id, fun _ => rfl⟩

/-- A command that ends with the user LFO replaced and any memory written. -/
theorem lfoEffect_complete {l : Lfo} {m : Memory} (hl : lfoSound s.ulfo → lfoSound l) (hm : writes = false → m = s.mem) :
    LfoEffect writes s (complete { s with ulfo := l, mem := m }) := ⟨rfl, .inl ⟨.noError, rfl⟩, hl, hm⟩

end LfoEnds

theorem exec_lfoEffect {i : Instr} {s t : State} (hi : isLfoCommand i = true) (h : exec i s = .next t) :
    LfoEffect (writesMemory i) s t := by
  cases i <;> cases hi
  all_goals cases h
  case lfoInit w =>
    split
    next => exact lfoEffect_raise _
    next l hl =>
      obtain ⟨-, -, -, hsound⟩ := lfoSound_lfoInitialized hl
      exact lfoEffect_complete (fun _ => hsound) fun _ => rfl
  case lfoReset => exact lfoEffect_complete (fun _ => lfoSound_reset) fun _ => rfl
  case lfoSetfreq =>
    split
    next => exact lfoEffect_raise _
    next hr =>
      split
      next => exact lfoEffect_raise _
      next l hl => exact lfoEffect_complete (lfoSound_lfoWithFrequency hl (by simpa using hr)) fun _ => rfl
  case lfoGetfreq =>
    split
    next => exact ⟨rfl, .inl ⟨.notInitialized, rfl⟩, id, fun _ => rfl⟩
    next => exact ⟨rfl, .inl ⟨.noError, rfl⟩, id, fun _ => rfl⟩
  case lfoNext =>
    split
    next => exact lfoEffect_raise _
    next hr =>
      split
      next => exact ⟨rfl, .inr ⟨rfl, rfl⟩, id, fun _ => rfl⟩
      next v l hl => exact ⟨rfl, .inl ⟨.noError, rfl⟩, lfoSound_lfoNext hl (by simpa using hr), fun _ => rfl⟩
  case lfoBlock =>
    split
    next => exact lfoEffect_raise _
    next hr =>
      have hsound (hl : lfoSound s.ulfo) := (blockFrames_lfo_induct (p := s.params) (argAddress 0 s) (argAddress 1 s)
        (argUint 2 s) (fun l => l.ready = true ∧ lfoSound l)
        (fun l v l' hn h => ⟨lfoNext_ready hn h.1, lfoSound_lfoNext hn h.1 h.2⟩) (argUint 3 s) 0 s.ulfo s.mem
        ⟨by simpa using hr, hl⟩).2
      dsimp only
      split
      next => exact ⟨rfl, .inr ⟨rfl, rfl⟩, hsound, fun hw => nomatch hw⟩
      next => exact lfoEffect_complete hsound fun hw => nomatch hw

/-! ### The vibrato family -/

section VibEnds
variable {writes : Bool} {s : State}

theorem vibEffect_raise (k : Status) : VibEffect writes s (raise k s) := ⟨rfl, .inl ⟨k, rfl⟩, id, fun _ => rfl⟩

theorem vibEffect_raiseSentinel (k : Status) : VibEffect writes s (raiseSentinel k s) :=
  ⟨rfl, .inl ⟨k, rfl⟩, id, fun _ => rfl⟩

theorem vibEffect_completeWith (v : Word) : VibEffect writes s (completeWith v s) :=
  ⟨rfl, .inl ⟨.noError, rfl⟩, id, fun _ => rfl⟩

/-- A command that ends with the engine replaced and any memory written. -/
theorem vibEffect_complete {v : Vib} {m : Memory} (hv : vibSound s.params s.vib → vibSound s.params v)
    (hm : writes = false → m = s.mem) : VibEffect writes s (complete { s with vib := v, mem := m }) :=
  ⟨rfl, .inl ⟨.noError, rfl⟩, hv, hm⟩

end VibEnds

/-- What keeps the invariants of a Ready engine keeps `vibSound` where the engine is Ready. -/
theorem vibSound_of_vibSound_ready {p : Params} {v v' : Vib} (hr : v.ready = true) (h : VibInvariant p v → VibInvariant p v')
    (hv : vibSound p v) : vibSound p v' :=
  vibSound_of_vibInvariant (h (vibInvariant_of_vibSound hr hv))

/-- The frames of `VIB.PROCESS` keep a Ready engine sound, stuck or not (R179). -/
theorem vibSound_vibFrames {p : Params} {v : Vib} {inp out stride n i : Nat} {m : Memory} (hr : v.ready = true) :
    vibSound p v → vibSound p (vibFrames p inp out stride n i v m).vib :=
  vibSound_of_vibSound_ready hr fun hv => vibInvariant_vibFrames _ _ _ _ _ _ _ hv

theorem vibEffect_vibInit {s t : State} (h : execVibInit s = .next t) : VibEffect false s t := by
  cases h
  dsimp only
  split_ifs with hvalid hfits
  · exact vibEffect_raise _
  · exact vibEffect_raise _
  · rw [Bool.not_eq_true', Bool.not_eq_false] at hvalid hfits
    exact vibEffect_complete (fun _ => vibSound_of_vibInvariant (vibInvariant_vibInitialized hvalid hfits)) fun _ => rfl

theorem vibEffect_vibSetparam {p : BitVec 8} {s t : State} (h : execVibSetparam p s = .next t) : VibEffect false s t := by
  cases h
  dsimp only
  split_ifs with hr hp h0 hamp hfreq
  · exact vibEffect_raise _
  · exact vibEffect_raise _
  · exact vibEffect_complete (vibSound_of_vibSound_ready (by simpa using hr) fun hv => { hv with amp := hamp }) fun _ => rfl
  · exact vibEffect_raise _
  · exact vibEffect_complete (vibSound_of_vibSound_ready (by simpa using hr) fun hv => vibInvariant_setModFreq hv hfreq)
      fun _ => rfl
  · exact vibEffect_raise _

theorem vibEffect_vibProcess {s t : State} (h : execVibProcess s = .next t) : VibEffect true s t := by
  cases h
  dsimp only
  split_ifs with hr hstuck
  · exact vibEffect_raise _
  · exact ⟨rfl, .inr ⟨rfl, rfl⟩, vibSound_vibFrames (by simpa using hr), fun hw => nomatch hw⟩
  · exact vibEffect_complete (vibSound_vibFrames (by simpa using hr)) fun hw => nomatch hw

theorem exec_vibEffect {i : Instr} {s t : State} (hi : isVibCommand i = true) (h : exec i s = .next t) :
    VibEffect (writesMemory i) s t := by
  cases i <;> cases hi
  case vibInit => exact vibEffect_vibInit h
  case vibReset =>
    cases h
    exact vibEffect_complete (fun _ => vibSound_reset _) fun _ => rfl
  case vibSetparam => exact vibEffect_vibSetparam h
  case vibGetparam p =>
    cases h
    split_ifs
    · exact vibEffect_raiseSentinel _
    · exact vibEffect_raiseSentinel _
    · exact vibEffect_completeWith _
    · exact vibEffect_completeWith _
  case vibProcess => exact vibEffect_vibProcess h

/-! ### Every command -/

theorem ringBufferSlot_of_isRingBufferCommand {i : Instr} (h : isRingBufferCommand i = true) :
    ∃ n, ringBufferSlot i = some n := by
  cases i <;> first | exact ⟨_, rfl⟩ | cases h

/-- What a command can do: it belongs to one family and does what that family may do. -/
theorem exec_command_effect {i : Instr} {s t : State} (hc : isCommand i = true) (h : exec i s = .next t) :
    (∃ n, ringBufferSlot i = some n ∧ RingBufferEffect (writesMemory i) n s t) ∨
    (isLfoCommand i = true ∧ LfoEffect (writesMemory i) s t) ∨ (isVibCommand i = true ∧ VibEffect (writesMemory i) s t) := by
  have hfamily : isRingBufferCommand i = true ∨ isLfoCommand i = true ∨ isVibCommand i = true := by
    cases i <;> simp [isCommand, isRingBufferCommand, isLfoCommand, isVibCommand] at hc ⊢
  rcases hfamily with hi | hi | hi
  · obtain ⟨n, hn⟩ := ringBufferSlot_of_isRingBufferCommand hi
    exact .inl ⟨n, hn, exec_ringBufferEffect hn h⟩
  · exact .inr (.inl ⟨hi, exec_lfoEffect hi h⟩)
  · exact .inr (.inr ⟨hi, exec_vibEffect hi h⟩)

end Sys2Proof.Machine
end

section
/-! The obligations on what a command and a step keep: the units are separate, the arguments, the memory, the status register and
the invariants of R26, R29 and R32. -/

namespace Sys2Proof.Machine

/-! ### What a command leaves alone -/

/-- An update of one slot leaves every other slot as it was. -/
theorem slot_other_of_urb_set {n m : BitVec 8} {b : Option RingBuffer} {s t : State} (hne : n ≠ m)
    (h : t.urb = s.urb.set n.toNat b) : slot m t = slot m s := by
  have : n.toNat ≠ m.toNat := fun e => hne (BitVec.eq_of_toNat_eq e)
  simp [slot, h, this]

/-- Settles O44: each family's frame, and an RB command's update of its own slot. -/
theorem unitsAreSeparate : Obligations.UnitsAreSeparate := by
  refine fun i s t h => ⟨fun hi => ?_, fun hi => ?_, fun hi => ?_, fun n m hne hi => ?_⟩
  · obtain ⟨n, hn⟩ := ringBufferSlot_of_isRingBufferCommand hi
    have hframe := (exec_ringBufferEffect hn h).frame
    rw [hframe]
    exact ⟨rfl, rfl⟩
  · have hframe := (exec_lfoEffect hi h).frame
    rw [hframe]
    exact ⟨rfl, rfl⟩
  · have hframe := (exec_vibEffect hi h).frame
    rw [hframe]
    exact ⟨rfl, rfl⟩
  · have hn : ringBufferSlot i = some n := by
      simp only [List.mem_cons, List.not_mem_nil, or_false] at hi
      rcases hi with rfl | rfl | rfl | rfl | rfl | rfl | rfl | rfl | rfl | rfl | rfl <;> rfl
    obtain ⟨b, hb, -⟩ := (exec_ringBufferEffect hn h).slots
    exact slot_other_of_urb_set hne hb

theorem writesMemory_eq_false {i : Instr} (hg : ∀ n, i ≠ .rbGetn n) (hb : i ≠ .lfoBlock) (hp : i ≠ .vibProcess) :
    writesMemory i = false := by
  cases i <;> first | rfl | exact absurd rfl (hg _) | exact absurd rfl hb | exact absurd rfl hp

/-- What no command changes: the arguments, the host's fields and the parameters (R21). -/
theorem exec_command_frame {i : Instr} {s t : State} (hc : isCommand i = true) (h : exec i s = .next t) :
    t = { s with res := t.res, st := t.st, urb := t.urb, ulfo := t.ulfo, vib := t.vib, mem := t.mem, stuck := t.stuck } := by
  rcases exec_command_effect hc h with ⟨n, -, heff⟩ | ⟨-, heff⟩ | ⟨-, heff⟩
  all_goals
    have hframe := heff.frame
    rw [hframe]

/-- A command that writes no memory leaves all of it (R60). -/
theorem exec_command_mem {i : Instr} {s t : State} (hc : isCommand i = true) (h : exec i s = .next t)
    (hw : writesMemory i = false) : t.mem = s.mem := by
  rcases exec_command_effect hc h with ⟨n, -, heff⟩ | ⟨-, heff⟩ | ⟨-, heff⟩
  all_goals exact heff.memory hw

/-- Settles O45: the frame of a command, and its memory where it is none of the three that write it. -/
theorem commandsKeepArgumentsAndMemory : Obligations.CommandsKeepArgumentsAndMemory := by
  intro i s t hc h
  have hframe := exec_command_frame hc h
  refine ⟨?_, ?_, ?_, ?_, fun hg hb hp => exec_command_mem hc h (writesMemory_eq_false hg hb hp)⟩
  all_goals rw [hframe]

/-! ### Commands of another unit do not see the engine -/

/-- The state with another engine in place. -/
def withVib (v : Vib) (s : State) : State := { s with vib := v }

section WithVib
variable {v : Vib} {s : State}

@[simp] theorem withVib_ulfo : (withVib v s).ulfo = s.ulfo := rfl
@[simp] theorem withVib_params : (withVib v s).params = s.params := rfl
@[simp] theorem argWord_withVib (k : Fin 4) : argWord k (withVib v s) = argWord k s := rfl

theorem withLegalSlot_withVib (n : BitVec 8) {body body' : State} (h : body' = withVib v body) :
    withLegalSlot n (withVib v s) body' = withVib v (withLegalSlot n s body) := by
  rw [h, withLegalSlot, withLegalSlot, apply_ite (withVib v)]
  rfl

/-- A slot's command that does the same whatever the engine holds does so with the preamble of R111 before it. -/
theorem withSlot_withVib (n : BitVec 8) {body body' : RingBuffer → State} (h : ∀ b, body' b = withVib v (body b)) :
    withSlot n (withVib v s) body' = withVib v (withSlot n s body) := by
  refine withLegalSlot_withVib n ?_
  change (match slot n s with | none => _ | some b => _) = _
  cases slot n s with
  | none => rfl
  | some b => exact h b

end WithVib

/-- A command of another unit, run with another engine in place, does the same and leaves that engine. -/
theorem exec_withVib {i : Instr} (hc : isCommand i = true) (hv : isVibCommand i = false) (v : Vib) {s t : State}
    (h : exec i s = .next t) : exec i (withVib v s) = .next (withVib v t) := by
  cases i <;> simp [isCommand, isVibCommand] at hc hv
  all_goals
    cases h
    refine congrArg Host.Outcome.next ?_
  case rbCreate n =>
    refine withLegalSlot_withVib n ?_
    simp only [apply_ite (withVib v)]
    rfl
  case rbDestroy n => exact withLegalSlot_withVib n rfl
  case rbPut n => exact withSlot_withVib n fun _ => rfl
  case rbPutn n => exact withSlot_withVib n fun _ => rfl
  case rbGet n => exact withSlot_withVib n fun _ => rfl
  case rbGetpi n => exact withSlot_withVib n fun _ => rfl
  case rbGetn n => exact withSlot_withVib n fun _ => rfl
  case rbSetrd n => exact withSlot_withVib n fun _ => rfl
  case rbGetrd n => exact withSlot_withVib n fun _ => rfl
  case rbSetwr n => exact withSlot_withVib n fun _ => rfl
  case rbGetwr n => exact withSlot_withVib n fun _ => rfl
  case lfoInit w =>
    rw [argWord_withVib, argWord_withVib]
    cases lfoInitialized w (argWord 0 s) (argWord 1 s) <;> rfl
  case lfoReset => rfl
  case lfoSetfreq =>
    rw [apply_ite (withVib v), withVib_ulfo, argWord_withVib]
    refine if_congr Iff.rfl rfl ?_
    cases lfoWithFrequency s.ulfo (argWord 0 s) <;> rfl
  case lfoGetfreq =>
    rw [apply_ite (withVib v)]
    rfl
  case lfoNext =>
    rw [apply_ite (withVib v), withVib_ulfo, withVib_params]
    refine if_congr Iff.rfl rfl ?_
    cases lfoNext s.params.sine s.ulfo <;> rfl
  case lfoBlock =>
    rw [apply_ite (withVib v)]
    refine if_congr Iff.rfl rfl ?_
    rw [apply_ite (withVib v)]
    rfl

/-- Settles O48: no such command's meaning reads the engine, so that it commutes with putting another in place. -/
theorem engineIsPrivate : Obligations.EngineIsPrivate := fun _ _ _ v hc hv h => exec_withVib hc hv v h

/-! ### What a step can do -/

/-- What an instruction does: it runs a command, or is the port's own update of the arguments, of `rdata`, or of `ST` by an
undefined word (R85, R101, R102). -/
theorem exec_cases {i : Instr} {s t : State} (h : exec i s = .next t) :
    (∃ j, isCommand j = true ∧ exec j s = .next t) ∨
    (t = { s with args := t.args, st := t.st, rdata := t.rdata } ∧ (t.st = s.st ∨ t.st = statusCode .illegalCall)) := by
  by_cases hc : isCommand i = true
  · exact .inl ⟨i, hc, h⟩
  cases i <;> first | exact absurd rfl hc | skip
  case wr addr w =>
    change execWr addr w s = .next t at h
    rcases execWr_cases addr w s with ⟨-, e⟩ | ⟨k, -, e⟩ | ⟨-, e⟩
    · rcases executeWord_cases w s with ⟨r, -, e'⟩ | ⟨j, -, hj, e'⟩
      · rw [e, e'] at h; cases h; exact .inr ⟨rfl, .inr rfl⟩
      · rw [e, e'] at h; exact .inl ⟨j, hj, h⟩
    · rw [e] at h; cases h; exact .inr ⟨rfl, .inl rfl⟩
    · rw [e] at h; cases h; exact .inr ⟨rfl, .inl rfl⟩
  case rd addr => cases h; exact .inr ⟨rfl, .inl rfl⟩

/-- What a step does, with both of its states in view: it runs one command, or is a hardware reset, or touches no unit (R20). -/
theorem step_next_cases {s t : State} (h : step s = .next t) :
    (∃ i rest, isCommand i = true ∧ exec i { s with pending := rest } = .next t) ∨
    (t = { hardwareReset s with mem := t.mem, pending := t.pending }) ∨
    (t = { s with args := t.args, st := t.st, rdata := t.rdata, mem := t.mem, pending := t.pending } ∧
      (t.st = s.st ∨ t.st = statusCode .illegalCall)) := by
  rcases step_cases s with ⟨-, e⟩ | ⟨_, _, -, -, e⟩ | ⟨ev, rest, -, -, e⟩
  · rw [e] at h; cases h; exact .inr (.inr ⟨rfl, .inl rfl⟩)
  · rw [e] at h; cases h; exact .inr (.inr ⟨rfl, .inl rfl⟩)
  rw [e] at h
  cases ev with
  | transaction bits =>
    rcases exec_cases h with ⟨j, hj, hexec⟩ | ⟨hframe, hst⟩
    · exact .inl ⟨j, rest, hj, hexec⟩
    · exact .inr (.inr ⟨by rw [hframe], hst⟩)
  | hardReset => cases h; exact .inr (.inl rfl)
  | resetDuring bits writes =>
    cases h
    refine .inr (.inl ?_)
    unfold resetDuringTransaction
    split <;> rfl
  | memWrite addr value => cases h; exact .inr (.inr ⟨rfl, .inl rfl⟩)

/-! ### The invariants -/

theorem codeOrStuck_of_command {i : Instr} {s t : State} (hc : isCommand i = true) (h : exec i s = .next t) : codeOrStuck s t := by
  rcases exec_command_effect hc h with ⟨n, -, heff⟩ | ⟨-, heff⟩ | ⟨-, heff⟩
  · exact .inl heff.status
  · exact heff.status
  · exact heff.status

/-- Settles O49: a command ends with a code or stuck, and everything else leaves `ST`, clears it or writes IllegalCall. -/
theorem statusIsACode : Obligations.StatusIsACode := by
  refine ⟨fun i s t hc h hns => ?_, fun s t hs h => ?_⟩
  · rcases codeOrStuck_of_command hc h with ⟨k, hk⟩ | ⟨hstuck, -⟩
    · rw [hk]; exact statusCode_le k
    · rw [hns] at hstuck; cases hstuck
  · unfold statusSound at *
    rcases step_next_cases h with ⟨i, rest, hc, hexec⟩ | hreset | ⟨-, hst | hst⟩
    · rcases codeOrStuck_of_command hc hexec with ⟨k, hk⟩ | ⟨-, hst⟩
      · rw [hk]; exact statusCode_le k
      · rw [hst]; exact hs
    · rw [hreset]; simp
    · rw [hst]; exact hs
    · rw [hst]; exact statusCode_le _

/-- Settles O52: the LFO commands keep it, no other command touches it, and reset gives its reset value. -/
theorem stepKeepsLfo : Obligations.StepKeepsLfo := by
  intro s t hs h
  rcases step_next_cases h with ⟨i, rest, hc, hexec⟩ | hreset | ⟨hframe, -⟩
  · rcases exec_command_effect hc hexec with ⟨n, -, heff⟩ | ⟨-, heff⟩ | ⟨-, heff⟩
    · rw [heff.frame]; exact hs
    · exact heff.sound hs
    · rw [heff.frame]; exact hs
  · rw [hreset]; exact lfoSound_reset
  · rw [hframe]; exact hs

/-- Settles O53: the vibrato commands keep it, no other command touches it, and reset gives its reset value. -/
theorem stepKeepsVib : Obligations.StepKeepsVib := by
  intro s t hs h
  rcases step_next_cases h with ⟨i, rest, hc, hexec⟩ | hreset | ⟨hframe, -⟩
  · rcases exec_command_effect hc hexec with ⟨n, -, heff⟩ | ⟨-, heff⟩ | ⟨-, heff⟩
    · rw [heff.frame]; exact hs
    · rw [heff.frame]; exact hs
    · rw [heff.frame]; exact heff.sound hs
  · rw [hreset]; exact vibSound_reset s.params
  · rw [hframe]; exact hs

/-- A slot that was updated holds what was put there, or the list has no such slot. -/
theorem slotKept_of_urb_set {n m : BitVec 8} {b : Option RingBuffer} {s t : State} {capMax : Nat}
    (h : t.urb = s.urb.set n.toNat b) (hb : slotKept capMax (slot n s) b) : slotKept capMax (slot m s) (slot m t) := by
  by_cases hm : n = m
  · subst hm
    rcases Nat.lt_or_ge n.toNat s.urb.length with hlt | hge
    · have : slot n t = b := by simp [slot, h, hlt]
      rwa [this]
    · have : slot n t = slot n s := by rw [slot, slot, h, List.set_eq_of_length_le hge]
      rw [this]
      exact slotKept_refl _ _
  · rw [slot_other_of_urb_set hm h]
    exact slotKept_refl _ _

/-- What a step does to the user slots: their number and the parameters stay, and every buffer keeps its capacity and its
invariants; reset leaves `N_URB` slots, all empty. -/
theorem step_slots {s t : State} (h : step s = .next t) :
    t.params = s.params ∧ (t.urb.length = s.urb.length ∨ t.urb.length = s.params.userSlots) ∧
      ∀ m, slotKept s.params.userCapacityMax (slot m s) (slot m t) := by
  rcases step_next_cases h with ⟨i, rest, hc, hexec⟩ | hreset | ⟨hframe, -⟩
  · rcases exec_command_effect hc hexec with ⟨n, -, heff⟩ | ⟨-, heff⟩ | ⟨-, heff⟩
    · obtain ⟨b, hset, hb⟩ := heff.slots
      refine ⟨by rw [heff.frame], .inl (by rw [hset, List.length_set]), fun m => ?_⟩
      exact slotKept_of_urb_set hset hb
    · rw [heff.frame]
      exact ⟨rfl, .inl rfl, fun m => slotKept_refl _ _⟩
    · rw [heff.frame]
      exact ⟨rfl, .inl rfl, fun m => slotKept_refl _ _⟩
  · have hurb : t.urb = List.replicate s.params.userSlots none := by rw [hreset]; rfl
    refine ⟨by rw [hreset]; rfl, .inr (by simp [hurb]), fun m => ?_⟩
    rw [slot_eq_none_of_replicate hurb]
    exact slotKept_none _ _
  · rw [hframe]
    exact ⟨rfl, .inl rfl, fun m => slotKept_refl _ _⟩

/-- Settles O47: across one step a slot is left, emptied, or updated at its capacity. -/
theorem capacityIsImmutable : Obligations.CapacityIsImmutable := by
  intro s t n b b' h hb hb'
  obtain ⟨-, -, hkept⟩ := step_slots h
  exact (hkept n b' hb').1 b hb

/-- Settles O51: across one step a buffer is new and sound, or comes from a sound one. -/
theorem stepKeepsUserBuffers : Obligations.StepKeepsUserBuffers := by
  rintro s t ⟨hlen, hsound⟩ h
  obtain ⟨hparams, hlength, hkept⟩ := step_slots h
  refine ⟨?_, fun n b hb => ?_⟩
  · rw [hparams]
    omega
  · rw [hparams]
    exact (hkept n b hb).2 (hsound n)

end Sys2Proof.Machine
end

section
/-! The obligations on reset and on the sine table of R36, whose entries are bounded here through their patterns. -/

namespace Sys2Proof.Machine

/-! ### Hardware reset -/

/-- A step whose event is hardware reset, stuck or not (R230, R240). -/
theorem step_hardReset {s : State} {rest : List HostEvent} (h : s.pending = .hardReset :: rest) :
    step s = .next (hardwareReset { s with pending := rest }) := by
  simp [step, stepEvent, h, eventAccepted, acceptEvent]

/-- Settles O11: hardware reset gets through, and every field it names is that of the state after reset. -/
theorem hardwareResetValues : Obligations.HardwareResetValues := fun _ _ h =>
  ⟨_, step_hardReset h, rfl, rfl, rfl, rfl, rfl, rfl, rfl, rfl, rfl⟩

/-! ### The sine table -/

/-- Strictly inside the first quarter the table is strictly between 0 and 1. -/
theorem sineQuarter_bounds : ∀ i, i < 512 → 0 < i → 0 < (sineQuarter i).toNat ∧ (sineQuarter i).toNat < 0x3F800000 := by
  decide +kernel

theorem sineQuarter_zero : sineQuarter 0 = 0 := by decide +kernel

theorem sineQuarter_peak : sineQuarter 512 = 0x3F800000 := by decide +kernel

/-- The second quarter mirrors the first (R36). -/
theorem sineHalf_mirror {i : Nat} (h : i ≤ 1024) : sineHalf (1024 - i) = sineHalf i := by
  unfold sineHalf
  split_ifs
  · rw [show 1024 - i = i by omega]
  · rfl
  · rw [show 1024 - (1024 - i) = i by omega]
  · omega

/-- Strictly inside the first half the table is above 0, and 1 at its peak only. -/
theorem sineHalf_bounds {i : Nat} (h0 : 0 < i) (h : i < 1024) :
    0 < (sineHalf i).toNat ∧ ((sineHalf i).toNat < 0x3F800000 ∨ i = 512 ∧ sineHalf i = 0x3F800000) := by
  have hquarter (j : Nat) (hj0 : 0 < j) (hj : j < 512) :
      0 < (sineHalf j).toNat ∧ (sineHalf j).toNat < 0x3F800000 := by
    rw [sineHalf, if_pos hj.le]
    exact sineQuarter_bounds j hj hj0
  rcases lt_trichotomy i 512 with hi | rfl | hi
  · exact (hquarter i h0 hi).imp_right .inl
  · have hpeak : sineHalf 512 = 0x3F800000 := sineQuarter_peak
    exact ⟨by rw [hpeak]; decide, .inr ⟨rfl, hpeak⟩⟩
  · rw [← sineHalf_mirror h.le]
    exact (hquarter (1024 - i) (by omega) (by omega)).imp_right .inl

theorem sine_first_half {i : Nat} (h : i ≤ 1024) : sine i = sineHalf i := if_pos h

/-- The second half is the first with the sign set (R36). -/
theorem sine_second_half {j : Nat} (h : 0 < j) : sine (1024 + j) = negate (sineHalf j) := by
  rw [sine, if_neg (by omega), Nat.add_sub_cancel_left]
  rfl

theorem sineHalf_zero : sineHalf 0 = 0 := sineQuarter_zero

theorem sineHalf_last : sineHalf 1024 = 0 := sineQuarter_zero

/-- The entries of the first half are no larger than 1. -/
theorem sineHalf_le {i : Nat} (h : i ≤ 1024) : (sineHalf i).toNat ≤ 0x3F800000 := by
  by_cases hends : i = 0 ∨ i = 1024
  · rcases hends with rfl | rfl
    · rw [sineHalf_zero]; decide
    · rw [sineHalf_last]; decide
  · rcases (sineHalf_bounds (i := i) (by omega) (by omega)).2 with hlt | ⟨-, hone⟩
    · exact hlt.le
    · rw [hone]; decide

theorem signBit_sineHalf {i : Nat} (h : i ≤ 1024) : signBit (sineHalf i) = false := by
  have := sineHalf_le h
  simp only [signBit, BitVec.msb_eq_decide, decide_eq_false_iff_not]
  omega

/-- An entry of the table is one of the first half, or one strictly inside it with the sign set. -/
theorem sine_cases {i : Nat} (h : i < 2048) :
    (i ≤ 1024 ∧ sine i = sineHalf i) ∨ (∃ j, 0 < j ∧ j < 1024 ∧ i = 1024 + j ∧ sine i = negate (sineHalf j)) := by
  rcases Nat.lt_or_ge 1024 i with hi | hi
  · obtain ⟨j, rfl⟩ := Nat.exists_eq_add_of_lt hi
    exact .inr ⟨j + 1, by omega, by omega, by omega, sine_second_half (Nat.succ_pos j)⟩
  · exact .inl ⟨hi, sine_first_half hi⟩

/-- A word at most 1.0 as a number is finite and at most 1 in magnitude. -/
theorem magnitude_le_of_toNat_le {x : Word} (h : x.toNat ≤ 0x3F800000) : isFinite x = true ∧ magnitude x ≤ unitsPerOne := by
  have hp : patternOf x ≤ 0x3F800000 := by
    have := toNat_fields x
    unfold patternOf
    omega
  refine ⟨(isFinite_iff_patternOf_lt x).2 (by omega), ?_⟩
  have hone : patternMagnitude 0x3F800000 = unitsPerOne := by decide +kernel
  rw [magnitude_eq_patternMagnitude, ← hone]
  exact patternMagnitude_strictMono.monotone hp

/-- Every entry of the default table is finite and in [-1, 1]. -/
theorem sine_range {i : Nat} (h : i < 2048) :
    isFinite (sine i) = true ∧ -(unitsPerOne : Int) ≤ realUnits (sine i) ∧ realUnits (sine i) ≤ (unitsPerOne : Int) := by
  have hbound : isFinite (sine i) = true ∧ magnitude (sine i) ≤ unitsPerOne := by
    rcases sine_cases h with ⟨hi, e⟩ | ⟨j, -, hj, -, e⟩
    · rw [e]
      exact magnitude_le_of_toNat_le (sineHalf_le hi)
    · rw [e, isFinite_negate, magnitude_negate]
      exact magnitude_le_of_toNat_le (sineHalf_le hj.le)
  refine ⟨hbound.1, abs_le.1 ?_⟩
  rw [abs_realUnits]
  exact_mod_cast hbound.2

/-- No entry is -0, and the two values of magnitude 1 stand at their peaks only. -/
theorem sine_special {i : Nat} (h : i < 2048) :
    sine i ≠ 0x80000000 ∧ (sine i = 0x3F800000 → i = 512) ∧ (sine i = 0xBF800000 → i = 1536) := by
  have hpeak {j : Nat} (h0 : 0 < j) (hj : j < 1024) (e : sineHalf j = 0x3F800000) : j = 512 := by
    rcases (sineHalf_bounds h0 hj).2 with hlt | ⟨hj', -⟩
    · rw [e] at hlt; exact absurd hlt (by decide)
    · exact hj'
  rcases sine_cases h with ⟨hi, e⟩ | ⟨j, hj0, hj, rfl, e⟩
  · have hsign := signBit_sineHalf hi
    rw [e]
    refine ⟨fun he => ?_, fun he => ?_, fun he => ?_⟩
    · rw [he] at hsign; exact absurd hsign (by decide)
    · have hends : i ≠ 0 ∧ i ≠ 1024 := by
        constructor <;> rintro rfl
        · rw [sineHalf_zero] at he; exact absurd he (by decide)
        · rw [sineHalf_last] at he; exact absurd he (by decide)
      exact hpeak (by omega) (by omega) he
    · rw [he] at hsign; exact absurd hsign (by decide)
  · have hsign : signBit (sine (1024 + j)) = true := by rw [e, signBit_negate, signBit_sineHalf hj.le]; rfl
    have hback : sineHalf j = negate (sine (1024 + j)) := by rw [e, negate_negate]
    refine ⟨fun he => ?_, fun he => ?_, fun he => ?_⟩
    · have hpos := (sineHalf_bounds hj0 hj).1
      rw [hback, he] at hpos
      exact absurd hpos (by decide)
    · rw [he] at hsign; exact absurd hsign (by decide)
    · rw [he] at hback
      have := hpeak hj0 hj (hback.trans (by decide))
      omega

/-- Settles O60: the checksums and the single entries are evaluated; the symmetries are those by which the table is made. -/
theorem sineTableShape : Obligations.SineTableShape := by
  refine ⟨by decide +kernel, by decide +kernel, by decide +kernel, by decide +kernel, by decide +kernel, by decide +kernel,
    by decide +kernel, by decide +kernel, by decide +kernel, by decide +kernel, fun i h0 hi => ⟨?_, ?_⟩, fun i hi => ⟨rfl, ?_⟩⟩
  · rw [sine_first_half (by omega), sine_first_half hi.le, sineHalf_mirror hi.le]
  · rw [sine_second_half h0, sine_first_half hi.le]
  · exact sine_special hi

/-! ### The invariants at reset -/

theorem userBuffersSound_resetWith (p : Params) : userBuffersSound (State.resetWith p) := by
  refine ⟨List.length_replicate, fun n b h => ?_⟩
  rw [slot_eq_none_of_replicate (resetWith_urb p)] at h
  cases h

/-- The default parameters are legal (R7). -/
theorem paramsLegal_default : paramsLegal defaultParams := by
  unfold paramsLegal
  refine ⟨?_, ?_, ?_, ?_, ?_, ?_, ?_, ?_, ?_, ?_, fun entries h => SineContents.noConfusion h, fun i hi => sine_range hi⟩
  all_goals decide

/-- Settles O54: no slot holds a buffer, the LFO and the engine have their reset values, and the default table is in range. -/
theorem resetMeetsInvariants : Obligations.ResetMeetsInvariants :=
  ⟨fun p => ⟨Nat.zero_le 4, memory_empty_wf, userBuffersSound_resetWith p, lfoSound_reset, vibSound_reset p⟩, rfl, rfl,
    paramsLegal_default⟩

end Sys2Proof.Machine
end

section
/-! The obligations on the sample memory: the byte order of R62, and the canonical form that every step keeps because memory changes
through `MemWrite` only. -/

namespace Sys2Proof.Machine

/-! ### Byte order -/

/-- Settles O55: of the four byte writes of `MemWrite`, only the one at byte `k` goes to that address. -/
theorem wordsAreLittleEndian : Obligations.WordsAreLittleEndian := by
  intro aw m a v k hk
  change readByte (memWrite aw m a v) (4 * (a % memoryWords aw) + k) = _
  obtain rfl | rfl | rfl | rfl : k = 0 ∨ k = 1 ∨ k = 2 ∨ k = 3 := by omega
  all_goals simp [memWrite, readByte, lookupByte_writeByte]

/-! ### Memory changes through `MemWrite` only -/

/-- A property of the memory that every `MemWrite` keeps is kept by every command: three commands write the memory, each in a
loop of `MemWrite`s, and the others leave it (R60). -/
theorem exec_command_mem_induct {i : Instr} {s t : State} (hc : isCommand i = true) (h : exec i s = .next t)
    (P : Memory → Prop) (hP : ∀ m a v, P m → P (memWrite s.params.addressWidth m a v)) (hs : P s.mem) : P t.mem := by
  by_cases hw : writesMemory i = false
  · rwa [exec_command_mem hc h hw]
  cases i <;> first | exact absurd rfl hw | skip
  case rbGetn n =>
    cases h
    rcases withSlot_cases n s _ with ⟨-, e⟩ | ⟨-, -, e⟩ | ⟨b, -, -, e⟩
    · rw [e]; exact hs
    · rw [e]; exact hs
    · rw [e]; exact getWords_mem_induct _ P hP _ _ b _ hs
  case lfoBlock =>
    cases h
    dsimp only
    split_ifs
    · exact hs
    · exact blockFrames_mem_induct _ _ _ P hP _ _ _ _ hs
    · exact blockFrames_mem_induct _ _ _ P hP _ _ _ _ hs
  case vibProcess =>
    cases h
    dsimp only
    split_ifs
    · exact hs
    · exact vibFrames_mem_induct _ _ _ P hP _ _ _ _ hs
    · exact vibFrames_mem_induct _ _ _ P hP _ _ _ _ hs

/-- A step keeps the parameters, and every property of the memory that every `MemWrite` keeps: commands, complete or abandoned, and
host writes change the memory in no other way (R60, R230). -/
theorem step_mem_induct {s t : State} (h : step s = .next t) (P : Memory → Prop)
    (hP : ∀ m a v, P m → P (memWrite s.params.addressWidth m a v)) (hs : P s.mem) : t.params = s.params ∧ P t.mem := by
  refine step_invariant (fun u => u.params = s.params ∧ P u.mem) ?instruction (fun _ _ hu => hu) (fun _ hu => hu)
    ?abandoned ?hostWrite s t ⟨rfl, hs⟩ h
  case instruction =>
    refine exec_invariant _ (fun i u u' hc hu hexec => ?_) (fun _ hu => hu) (fun _ _ _ hu => hu) (fun _ _ hu => hu)
    obtain ⟨hparams, hmem⟩ := hu
    refine ⟨?_, exec_command_mem_induct hc hexec P (by rwa [hparams]) hmem⟩
    rw [exec_command_frame hc hexec]
    exact hparams
  case abandoned =>
    rintro i writes u ⟨hparams, hmem⟩
    exact ⟨hparams, abandonedMemory_induct u P (by rwa [hparams]) i writes hmem⟩
  case hostWrite =>
    rintro a v u ⟨hparams, hmem⟩
    refine ⟨hparams, ?_⟩
    rw [hparams]
    exact hP _ a v hmem

/-- Settles O50: `MemWrite` keeps the canonical form. -/
theorem stepKeepsMemoryForm : Obligations.StepKeepsMemoryForm := by
  intro s t hs h
  obtain ⟨hparams, hmem⟩ := step_mem_induct h (fun m => Memory.wf s.params.addressWidth m = true)
    (fun m a v => memWrite_wf m a v) hs
  exact ⟨hparams, by rwa [hparams]⟩

end Sys2Proof.Machine
end

section
/-! SUPPORT. The opcode map of R84 as a table of rows, what a command and a transaction encode to, and the two put together: a word
decodes to an instruction exactly when it is that instruction's encoding. -/

namespace Sys2Proof

/-! ### The opcode map, row by row -/

/-- What the opcode map answers for an opcode and a selector, with the encoding of the instruction it answers: the opcode takes a
slot, no selector or any selector, or it is none of the 22 (R82, R84, R85). -/
inductive OpcodeRow (slots : Nat) (op sel : BitVec 8) : Except DecodeReject Instr → Prop
  | slot (make : BitVec 8 → Instr) (hop : 0x10 ≤ op.toNat ∧ op.toNat ≤ 0x1A)
      (henc : encode (make sel) = (32, (commandWord sel op).toNat))
      (hwf : (make sel).wellFormed slots = slotLegal slots sel) : OpcodeRow slots op sel (decodeSlot slots make sel)
  | bare (i : Instr) (hop : (0x21 ≤ op.toNat ∧ op.toNat ≤ 0x25) ∨ op.toNat = 0x30 ∨ op.toNat = 0x31 ∨ op.toNat = 0x34)
      (henc : encode i = (32, (commandWord 0 op).toNat)) (hwf : i.wellFormed slots = true) :
      OpcodeRow slots op sel (decodeBare i sel)
  | anySelector (i : Instr) (hop : op.toNat = 0x20 ∨ op.toNat = 0x32 ∨ op.toNat = 0x33)
      (henc : encode i = (32, (commandWord sel op).toNat)) (hwf : i.wellFormed slots = true) : OpcodeRow slots op sel (.ok i)
  | unknown (hop : ¬ ((0x10 ≤ op.toNat ∧ op.toNat ≤ 0x1A) ∨ (0x20 ≤ op.toNat ∧ op.toNat ≤ 0x25) ∨
      (0x30 ≤ op.toNat ∧ op.toNat ≤ 0x34))) : OpcodeRow slots op sel (.error .unknownOpcode)

theorem opcodeRow_decodeOpcode (slots : Nat) (op sel : BitVec 8) : OpcodeRow slots op sel (decodeOpcode slots op sel) := by
  unfold decodeOpcode
  split
  case h_1 h | h_2 h | h_3 h | h_4 h | h_5 h | h_6 h | h_7 h | h_8 h | h_9 h | h_10 h | h_11 h =>
    obtain ⟨-, rfl⟩ := BitVec.toNat_eq_nat.1 h
    exact .slot _ (by decide) rfl rfl
  case h_12 h | h_20 h | h_21 h =>
    obtain ⟨-, rfl⟩ := BitVec.toNat_eq_nat.1 h
    exact .anySelector _ (by decide) rfl rfl
  case h_13 h | h_14 h | h_15 h | h_16 h | h_17 h | h_18 h | h_19 h | h_22 h =>
    obtain ⟨-, rfl⟩ := BitVec.toNat_eq_nat.1 h
    exact .bare _ (by decide) rfl rfl
  case h_23 => exact .unknown (by simp only [imp_false] at *; omega)

/-! ### The tests of the selector (R85, tests 3 and 4) -/

theorem decodeSlot_eq_ok_iff {slots : Nat} {make : BitVec 8 → Instr} {sel : BitVec 8} {i : Instr} :
    decodeSlot slots make sel = .ok i ↔ slotLegal slots sel = true ∧ make sel = i := by
  unfold decodeSlot
  split_ifs with h <;> simp [h]

theorem decodeBare_eq_ok_iff {i j : Instr} {sel : BitVec 8} : decodeBare i sel = .ok j ↔ sel = 0 ∧ i = j := by
  unfold decodeBare
  split_ifs with h
  · simp [h]
  · exact ⟨nofun, fun ⟨hsel, _⟩ => absurd hsel h⟩

theorem slotLegal_iff {slots : Nat} {s : BitVec 8} : slotLegal slots s = true ↔ s.toNat < slots := decide_eq_true_iff

/-- Test 1 of R85, then the opcode map. -/
theorem decodeCommand_eq_ok_iff {slots : Nat} {w : Word} {i : Instr} :
    decodeCommand slots w = .ok i ↔ zeroField w = 0 ∧ decodeOpcode slots (opcodeField w) (selField w) = .ok i := by
  refine ⟨decodeCommand_ok, fun ⟨hz, h⟩ => ?_⟩
  rw [← commandWord_fields w hz, decodeCommand_commandWord, h]

/-- The opcode map answers an instruction exactly under tests 2, 3 and 4 of R85. -/
theorem decodeOpcode_isOk_iff (slots : Nat) (op sel : BitVec 8) :
    (∃ i, decodeOpcode slots op sel = .ok i) ↔
      ((0x10 ≤ op.toNat ∧ op.toNat ≤ 0x1A) ∨ (0x20 ≤ op.toNat ∧ op.toNat ≤ 0x25) ∨ (0x30 ≤ op.toNat ∧ op.toNat ≤ 0x34)) ∧
      ((0x21 ≤ op.toNat ∧ op.toNat ≤ 0x25) ∨ op.toNat = 0x30 ∨ op.toNat = 0x31 ∨ op.toNat = 0x34 → sel.toNat = 0) ∧
      (op.toNat ≤ 0x1A → sel.toNat < slots) := by
  have row := opcodeRow_decodeOpcode slots op sel
  generalize decodeOpcode slots op sel = answer at row
  cases row with
  | slot make hop => simp only [decodeSlot_eq_ok_iff, exists_and_left, exists_eq', and_true, slotLegal_iff]; omega
  | bare i hop =>
    have hsel : sel = 0 ↔ sel.toNat = 0 := BitVec.toNat_inj.symm
    simp only [decodeBare_eq_ok_iff, exists_and_left, exists_eq', and_true, hsel]
    omega
  | anySelector i hop => simp only [Except.ok.injEq, exists_eq', true_iff]; omega
  | unknown hop => simp only [reduceCtorEq, exists_false, false_iff]; exact fun h => hop h.1

/-- What the opcode map answers is well formed, and its encoding has that opcode and selector. -/
theorem encode_of_decodeOpcode {slots : Nat} {op sel : BitVec 8} {i : Instr} (h : decodeOpcode slots op sel = .ok i) :
    i.wellFormed slots = true ∧ encode i = (32, (commandWord sel op).toNat) := by
  have row := opcodeRow_decodeOpcode slots op sel
  generalize decodeOpcode slots op sel = answer at h row
  cases row with
  | slot make _ henc hwf =>
    obtain ⟨hlegal, rfl⟩ := decodeSlot_eq_ok_iff.1 h
    exact ⟨hwf.trans hlegal, henc⟩
  | bare j _ henc hwf =>
    obtain ⟨rfl, rfl⟩ := decodeBare_eq_ok_iff.1 h
    exact ⟨hwf, henc⟩
  | anySelector j _ henc hwf =>
    cases h
    exact ⟨hwf, henc⟩
  | unknown => cases h

/-! ### What an instruction encodes to -/

/-- A well-formed instruction encodes to a command word that decodes to it, or to a transaction that does. -/
theorem encode_cases {slots : Nat} {i : Instr} (hw : i.wellFormed slots = true) :
    (∃ w : Word, encode i = (32, w.toNat) ∧ decodeCommand slots w = .ok i) ∨
    (∃ t : BitVec 36, encode i = (36, t.toNat) ∧ decodeTransaction t = i) := by
  cases i with
  | rbCreate s | rbDestroy s | rbPut s | rbPutn s | rbGet s | rbGetpi s | rbGetn s | rbSetrd s | rbGetrd s | rbSetwr s
  | rbGetwr s => exact .inl ⟨_, rfl, (decodeCommand_commandWord slots s _).trans (decodeSlot_eq_ok_iff.2 ⟨hw, rfl⟩)⟩
  | lfoInit sel | vibSetparam sel | vibGetparam sel => exact .inl ⟨_, rfl, decodeCommand_commandWord slots sel _⟩
  | lfoReset | lfoSetfreq | lfoGetfreq | lfoNext | lfoBlock | vibInit | vibReset | vibProcess =>
    exact .inl ⟨_, rfl, (decodeCommand_commandWord slots 0 _).trans (decodeBare_eq_ok_iff.2 ⟨rfl, rfl⟩)⟩
  | wr addr wdata => exact .inr ⟨_, rfl, decodeTransaction_write addr wdata⟩
  | rd addr => exact .inr ⟨_, rfl, decodeTransaction_read addr⟩

/-! ### Rows of the opcode table -/

/-- A 32-bit row is decoded as a command word (R80). -/
theorem decodeBits_word (slots : Nat) (w : Word) : decodeBits slots 32 w.toNat = (decodeCommand slots w).toOption := by
  simp [decodeBits, w.isLt]

/-- A 36-bit row is decoded as a transaction (R100). -/
theorem decodeBits_transaction (slots : Nat) (t : BitVec 36) :
    decodeBits slots 36 t.toNat = some (decodeTransaction t) := by
  simp [decodeBits, t.isLt]

theorem decodeBits_encode {slots : Nat} {i : Instr} (hw : i.wellFormed slots = true) :
    decodeBits slots (encode i).1 (encode i).2 = some i := by
  rcases encode_cases hw with ⟨w, henc, hdec⟩ | ⟨t, henc, hdec⟩
  · rw [henc, decodeBits_word, hdec]; rfl
  · rw [henc, decodeBits_transaction, hdec]

/-! ### Transactions (R100, R102) -/

/-- A transaction decoded as a write is the one that writes its data to its address. -/
theorem writeTransaction_fields {t : BitVec 36} (h : t.msb = true) :
    writeTransaction (t.extractLsb' 32 3) (t.extractLsb' 0 32) = t := by
  have ht := t.isLt
  have hmsb : 2 ^ 35 ≤ t.toNat := by simpa [BitVec.msb_eq_decide] using h
  apply BitVec.eq_of_toNat_eq
  simp only [writeTransaction_toNat, BitVec.extractLsb'_toNat, Nat.shiftRight_eq_div_pow]
  omega

/-- A transaction decoded as a read keeps its bits 35:32. -/
theorem readTransaction_fields {t : BitVec 36} (h : t.msb = false) :
    (readTransaction (t.extractLsb' 32 3)).toNat = t.toNat / 2 ^ 32 * 2 ^ 32 := by
  have hmsb : t.toNat < 2 ^ 35 := by simpa [BitVec.msb_eq_decide] using h
  simp only [readTransaction_toNat, BitVec.extractLsb'_toNat, Nat.shiftRight_eq_div_pow]
  omega

theorem encode_decodeTransaction_write {t : BitVec 36} (h : t.msb = true) : encode (decodeTransaction t) = (36, t.toNat) := by
  rw [decodeTransaction, if_pos h, encode, writeTransaction_fields h]

theorem encode_decodeTransaction_read {t : BitVec 36} (h : t.msb = false) :
    encode (decodeTransaction t) = (36, t.toNat / 2 ^ 32 * 2 ^ 32) := by
  rw [decodeTransaction, if_neg (by simp [h]), encode, readTransaction_fields h]

end Sys2Proof
end

section
/-! The obligations on the encoding (R80 to R85, R100 to R102): decoder and encoder agree, an undefined word raises IllegalCall, and
a placed encoding runs its instruction. -/

namespace Sys2Proof.Machine

/-! ### Decoder and encoder -/

/-- Settles O1: a well-formed instruction's word or transaction decodes to it, on every machine and on the default one. -/
theorem decodeOfEncode : Obligations.DecodeOfEncode :=
  ⟨fun _ _ hw => decodeBits_encode hw, fun _ hw => decodeBits_encode hw⟩

/-- Settles O2: each row of the opcode map names the instruction of that opcode and selector, and a transaction is its fields. -/
theorem encodeOfDecode : Obligations.EncodeOfDecode := by
  refine ⟨fun slots w i h => ?_, fun _ => encode_decodeTransaction_write, fun _ => encode_decodeTransaction_read⟩
  obtain ⟨hz, hop⟩ := decodeCommand_ok h
  have henc := encode_of_decodeOpcode hop
  rwa [commandWord_fields w hz] at henc

/-- Settles O4: the written words are evaluated. -/
theorem writtenWordsDecode : Obligations.WrittenWordsDecode := by
  unfold Obligations.WrittenWordsDecode
  decide

/-! ### A write to `CMD` -/

/-- A word that decodes, written to `CMD`, runs its command (R101). -/
theorem exec_wr_cmd_of_decode {w : Word} {s : State} {i : Instr} (h : decodeCommand s.params.userSlots w = .ok i) :
    exec (.wr 0 w) s = exec i s := by
  change executeWord w s = exec i s
  rcases executeWord_cases w s with ⟨r, herr, -⟩ | ⟨j, hok, -, hexec⟩
  · rw [h] at herr; cases herr
  · rw [h] at hok; cases hok; exact hexec

/-- A word that does not decode, written to `CMD`, raises IllegalCall (R85). -/
theorem exec_wr_cmd_of_undefined {w : Word} {s : State} (h : ∀ i, decodeCommand s.params.userSlots w ≠ .ok i) :
    exec (.wr 0 w) s = .next (raise .illegalCall s) := by
  change executeWord w s = _
  rcases executeWord_cases w s with ⟨r, -, hraise⟩ | ⟨i, hok, -⟩
  · exact hraise
  · exact absurd hok (h i)

/-- Settles O3: the four tests in the fields of the word, and the undefined word's IllegalCall. -/
theorem undefinedWordRaisesIllegalCall : Obligations.UndefinedWordRaisesIllegalCall := by
  intro slots w
  constructor
  · have hz : zeroField w = 0 ↔ (zeroField w).toNat = 0 := BitVec.toNat_inj.symm
    simp only [decodeCommand_eq_ok_iff, exists_and_left, decodeOpcode_isOk_iff, hz, zeroField_toNat, selField_toNat,
      opcodeField_toNat]
  · rintro s rfl h
    exact exec_wr_cmd_of_undefined h

/-! ### Selectors that name no slot (log 11) -/

theorem exec_of_slot_not_legal {i : Instr} {n : BitVec 8} {s : State} (hi : ringBufferSlot i = some n)
    (h : slotLegal s.params.userSlots n = false) : exec i s = .next (raise .illegalCall s) := by
  have hbody (body : State) : withLegalSlot n s body = raise .illegalCall s := by simp [withLegalSlot, h]
  cases i <;> cases hi
  all_goals exact congrArg _ (hbody _)

/-- Settles O23: each of the eleven names the slot `n`, which is not legal. -/
theorem slotOutOfRange : Obligations.SlotOutOfRange := by
  intro n s i hn hi
  have hslot : ∀ j ∈ [.rbCreate n, .rbDestroy n, .rbPut n, .rbPutn n, .rbGet n, .rbGetpi n, .rbGetn n, .rbSetrd n, .rbGetrd n,
      .rbSetwr n, .rbGetwr n], ringBufferSlot j = some n := by simp [ringBufferSlot]
  exact exec_of_slot_not_legal (hslot i hi) (decide_eq_false (by omega))

/-! ### A placed instruction -/

/-- A transaction that is the next event, the port not blocked, is executed (R103). -/
theorem step_withTransaction (s : State) (t : BitVec 36) :
    step (withTransaction s t) = exec (decodeTransaction t) { s with stuck := false } := rfl

/-- A command word is placed as the write of it to `CMD` (R80, R101). -/
theorem fetchTransaction_word (w : Word) : fetchTransaction 32 w.toNat = writeTransaction 0 w := by simp [fetchTransaction]

theorem fetchTransaction_transaction (t : BitVec 36) : fetchTransaction 36 t.toNat = t := by simp [fetchTransaction]

/-- Settles O8: a command runs through the write of its word to `CMD`, a transaction runs itself. -/
theorem stepRunsPlacedInstruction : Obligations.StepRunsPlacedInstruction := by
  intro i s hw
  unfold State.withFetchWord
  rw [step_withTransaction]
  rcases encode_cases hw with ⟨w, henc, hdec⟩ | ⟨t, henc, hdec⟩
  · rw [henc, fetchTransaction_word, decodeTransaction_write]
    exact exec_wr_cmd_of_decode hdec
  · rw [henc, fetchTransaction_transaction, hdec]

end Sys2Proof.Machine
end

section
/-! The obligations on the host port (R100 to R104, R207, R232, R240): what a write and a read transaction do at each offset, which
event a step takes, and that every instruction and every step answers a next state. -/

namespace Sys2Proof.Machine

/-! ### A write transaction (R101) -/

/-- A write to an argument register stores the word and does nothing else. -/
theorem exec_wr_argument {addr : BitVec 3} {k : Fin 4} (h : addr.toNat = 4 + k.val) (w : Word) (s : State) :
    exec (.wr addr w) s = .next (setArg k w s) := by
  change execWr addr w s = _
  rcases execWr_cases addr w s with ⟨rfl, -⟩ | ⟨j, hj, hset⟩ | ⟨rfl | rfl | rfl, -⟩
  case inr.inl =>
    obtain rfl : j = k := Fin.ext (by omega)
    exact hset
  all_goals bv_omega

/-- A write to `ST`, to `RES` or to offset 3 is ignored. -/
theorem exec_wr_ignored {addr : BitVec 3} (h : addr = 1 ∨ addr = 2 ∨ addr = 3) (w : Word) (s : State) :
    exec (.wr addr w) s = .next s := by
  rcases h with rfl | rfl | rfl <;> rfl

/-- Settles O5: the write to `CMD` by whether the word decodes, and the other offsets by the register there. -/
theorem writePort : Obligations.WritePort := by
  intro addr w s
  refine ⟨?executes, ?undefined, fun h => exec_wr_ignored h w s, ?a0, ?a1, ?a2, ?a3⟩
  case executes => rintro rfl i h; exact exec_wr_cmd_of_decode h
  case undefined => rintro rfl h; exact exec_wr_cmd_of_undefined h
  case a0 => rintro rfl; exact exec_wr_argument (k := 0) rfl w s
  case a1 => rintro rfl; exact exec_wr_argument (k := 1) rfl w s
  case a2 => rintro rfl; exact exec_wr_argument (k := 2) rfl w s
  case a3 => rintro rfl; exact exec_wr_argument (k := 3) rfl w s

/-! ### A read transaction (R102) -/

/-- The eight offsets of the port (R100). -/
theorem portOffset_cases (addr : BitVec 3) :
    addr = 0 ∨ addr = 1 ∨ addr = 2 ∨ addr = 3 ∨ addr = 4 ∨ addr = 5 ∨ addr = 6 ∨ addr = 7 := by
  revert addr; decide

/-- What each offset reads as. -/
theorem portValue_eq (addr : BitVec 3) (s : State) :
    portValue addr s =
      if addr = 1 then s.st else if addr = 2 then s.res else if addr = 4 then s.args[0] else if addr = 5 then s.args[1]
      else if addr = 6 then s.args[2] else if addr = 7 then s.args[3] else 0 := by
  rcases portOffset_cases addr with rfl | rfl | rfl | rfl | rfl | rfl | rfl | rfl <;> rfl

/-- A read changes `rdata` only (log 10). -/
theorem exec_rd (addr : BitVec 3) (s : State) : exec (.rd addr) s = .next { s with rdata := portValue addr s } := rfl

/-- Settles O6: a read puts the value of the port register at its offset in `rdata`. -/
theorem readPort : Obligations.ReadPort := by
  intro addr s
  rw [exec_rd, portValue_eq]

/-! ### Which event a step takes (R103, R240) -/

/-- An event that can reach the CORE is taken from the list and happens. -/
theorem step_of_accepted {s : State} {e : HostEvent} {rest : List HostEvent} (hp : s.pending = e :: rest)
    (ha : eventAccepted e s = true) : step s = acceptEvent e { s with pending := rest } := by
  simp [step, stepEvent, hp, ha]

/-- An event that cannot reach the CORE waits, and nothing changes. -/
theorem step_of_not_accepted {s : State} {e : HostEvent} {rest : List HostEvent} (hp : s.pending = e :: rest)
    (ha : eventAccepted e s = false) : step s = .next s := by
  simp [step, stepEvent, hp, ha]

/-- The port that is not blocked accepts every event. -/
theorem eventAccepted_of_not_stuck {s : State} (h : s.stuck = false) (e : HostEvent) : eventAccepted e s = true := by
  simp [eventAccepted, h]

/-- The blocked port holds every event but hardware reset. -/
theorem eventAccepted_of_stuck {s : State} (h : s.stuck = true) {e : HostEvent} (he : e ≠ .hardReset) :
    eventAccepted e s = false := by
  simp [eventAccepted, h, he]

/-- Settles O7: the transaction is accepted, and what it does is its decoded instruction. -/
theorem stepRunsTransaction : Obligations.StepRunsTransaction := fun _ bits _ hs hp =>
  step_of_accepted hp (eventAccepted_of_not_stuck hs (.transaction bits))

/-- Settles O9: while stuck every event waits but hardware reset, which leaves the state after reset. -/
theorem stuckPortBlocks : Obligations.StuckPortBlocks := by
  intro s e rest hs hp
  constructor
  · intro he
    exact step_of_not_accepted hp (eventAccepted_of_stuck hs he)
  · rintro rfl
    exact ⟨_, step_hardReset hp, rfl, rfl, rfl⟩

/-! ### Every step answers a next state (R104, R206, R232) -/

/-- The meaning of every command is a next state, a failing or a stuck one included. -/
theorem exec_command_answers {i : Instr} (hc : isCommand i = true) (s : State) : ∃ t, exec i s = .next t := by
  cases i
  case wr | rd => cases hc
  all_goals exact ⟨_, rfl⟩

theorem exec_answers (i : Instr) (s : State) : ∃ t, exec i s = .next t := by
  cases i
  case wr addr w =>
    change ∃ t, execWr addr w s = .next t
    rcases execWr_cases addr w s with ⟨-, e⟩ | ⟨k, -, e⟩ | ⟨-, e⟩
    · rcases executeWord_cases w s with ⟨r, -, e'⟩ | ⟨j, -, hj, e'⟩
      · exact ⟨_, e.trans e'⟩
      · rw [e, e']; exact exec_command_answers hj s
    · exact ⟨_, e⟩
    · exact ⟨_, e⟩
  case rd addr => exact ⟨_, exec_rd addr s⟩
  all_goals exact exec_command_answers rfl s

/-- Every event from outside leads to a next state; only a transaction runs an instruction. -/
theorem acceptEvent_answers (e : HostEvent) (s : State) : ∃ t, acceptEvent e s = .next t := by
  cases e with
  | transaction bits => exact exec_answers (decodeTransaction bits) s
  | hardReset => exact ⟨_, rfl⟩
  | resetDuring bits writes => exact ⟨_, rfl⟩
  | memWrite addr value => exact ⟨_, rfl⟩

/-- Settles O10: a step waits or accepts an event, and both answer a next state. -/
theorem everyStepAnswersNext : Obligations.EveryStepAnswersNext := by
  refine ⟨exec_answers, fun s => ?_⟩
  rcases step_cases s with ⟨-, e⟩ | ⟨_, _, -, -, e⟩ | ⟨ev, rest, -, -, e⟩
  · exact ⟨_, e⟩
  · exact ⟨_, e⟩
  · rw [e]; exact acceptEvent_answers ev _

end Sys2Proof.Machine
end

section
/-! SUPPORT. The preamble of the ring-buffer commands as the statements write a slot: a command on a slot without a buffer ends with
NotInitialized, one on a slot with a buffer runs its body (R111). -/

namespace Sys2Proof.Machine

variable {n : BitVec 8} {s : State}

theorem slot_of_getElem? {o : Option RingBuffer} (h : s.urb[n.toNat]? = some o) : slot n s = o := by
  simp [slot, h]

theorem withSlot_absent (hn : n.toNat < s.params.userSlots) (h : s.urb[n.toNat]? = some none) (body : RingBuffer → State) :
    withSlot n s body = { s with st := 2 } :=
  withSlot_none body (slotLegal_iff.2 hn) (slot_of_getElem? h)

theorem withSlot_present {b : RingBuffer} (hn : n.toNat < s.params.userSlots) (h : s.urb[n.toNat]? = some (some b))
    (body : RingBuffer → State) : withSlot n s body = body b :=
  withSlot_some body (slotLegal_iff.2 hn) (slot_of_getElem? h)

/-- The answer of a command with the preamble, on a slot that exists. -/
theorem answer_present {b : RingBuffer} (hn : n.toNat < s.params.userSlots) (h : s.urb[n.toNat]? = some (some b))
    (body : RingBuffer → State) : (.next (withSlot n s body) : Answer) = .next (body b) :=
  congrArg _ (withSlot_present hn h body)

/-- The commands on slot `n` that begin with the preamble of R111. -/
def preambleCommands (n : BitVec 8) : List Instr :=
  [.rbPut n, .rbPutn n, .rbGet n, .rbGetpi n, .rbGetn n, .rbSetrd n, .rbGetrd n, .rbSetwr n, .rbGetwr n]

/-- Each of the nine commands with the preamble of R111 is that preamble and a body that ends with NoError. -/
theorem exec_eq_withSlot {i : Instr} (hi : i ∈ preambleCommands n) (s : State) :
    ∃ body, exec i s = .next (withSlot n s body) ∧ ∀ b, (body b).st = 0 := by
  simp only [preambleCommands, List.mem_cons, List.not_mem_nil, or_false] at hi
  rcases hi with rfl | rfl | rfl | rfl | rfl | rfl | rfl | rfl | rfl
  all_goals exact ⟨_, rfl, fun _ => rfl⟩

/-- On a slot that does not exist each of the nine raises NotInitialized (R111). -/
theorem exec_of_absent {i : Instr} (hn : n.toNat < s.params.userSlots) (h : s.urb[n.toNat]? = some none)
    (hi : i ∈ preambleCommands n := by simp [preambleCommands]) : exec i s = .next { s with st := 2 } := by
  obtain ⟨body, hexec, -⟩ := exec_eq_withSlot hi s
  rw [hexec, withSlot_absent hn h]

end Sys2Proof.Machine
end

section
/-! The obligations on the ring-buffer commands that touch one cursor or one word (R111 to R114, R116, R117, R119 to R122). -/

namespace Sys2Proof.Machine

/-- On a legal slot that is free, `RB.CREATE` goes by its capacity alone. -/
theorem exec_rbCreate_free {n : BitVec 8} {s : State} (hn : n.toNat < s.params.userSlots) (h : s.urb[n.toNat]? = some none) :
    exec (.rbCreate n) s = .next
      (if s.args[0].toInt ≤ 0 then raise .invalidArguments s
      else if (s.params.userCapacityMax : Int) < s.args[0].toInt then raise .unknownError s
      else complete (setSlot n (some (rbCreated s.args[0].toInt.toNat)) s)) := by
  change execRbCreate n s = _
  rw [execRbCreate, withLegalSlot_legal _ _ (slotLegal_iff.2 hn), slot_of_getElem? h]
  rfl

/-- Settles O14: the three tests in their order, each failure leaving the rest of the state. -/
theorem rbCreate : Obligations.RbCreate := by
  intro n s hn
  refine ⟨fun b h => ?_, fun h hlow => ?_, fun h hhigh => ?_, fun h hlow hhigh => ?_⟩
  · change execRbCreate n s = _
    rw [execRbCreate, withLegalSlot_legal _ _ (slotLegal_iff.2 hn), slot_of_getElem? h]
    rfl
  · rw [exec_rbCreate_free hn h, if_pos hlow]
    rfl
  · rw [exec_rbCreate_free hn h, if_neg (by omega), if_pos hhigh]
    rfl
  · rw [exec_rbCreate_free hn h, if_neg (by omega), if_neg (by omega)]
    rfl

/-- Settles O15: past the test of the selector `RB.DESTROY` has no other. -/
theorem rbDestroy : Obligations.RbDestroy := fun _ s hn =>
  congrArg _ (withLegalSlot_legal s _ (slotLegal_iff.2 hn))

/-- Settles O16: the nine commands are the preamble and a body that ends with NoError. -/
theorem rbPreamble : Obligations.RbPreamble := by
  refine fun n s i hn hi => ⟨fun h => exec_of_absent hn h hi, fun b h => ?_⟩
  obtain ⟨body, hexec, hst⟩ := exec_eq_withSlot hi s
  exact ⟨body b, hexec.trans (answer_present hn h body), hst b⟩

/-- Settles O17: R106 and R107 on the slot's buffer. -/
theorem rbPutAndGetpi : Obligations.RbPutAndGetpi := by
  intro n s hn
  refine ⟨fun h => ⟨exec_of_absent hn h, exec_of_absent hn h⟩, fun b h => ⟨?put, fun v hv => ?getpi⟩⟩
  case put => exact answer_present hn h _
  case getpi =>
    have hvalue : rbValue b = v := by rw [rbValue, List.getD_eq_getElem?_getD, hv, Option.getD_some]
    rw [← hvalue]
    exact answer_present hn h _

/-- Settles O20: the body of `RB.GET` returns the fractional read. -/
theorem rbGet : Obligations.RbGet := fun _ _ hn =>
  ⟨fun h => exec_of_absent hn h, fun _ h => answer_present hn h _⟩

/-- Settles O22: the setters store `RbNorm` of `A0`, the getters return the cursor. -/
theorem cursorCommands : Obligations.CursorCommands := by
  intro n s hn
  constructor
  · intro h
    exact ⟨exec_of_absent hn h, exec_of_absent hn h, exec_of_absent hn h, exec_of_absent hn h⟩
  · intro b h
    exact ⟨answer_present hn h _, answer_present hn h _, answer_present hn h _, answer_present hn h _⟩

end Sys2Proof.Machine
end

section
/-! The obligations on the bulk commands (R115, R118): their loops, told by the last round. -/

namespace Sys2Proof.Machine

variable {aw : Nat}

/-- The base address is taken modulo 2^AW before the element's number is added, and the sum again (R61, R67). -/
theorem effectiveAddress1_mod (a k : Nat) : effectiveAddress1 aw (a % memoryWords aw) k = (a + k) % memoryWords aw :=
  Nat.mod_add_mod ..

/-- Two rounds less than a whole turn apart meet different positions of the ring. -/
theorem ring_positions_ne {c p j k : Nat} (hjk : j < k) (h : k < j + c) : (p + j) % c ≠ (p + k) % c := by
  intro heq
  have hdvd : c ∣ p + k - (p + j) := (Nat.modEq_iff_dvd' (by omega)).1 heq
  have := Nat.le_of_dvd (by omega) hdvd
  omega

/-! ### `RB.PUTN` -/

theorem putWords_succ_last (mem : Memory) (src n : Nat) (b : RingBuffer) :
    putWords aw mem src (n + 1) 0 b = rbPut (putWords aw mem src n 0 b) (memRead aw mem (effectiveAddress1 aw src n)) := by
  rw [putWords_add, Nat.zero_add]
  rfl

theorem putWords_wr (mem : Memory) (src n : Nat) {b : RingBuffer} (hwr : b.wr < b.cap) :
    (putWords aw mem src n 0 b).wr = (b.wr + n) % b.cap := by
  induction n with
  | zero => exact (Nat.mod_eq_of_lt hwr).symm
  | succ n ih => rw [putWords_succ_last, rbPut_wr, putWords_cap, ih, Nat.mod_add_mod, Nat.add_assoc]

/-- The last round writes the position `n` after the write cursor and no other. -/
theorem putWords_store_succ (mem : Memory) (src n : Nat) {b : RingBuffer} (hwr : b.wr < b.cap) :
    (putWords aw mem src (n + 1) 0 b).store =
      (putWords aw mem src n 0 b).store.set ((b.wr + n) % b.cap) (memRead aw mem (effectiveAddress1 aw src n)) := by
  rw [putWords_succ_last, rbPut_store, putWords_wr mem src n hwr]

/-- Each of the last `C` words stands where it was put: no later round came round the ring to it. -/
theorem putWords_store_written {capMax : Nat} {b : RingBuffer} (hb : bufferSound capMax b) (mem : Memory) (a : Nat) {n k : Nat}
    (hk : k < n) (hlast : n ≤ k + b.cap) :
    (putWords aw mem (a % memoryWords aw) n 0 b).store[(b.wr + k) % b.cap]? = some (memRead aw mem (a + k)) := by
  obtain ⟨hcap, -, -, hwr, hlen⟩ := hb
  induction n with
  | zero => omega
  | succ n ih =>
    rw [putWords_store_succ mem _ n hwr]
    rcases Nat.lt_or_ge k n with h | h
    · rw [List.getElem?_set_ne (ring_positions_ne h (by omega)).symm]
      exact ih h (by omega)
    · obtain rfl : k = n := by omega
      have hpos : (b.wr + k) % b.cap < b.cap := Nat.mod_lt _ hcap
      rw [List.getElem?_set_self (by rwa [putWords_store_length, hlen]), effectiveAddress1_mod, memRead_mod]

theorem putWords_store_other (mem : Memory) (src : Nat) {b : RingBuffer} (hwr : b.wr < b.cap) {n p : Nat}
    (hp : ∀ k, k < n → (b.wr + k) % b.cap ≠ p) : (putWords aw mem src n 0 b).store[p]? = b.store[p]? := by
  induction n with
  | zero => rfl
  | succ n ih =>
    rw [putWords_store_succ mem src n hwr, List.getElem?_set_ne (hp n n.lt_succ_self)]
    exact ih fun k hk => hp k (by omega)

/-- Settles O18, by the rounds of the loop. -/
theorem rbPutn : Obligations.RbPutn := by
  refine fun n s hn => ⟨fun h => exec_of_absent hn h, fun b h hb => ?_⟩
  have ⟨_, _, _, hwr, hlen⟩ := hb
  exact ⟨_, answer_present hn h _, putWords_cap .., putWords_rd .., putWords_wr _ _ _ hwr, (putWords_store_length ..).trans hlen,
    fun k => putWords_store_written hb _ _, fun p => putWords_store_other _ _ hwr⟩

/-! ### `RB.GETN` -/

theorem getWords_succ_last (dst n : Nat) (b : RingBuffer) (m : Memory) :
    getWords aw dst (n + 1) 0 b m =
      (rbAdvance (getWords aw dst n 0 b m).1,
        memWrite aw (getWords aw dst n 0 b m).2 (effectiveAddress1 aw dst n) (rbValue (getWords aw dst n 0 b m).1)) := by
  rw [getWords_add, Nat.zero_add]
  rfl

/-- The loop of `RB.GETN` advances the read cursor by the number of its rounds and leaves the rest of the buffer (R118). -/
theorem getWords_fst (dst n : Nat) {b : RingBuffer} (m : Memory) (hrd : b.rd < b.cap) :
    (getWords aw dst n 0 b m).1 = { b with rd := (b.rd + n) % b.cap } := by
  induction n with
  | zero => rw [getWords, Nat.add_zero, Nat.mod_eq_of_lt hrd]
  | succ n ih => rw [getWords_succ_last, ih, rbAdvance, Nat.mod_add_mod, Nat.add_assoc]

/-- The last round writes the element `n` after the read cursor. -/
theorem getWords_snd_succ (n a : Nat) {b : RingBuffer} (m : Memory) (hrd : b.rd < b.cap) :
    (getWords aw (a % memoryWords aw) (n + 1) 0 b m).2 =
      memWrite aw (getWords aw (a % memoryWords aw) n 0 b m).2 (a + n) (b.store.getD ((b.rd + n) % b.cap) posZero) := by
  rw [getWords_succ_last, getWords_fst _ _ _ hrd, effectiveAddress1_mod, memWrite_mod, rbValue]

/-- Each of the last 2^AW words stands where it was written: no later round came round the memory to it. -/
theorem memRead_getWords {capMax : Nat} {b : RingBuffer} (hb : bufferSound capMax b) (m : Memory) (a : Nat) {n k : Nat}
    (hk : k < n) (hlast : n ≤ k + memoryWords aw) :
    some (memRead aw (getWords aw (a % memoryWords aw) n 0 b m).2 (a + k)) = b.store[(b.rd + k) % b.cap]? := by
  obtain ⟨hcap, -, hrd, -, hlen⟩ := hb
  induction n with
  | zero => omega
  | succ n ih =>
    rw [getWords_snd_succ n a m hrd]
    rcases Nat.lt_or_ge k n with h | h
    · rw [memRead_memWrite_other _ _ _ _ (ring_positions_ne h (by omega))]
      exact ih h (by omega)
    · obtain rfl : k = n := by omega
      have hpos : (b.rd + k) % b.cap < b.store.length := by rw [hlen]; exact Nat.mod_lt _ hcap
      rw [memRead_memWrite_same _ _ _ _ rfl, List.getD_eq_getElem _ _ hpos, List.getElem?_eq_getElem hpos]

theorem readByte_getWords_other (m : Memory) (a : Nat) {b : RingBuffer} (hrd : b.rd < b.cap) {n x : Nat}
    (hx : ∀ k, k < n → x / 4 ≠ (a + k) % memoryWords aw) :
    readByte (getWords aw (a % memoryWords aw) n 0 b m).2 x = readByte m x := by
  induction n with
  | zero => rfl
  | succ n ih =>
    rw [getWords_snd_succ n a m hrd, readByte_memWrite_other _ _ _ _ (hx n n.lt_succ_self)]
    exact ih fun k hk => hx k (by omega)

/-- Settles O19, by the rounds of the loop. -/
theorem rbGetn : Obligations.RbGetn := by
  refine fun n s hn => ⟨fun h => exec_of_absent hn h, fun b h hb => ?_⟩
  have ⟨_, _, hrd, _, _⟩ := hb
  refine ⟨(getWords s.params.addressWidth (argAddress 0 s) (argUint 1 s) 0 b s.mem).2, ?_,
    fun k => memRead_getWords hb _ _, fun x => readByte_getWords_other _ _ hrd⟩
  refine (answer_present hn h _).trans ?_
  simp only [getWords_fst _ _ _ hrd]
  rfl

end Sys2Proof.Machine
end

section
/-! SUPPORT. Exact results. A significand of at most 24 bits at any place up to that of 1 is a value, and an operation whose exact
result is a value gives that value; so the floor of a value is one, and for a value not below zero its fraction is one. -/

namespace Sys2Proof.Machine

theorem unitsPerOne_eq : unitsPerOne = 2 ^ 149 := by unfold unitsPerOne; rfl

theorem realUnits_oneF : realUnits oneF = (unitsPerOne : Int) := by decide +kernel

theorem magnitude_oneF : magnitude oneF = unitsPerOne := by decide +kernel

/-! ### Significands -/

/-- A word's magnitude is a significand of 24 bits at some place. -/
theorem magnitude_eq_significand (x : Word) : ∃ m k, m < 2 ^ 24 ∧ magnitude x = m * 2 ^ k := by
  have hf := fractionField_lt x
  unfold magnitude
  split_ifs
  · exact ⟨_, 0, by omega, (mul_one _).symm⟩
  · exact ⟨_, _, by omega, rfl⟩

/-- Every such number is the magnitude of a pattern: a shorter significand is shifted until it has 24 bits or stands at the lowest
place. -/
theorem exists_patternMagnitude_eq {m : Nat} (k : Nat) (hm : m ≤ 2 ^ 24) : ∃ p, patternMagnitude p = m * 2 ^ k := by
  induction k generalizing m with
  | zero => exact ⟨_, patternMagnitude_significand (.inl rfl) hm⟩
  | succ k ih =>
    rcases Nat.lt_or_ge m (2 ^ 23) with h | h
    · obtain ⟨p, hp⟩ := ih (m := 2 * m) (by omega)
      exact ⟨p, by rw [hp, pow_succ]; ring⟩
    · exact ⟨_, patternMagnitude_significand (.inr h) hm⟩

/-- A significand of at most 24 bits at a place up to that of 1 is, with either sign, the value of a finite word. -/
theorem exists_realUnits_eq (neg : Bool) {m k : Nat} (hm : m ≤ 2 ^ 24) (hk : k ≤ 149) :
    ∃ c, isFinite c = true ∧ realUnits c = signedInt neg (m * 2 ^ k) := by
  obtain ⟨p, hp⟩ := exists_patternMagnitude_eq k hm
  have hlt : p < 0x7F800000 := by
    rw [← patternMagnitude_strictMono.lt_iff_lt, hp]
    calc m * 2 ^ k ≤ 2 ^ 24 * 2 ^ 149 := Nat.mul_le_mul hm (Nat.pow_le_pow_right two_pos hk)
      _ < patternMagnitude 0x7F800000 := by norm_num [patternMagnitude]
  have hpat : patternOf (BitVec.ofNat 32 p) = p := patternOf_ofNat (by omega)
  have hfin : isFinite (BitVec.ofNat 32 p) = true := by rwa [isFinite_iff_patternOf_lt, hpat]
  have hreal : realUnits (BitVec.ofNat 32 p) = ((m * 2 ^ k : Nat) : Int) := by
    rw [realUnits_eq_signedInt, signBit_ofNat (by omega), magnitude_eq_patternMagnitude, hpat, hp]
    rfl
  cases neg with
  | false => exact ⟨_, hfin, hreal⟩
  | true => exact ⟨_, (isFinite_negate _).trans hfin, by rw [realUnits_negate, hreal]; rfl⟩

/-! ### Results that need no rounding -/

/-- What is nearest to the value of a finite word has that value. -/
theorem eq_of_nearestEven {r c : Word} {exact : Int} (hr : nearestEven r 1 exact) (hc : isFinite c = true)
    (h : realUnits c = exact) : realUnits r = exact := by
  have hnear := (hr c hc).1
  rw [mul_one, mul_one, h, sub_self, abs_zero] at hnear
  exact sub_eq_zero.1 (abs_nonpos_iff.1 hnear)

/-- What is nearest to an exact value is not above a finite value that the exact value is not above. -/
theorem ge_of_nearestEven {r c : Word} {exact : Int} (hr : nearestEven r 1 exact) (hc : isFinite c = true)
    (h : exact ≤ realUnits c) : realUnits r ≤ realUnits c := by
  have := le_of_nearestEven (nearestEven_negate hr) (c := negate c) (by rwa [isFinite_negate]) (by rw [realUnits_negate]; omega)
  rw [realUnits_negate, realUnits_negate] at this
  omega

/-- Two words with one real value, no zero, are the same word. -/
theorem eq_of_realUnits_eq {x y : Word} (h : realUnits x = realUnits y) (h0 : magnitude y ≠ 0) : x = y := by
  have hmag : magnitude x = magnitude y := by
    have := congrArg abs h
    rwa [abs_realUnits, abs_realUnits, Nat.cast_inj] at this
  refine eq_of_patternOf_eq ?_ (patternMagnitude_strictMono.injective ?_)
  · rw [realUnits_eq_signedInt, realUnits_eq_signedInt, hmag] at h
    cases hx : signBit x <;> cases hy : signBit y <;> simp [hx, hy, signedInt] at h ⊢ <;> omega
  · rw [← magnitude_eq_patternMagnitude, ← magnitude_eq_patternMagnitude, hmag]

/-- A sum of finite values below the overflow threshold is finite and nearest to the exact one (R15). -/
theorem fadd_nearest {a b : Word} (ha : isFinite a = true) (hb : isFinite b = true)
    (h : |realUnits a + realUnits b| < overflowUnits) :
    isFinite (fadd a b) = true ∧ nearestEven (fadd a b) 1 (realUnits a + realUnits b) := by
  obtain ⟨hfin, hnear, -⟩ := sumsCorrectlyRounded.1 a b ha hb
  exact ⟨hfin.2 h, hnear (hfin.2 h)⟩

/-- The same of a difference. -/
theorem fsub_nearest {a b : Word} (ha : isFinite a = true) (hb : isFinite b = true)
    (h : |realUnits a - realUnits b| < overflowUnits) :
    isFinite (fsub a b) = true ∧ nearestEven (fsub a b) 1 (realUnits a - realUnits b) := by
  obtain ⟨-, -, -, -, -, hfin, hnear, -⟩ := sumsCorrectlyRounded.1 a b ha hb
  exact ⟨hfin.2 h, hnear (hfin.2 h)⟩

/-- `i2f` of an integer that is the value of a finite word is exact (R15). -/
theorem i2f_exact {n : Int} {c : Word} (hc : isFinite c = true) (h : realUnits c = n * (unitsPerOne : Int)) :
    isFinite (i2f n) = true ∧ realUnits (i2f n) = n * (unitsPerOne : Int) := by
  have hsigned : signedInt (decide (n < 0)) (n.natAbs * unitsPerOne) = n * (unitsPerOne : Int) := by
    rw [← Bool.bne_false (decide (n < 0)), ← signedInt_mul, signedInt_natAbs]
    rfl
  have hlt : ((n.natAbs * unitsPerOne : Nat) : Int) < overflowUnits * (1 : Nat) := by
    rw [Nat.cast_one, mul_one, ← abs_signedInt (decide (n < 0)), hsigned, ← h]
    exact abs_realUnits_lt_overflowUnits hc
  have hfin : isFinite (i2f n) = true := (isFinite_roundPack _ _ one_pos).2 hlt
  exact ⟨hfin, eq_of_nearestEven (hsigned ▸ nearestEven_roundPack one_pos hfin) hc h⟩

/-! ### The floor and the fraction of a value -/

/-- From the place of 1 on, a value is an integer; below it the floor has no more bits than the significand. So the floor of a
finite value is a value. -/
theorem exists_realUnits_eq_ifloor {x : Word} (hx : isFinite x = true) :
    ∃ c, isFinite c = true ∧ realUnits c = ifloor x * (unitsPerOne : Int) := by
  obtain ⟨m, k, hm, hmag⟩ := magnitude_eq_significand x
  have habs : |realUnits x| = (m : Int) * 2 ^ k := by rw [abs_realUnits, hmag]; push_cast; rfl
  rcases Nat.lt_or_ge k 149 with hk | hk
  · have hpos : (0 : Int) < unitsPerOne := by exact_mod_cast unitsPerOne_pos
    have hle : |realUnits x| ≤ (m : Int) * unitsPerOne := by
      rw [habs, unitsPerOne_eq]
      exact_mod_cast Nat.mul_le_mul_left m (Nat.pow_le_pow_right two_pos hk.le)
    obtain ⟨hlow, hhigh⟩ := abs_le.1 hle
    have hfloor_ge : -(m : Int) ≤ ifloor x := Int.le_ediv_of_mul_le hpos (by rwa [neg_mul])
    have hfloor_le : ifloor x ≤ m := Int.ediv_le_of_le_mul hpos hhigh
    obtain ⟨c, hc, hreal⟩ := exists_realUnits_eq (decide (ifloor x < 0)) (m := (ifloor x).natAbs) (k := 149) (by omega) le_rfl
    refine ⟨c, hc, ?_⟩
    rw [hreal, ← unitsPerOne_eq, ← Bool.bne_false (decide (ifloor x < 0)), ← signedInt_mul, signedInt_natAbs]
    rfl
  · have hdvd : (unitsPerOne : Int) ∣ realUnits x := by
      rw [← dvd_abs, habs, unitsPerOne_eq, Nat.cast_pow]
      exact (pow_dvd_pow 2 hk).mul_left _
    exact ⟨x, hx, (Int.ediv_mul_cancel hdvd).symm⟩

theorem i2f_ifloor {x : Word} (hx : isFinite x = true) :
    isFinite (i2f (ifloor x)) = true ∧ realUnits (i2f (ifloor x)) = ifloor x * (unitsPerOne : Int) := by
  obtain ⟨c, hc, hreal⟩ := exists_realUnits_eq_ifloor hx
  exact i2f_exact hc hreal

/-- The exact fraction of a value not below zero is a value: the low bits of the significand. -/
theorem exists_realUnits_eq_emod {x : Word} (hpos : 0 ≤ realUnits x) :
    ∃ c, isFinite c = true ∧ realUnits c = realUnits x % (unitsPerOne : Int) := by
  obtain ⟨m, k, hm, hmag⟩ := magnitude_eq_significand x
  have hreal : realUnits x = ((m * 2 ^ k : Nat) : Int) := by rw [← abs_of_nonneg hpos, abs_realUnits, hmag]
  rw [hreal, unitsPerOne_eq, ← Int.natCast_mod]
  rcases Nat.lt_or_ge k 149 with hk | hk
  · have hmod : m * 2 ^ k % 2 ^ 149 = m % 2 ^ (149 - k) * 2 ^ k := by
      rw [← Nat.mul_mod_mul_right, ← pow_add, Nat.sub_add_cancel hk.le]
    rw [hmod]
    exact exists_realUnits_eq false ((Nat.mod_le ..).trans hm.le) hk.le
  · have hmod : m * 2 ^ k % 2 ^ 149 = 0 := Nat.mod_eq_zero_of_dvd ((pow_dvd_pow 2 hk).mul_left m)
    rw [hmod]
    exact ⟨posZero, rfl, rfl⟩

/-- The fraction of R108. -/
def fractionalPart (x : Word) : Word := fsub x (i2f (ifloor x))

/-- The fraction is the exact one rounded (R108, R15). -/
theorem fractionalPart_nearest {x : Word} (hx : isFinite x = true) :
    isFinite (fractionalPart x) = true ∧ nearestEven (fractionalPart x) 1 (realUnits x % (unitsPerOne : Int)) := by
  obtain ⟨hfin, hreal⟩ := i2f_ifloor hx
  have hexact : realUnits x - realUnits (i2f (ifloor x)) = realUnits x % (unitsPerOne : Int) := by
    rw [hreal, Int.emod_def, mul_comm]
    rfl
  have hone := abs_realUnits_lt_overflowUnits (x := oneF) rfl
  have hpos := unitsPerOne_pos
  have hnonneg := Int.emod_nonneg (realUnits x) (b := unitsPerOne) (by omega)
  have hlt := Int.emod_lt_of_pos (realUnits x) (b := unitsPerOne) (by omega)
  rw [abs_realUnits, magnitude_oneF] at hone
  rw [← hexact]
  exact fsub_nearest hx hfin (by rw [hexact, abs_of_nonneg hnonneg]; omega)

/-- The fraction lies in [0, 1] (R109 (a)). -/
theorem fractionalPart_bounds {x : Word} (hx : isFinite x = true) :
    isFinite (fractionalPart x) = true ∧ 0 ≤ realUnits (fractionalPart x) ∧
      realUnits (fractionalPart x) ≤ (unitsPerOne : Int) := by
  obtain ⟨hfin, hnear⟩ := fractionalPart_nearest hx
  have hpos := unitsPerOne_pos
  have hlow := le_of_nearestEven hnear (c := posZero) rfl (Int.emod_nonneg _ (by omega))
  have hhigh := ge_of_nearestEven hnear (c := oneF) rfl
    (by rw [realUnits_oneF]; exact (Int.emod_lt_of_pos _ (by omega)).le)
  exact ⟨hfin, hlow, realUnits_oneF ▸ hhigh⟩

/-- The fraction of a value not below zero needs no rounding (R109 (a)). -/
theorem fractionalPart_exact {x : Word} (hx : isFinite x = true) (hpos : 0 ≤ realUnits x) :
    realUnits (fractionalPart x) = realUnits x % (unitsPerOne : Int) := by
  obtain ⟨c, hc, hreal⟩ := exists_realUnits_eq_emod hpos
  exact eq_of_nearestEven (fractionalPart_nearest hx).2 hc hreal

end Sys2Proof.Machine
end

section
/-! The obligations on the fractional read (R108, R109): its meaning, the range of its fraction, the read at a zero offset, and the
interpolation of equal elements. -/

namespace Sys2Proof.Machine

/-! ### The read and its fraction -/

theorem rbInterp_of_not_finite (b : RingBuffer) {x : Word} (hx : isFinite x = false) : rbInterp b x = nanResult .interp x posZero := by
  simp [rbInterp, interpolate, hx]

theorem rbInterp_of_finite (b : RingBuffer) {x : Word} (hx : isFinite x = true) :
    rbInterp b x =
      fadd (fmul (fsub oneF (fractionalPart x)) (b.store.getD (rbNorm ((b.rd : Int) + ifloor x) b.cap) posZero))
        (fmul (fractionalPart x) (b.store.getD ((rbNorm ((b.rd : Int) + ifloor x) b.cap + 1) % b.cap) posZero)) := by
  simp [rbInterp, interpolate, fractionalPart, hx]

/-- Settles O21: the wrapped indices lie in a sound store. -/
theorem fractionalRead : Obligations.FractionalRead := by
  intro capMax b x hb
  obtain ⟨hcap, -, -, -, hlen⟩ := hb
  refine ⟨fun hx => ?_, fun hx => ?_⟩
  · rw [rbInterp_of_not_finite b hx]
    exact isNaN_nanResult ..
  · have hread {k : Nat} (hk : k < b.cap) : b.store[k]? = some (b.store.getD k posZero) := by
      rw [List.getElem?_eq_getElem (by omega), List.getD_eq_getElem _ _ (by omega)]
    exact ⟨_, _, hread (rbNorm_lt _ _ hcap), hread (Nat.mod_lt _ hcap), rbInterp_of_finite b hx⟩

/-- Settles O24: the exact fraction lies in [0, 1), and is a value where `x` is not below zero. -/
theorem fractionInUnitInterval : Obligations.FractionInUnitInterval := by
  intro x hx
  obtain ⟨hfin, hlow, hhigh⟩ := fractionalPart_bounds hx
  refine ⟨hfin, hlow, hhigh, fun hge => ?_⟩
  have hexact := fractionalPart_exact hx (fge_posZero_iff.1 hge).2
  have hpos := unitsPerOne_pos
  constructor
  · rw [mul_comm]
    exact hexact.trans (Int.emod_def ..)
  · exact hexact.trans_lt (Int.emod_lt_of_pos _ (by omega))

/-! ### Products with 1 and with zeros, sums with zeros -/

theorem fmul_oneF {x : Word} (hx : isFinite x = true) : fmul oneF x = x := by
  rw [fmul_eq_roundPack rfl hx, magnitude_oneF, mul_comm, show signBit oneF = false from rfl, Bool.false_bne]
  exact roundPack_magnitude x hx _ unitsPerOne_pos

theorem fmul_oneF_right {x : Word} (hx : isFinite x = true) : fmul x oneF = x := by
  rw [fmul_eq_roundPack hx rfl, magnitude_oneF, show signBit oneF = false from rfl, Bool.bne_false]
  exact roundPack_magnitude x hx _ unitsPerOne_pos

/-- A product of finite values, one of them a zero, is the zero of their signs. -/
theorem fmul_eq_signedZero {a b : Word} (ha : isFinite a = true) (hb : isFinite b = true) (h0 : magnitude a = 0 ∨ magnitude b = 0) :
    fmul a b = signedZero (signBit a != signBit b) := by
  rw [fmul_eq_roundPack ha hb, mul_eq_zero.2 h0, roundPack_zero]

/-- A zero times a value that is not finite is invalid. -/
theorem isNaN_fmul_of_not_finite {z c : Word} (hz : isFinite z = true) (hz0 : magnitude z = 0) (hc : isFinite c = false) :
    isNaN (fmul z c) = true := by
  rcases word_kind c with hk | hk | hk
  · rw [fmul_eq_nanResult (.inr hk)]
    exact isNaN_nanResult ..
  · rw [fmul_inf_zero (isNaN_of_isFinite hz) (isNaN_of_isInf hk) (.inr hk) (.inl hz0)]
    exact isNaN_nanResult ..
  · simp [hc] at hk

theorem isFinite_signedZero (neg : Bool) : isFinite (signedZero neg) = true := by cases neg <;> rfl

theorem magnitude_signedZero (neg : Bool) : magnitude (signedZero neg) = 0 := by cases neg <;> rfl

theorem signBit_signedZero (neg : Bool) : signBit (signedZero neg) = neg := by cases neg <;> rfl

/-- Adding a zero to a finite value that is no zero gives it back, bit for bit. -/
theorem fadd_signedZero {a : Word} (ha : isFinite a = true) (ha0 : magnitude a ≠ 0) (neg : Bool) : fadd a (signedZero neg) = a := by
  have hzero := (realUnits_eq_zero_iff _).2 (magnitude_signedZero neg)
  have hlt := abs_realUnits_lt_overflowUnits ha
  obtain ⟨-, hnear⟩ := fadd_nearest ha (isFinite_signedZero neg) (by rwa [hzero, add_zero])
  rw [hzero, add_zero] at hnear
  exact eq_of_realUnits_eq (eq_of_nearestEven hnear ha rfl) ha0

/-- The sum of two zeros is a zero, negative when both are. -/
theorem fadd_zeros {a b : Word} (ha : isFinite a = true) (hb : isFinite b = true) (ha0 : magnitude a = 0) (hb0 : magnitude b = 0) :
    fadd a b = signedZero (signBit a && signBit b) := by
  rw [fadd_eq_addValues (isNaN_of_isFinite ha) (isNaN_of_isFinite hb)]
  refine addValues_finite_zero ha hb ?_
  rw [(realUnits_eq_zero_iff a).2 ha0, (realUnits_eq_zero_iff b).2 hb0, add_zero]

/-! ### The read at a zero offset -/

/-- A zero has the floor 0, is its own fraction, and leaves the whole weight to the element at the cursor. -/
theorem zero_offset {x : Word} (h : x = posZero ∨ x = negZero) :
    isFinite x = true ∧ magnitude x = 0 ∧ ifloor x = 0 ∧ fractionalPart x = x ∧ fsub oneF x = oneF := by
  rcases h with rfl | rfl <;> decide +kernel

/-- The read at a zero offset: the element at the cursor times 1, plus the next one times the zero. -/
theorem rbInterp_zero_offset {capMax : Nat} {b : RingBuffer} {x a c : Word} (hb : bufferSound capMax b)
    (hx : x = posZero ∨ x = negZero) (ha : b.store[b.rd]? = some a) (hc : b.store[(b.rd + 1) % b.cap]? = some c) :
    rbInterp b x = fadd (fmul oneF a) (fmul x c) := by
  obtain ⟨hfin, -, hfloor, hfrac, hone⟩ := zero_offset hx
  obtain ⟨lo, hi, hlo, hhi, hread⟩ := (fractionalRead capMax b x hb).2 hfin
  obtain ⟨-, -, hrd, -, -⟩ := hb
  rw [hfloor, add_zero, ← Int.natCast_mod, Int.toNat_natCast, Nat.mod_eq_of_lt hrd] at hlo hhi
  obtain rfl : a = lo := Option.some.inj (ha.symm.trans hlo)
  obtain rfl : c = hi := Option.some.inj (hc.symm.trans hhi)
  calc rbInterp b x = fadd (fmul (fsub oneF (fractionalPart x)) a) (fmul (fractionalPart x) c) := hread
    _ = fadd (fmul oneF a) (fmul x c) := by rw [hfrac, hone]

/-- Settles O25: the product with the zero is a zero, or a NaN where the next element is not finite. -/
theorem readAtZeroOffset : Obligations.ReadAtZeroOffset := by
  intro capMax b x a c hb hx hstore hnext
  obtain ⟨hfin, hzero, -⟩ := zero_offset hx
  rw [rbInterp_zero_offset hb hx hstore hnext]
  refine ⟨fun ha ha0 hc => ?_, fun ha ha0 hc => ?_, fun hc => ?_⟩
  · rw [fmul_oneF ha, fmul_eq_signedZero hfin hc (.inl hzero), fadd_signedZero ha ha0]
  · rw [fmul_oneF ha, fmul_eq_signedZero hfin hc (.inl hzero),
      fadd_zeros ha (isFinite_signedZero _) ha0 (magnitude_signedZero _)]
    exact ⟨magnitude_signedZero _, isFinite_signedZero _⟩
  · rw [fadd_eq_nanResult (.inr (isNaN_fmul_of_not_finite hfin hzero hc))]
    exact isNaN_nanResult ..

/-! ### Equal elements -/

/-- Between 0 and 1 every multiple of 2^-24 is a value, so rounding there errs by at most 2^-25, which is 2^124 units. -/
theorem abs_sub_le_of_nearestEven {r : Word} {exact : Int} (hr : nearestEven r 1 exact) (h0 : 0 ≤ exact)
    (h1 : exact ≤ (unitsPerOne : Int)) : |realUnits r - exact| ≤ 2 ^ 124 := by
  rw [unitsPerOne_eq] at h1
  obtain ⟨c, hc, hreal⟩ := exists_realUnits_eq false (m := ((exact + 2 ^ 124) / 2 ^ 125).toNat) (k := 125)
    (by push_cast at h1; omega) (by norm_num)
  have hgrid : |realUnits c - exact| ≤ 2 ^ 124 := by
    rw [hreal, abs_le, signedInt]
    simp only [Bool.false_eq_true, if_false]
    omega
  have hnear := (hr c hc).1
  rw [mul_one, mul_one] at hnear
  exact hnear.trans hgrid

/-- Within 2^-24 of 1 there are the value 1 and the next one below. -/
theorem pattern_near_one {r : Word} (h : |realUnits r - (unitsPerOne : Int)| ≤ 2 ^ 125) :
    r = oneF ∨ (patternOf r = 0x3F7FFFFF ∧ realUnits r = (unitsPerOne : Int) - 2 ^ 125) := by
  obtain ⟨hlow, hhigh⟩ := abs_le.1 h
  have hpos : 0 < realUnits r := by
    have hone := unitsPerOne_eq
    omega
  have hsign : signBit r = false := signBit_of_nonneg hpos.le (mt (realUnits_eq_zero_iff r).2 hpos.ne')
  have hreal : realUnits r = patternMagnitude (patternOf r) := by
    rw [← magnitude_eq_patternMagnitude, ← abs_realUnits, abs_of_pos hpos]
  have hpat_low : 0x3F7FFFFE < patternOf r := by
    have hbelow : (patternMagnitude 0x3F7FFFFE : Int) < unitsPerOne - 2 ^ 125 := by decide +kernel
    exact patternMagnitude_strictMono.lt_iff_lt.1 (by omega)
  have hpat_high : patternOf r < 0x3F800001 := by
    have habove : (unitsPerOne : Int) + 2 ^ 125 < patternMagnitude 0x3F800001 := by decide +kernel
    exact patternMagnitude_strictMono.lt_iff_lt.1 (by omega)
  obtain hpat | hpat : patternOf r = 0x3F7FFFFF ∨ patternOf r = 0x3F800000 := by omega
  · have hprev : (patternMagnitude 0x3F7FFFFF : Int) = unitsPerOne - 2 ^ 125 := by decide +kernel
    rw [hpat] at hreal
    exact .inr ⟨hpat, hreal.trans hprev⟩
  · exact .inl (eq_of_patternOf_eq hsign hpat)

/-- What is nearest to an exact value within 2^-25 of 1 is 1: the next value below is as near at most in a tie, in which it is
odd. -/
theorem eq_oneF_of_nearestEven {r : Word} {exact : Int} (hr : nearestEven r 1 exact)
    (h : |(unitsPerOne : Int) - exact| ≤ 2 ^ 124) : r = oneF := by
  obtain ⟨hnear, htie⟩ := hr oneF rfl
  rw [mul_one, mul_one, realUnits_oneF] at hnear htie
  simp only [Int.abs_eq_natAbs] at hnear htie h
  rcases pattern_near_one (r := r) (by rw [Int.abs_eq_natAbs]; omega) with hone | ⟨hpat, hreal⟩
  · exact hone
  · have heven := htie (by omega) (by omega)
    rw [← patternOf_mod_two, hpat] at heven
    norm_num at heven

/-- The complement of a fraction: within 2^-25 of the exact one, and with no sign. -/
theorem fsub_oneF_bounds {f : Word} (hf : isFinite f = true) (h0 : 0 ≤ realUnits f) (h1 : realUnits f ≤ (unitsPerOne : Int)) :
    isFinite (fsub oneF f) = true ∧ |realUnits (fsub oneF f) - ((unitsPerOne : Int) - realUnits f)| ≤ 2 ^ 124 := by
  have hone := abs_realUnits_lt_overflowUnits (x := oneF) rfl
  rw [abs_realUnits, magnitude_oneF] at hone
  obtain ⟨hfin, hnear⟩ := fsub_nearest (a := oneF) rfl hf (by rw [realUnits_oneF, abs_of_nonneg (by omega)]; omega)
  rw [realUnits_oneF] at hnear
  exact ⟨hfin, abs_sub_le_of_nearestEven hnear (by omega) (by omega)⟩

theorem signBit_fsub_oneF {f : Word} (hf : isFinite f = true) (h1 : realUnits f ≤ (unitsPerOne : Int)) :
    signBit (fsub oneF f) = false := by
  have hf' : isFinite (negate f) = true := (isFinite_negate f).trans hf
  have hsum : 0 ≤ realUnits oneF + realUnits (negate f) := by rw [realUnits_oneF, realUnits_negate]; omega
  rw [fsub_eq_addValues rfl (isNaN_of_isFinite hf)]
  rcases hsum.eq_or_lt with h | h
  · rw [addValues_finite_zero rfl hf' h.symm, signBit_signedZero]
    rfl
  · simp [addValues, show isInf oneF = false from rfl, isInf_of_isFinite hf, h.ne', h.not_gt]

/-- The two weights of a read add up to exactly 1 (R109 (f)). -/
theorem fadd_fsub_oneF {f : Word} (hf : isFinite f = true) (h0 : 0 ≤ realUnits f) (h1 : realUnits f ≤ (unitsPerOne : Int)) :
    fadd (fsub oneF f) f = oneF := by
  obtain ⟨hfin, herr⟩ := fsub_oneF_bounds hf h0 h1
  have hsum : |(unitsPerOne : Int) - (realUnits (fsub oneF f) + realUnits f)| ≤ 2 ^ 124 := by
    rwa [add_comm, ← sub_sub, abs_sub_comm]
  have hover : |realUnits (fsub oneF f) + realUnits f| < overflowUnits := by
    have hlarge : (unitsPerOne : Int) + 2 ^ 124 < overflowUnits := by
      unfold overflowUnits unitsPerOne
      norm_num
    simp only [Int.abs_eq_natAbs] at *
    omega
  exact eq_oneF_of_nearestEven (fadd_nearest hfin hf hover).2 hsum

/-- The read of a store of equal elements. -/
theorem rbInterp_constant {capMax : Nat} {b : RingBuffer} {x w : Word} (hb : bufferSound capMax b) (hx : isFinite x = true)
    (hw : ∀ v, v ∈ b.store → v = w) :
    rbInterp b x = fadd (fmul (fsub oneF (fractionalPart x)) w) (fmul (fractionalPart x) w) := by
  obtain ⟨lo, hi, hlo, hhi, hread⟩ := (fractionalRead capMax b x hb).2 hx
  rw [hw lo (List.mem_of_getElem? hlo), hw hi (List.mem_of_getElem? hhi)] at hread
  exact hread

/-- Settles O26: a store of ones reads as the sum of the weights, a store of zeros as a sum of zeros, the first of them `+0`. -/
theorem constantInterpolation : Obligations.ConstantInterpolation := by
  intro capMax b x hb hx
  obtain ⟨hfin, h0, h1⟩ := fractionalPart_bounds hx
  obtain ⟨hfin', -⟩ := fsub_oneF_bounds hfin h0 h1
  refine ⟨fun hw => ?_, fun hw => ?_⟩
  · rw [rbInterp_constant hb hx hw]
    change fadd (fmul _ oneF) (fmul _ oneF) = oneF
    rw [fmul_oneF_right hfin', fmul_oneF_right hfin, fadd_fsub_oneF hfin h0 h1]
  · rw [rbInterp_constant hb hx hw]
    change fadd (fmul _ posZero) (fmul _ posZero) = posZero
    rw [fmul_eq_signedZero hfin' rfl (.inr rfl), fmul_eq_signedZero hfin rfl (.inr rfl), signBit_fsub_oneF hfin h1,
      fadd_zeros (isFinite_signedZero _) (isFinite_signedZero _) (magnitude_signedZero _) (magnitude_signedZero _)]
    rfl

end Sys2Proof.Machine
end

section
/-! SUPPORT. The wrap loop of R148, by where it starts (R149): from a phase of at most 2^35 every subtraction is exact, and from one
above 2^35 + 4096 no subtraction leads out of the values above it. -/

namespace Sys2Proof.Machine

/-! ### The constants of the loop -/

theorem realUnits_f2047 : realUnits f2047 = 2047 * (unitsPerOne : Int) := by decide +kernel

theorem realUnits_f2048 : realUnits f2048 = 2048 * (unitsPerOne : Int) := by decide +kernel

theorem wrapFuel_eq : wrapFuel = 2 ^ 24 + 1 := by unfold wrapFuel; rfl

/-- The condition of the wrap loop, of a finite phase. -/
theorem fgt_f2047_iff {p : Word} (hp : isFinite p = true) : fgt p f2047 = true ↔ 2047 * (unitsPerOne : Int) < realUnits p := by
  rw [fgt_def, flt_iff_realUnits rfl hp, realUnits_f2047]

theorem fgt_f2047_eq_false_iff {p : Word} (hp : isFinite p = true) :
    fgt p f2047 = false ↔ realUnits p ≤ 2047 * (unitsPerOne : Int) := by
  rw [← Bool.not_eq_true, fgt_f2047_iff hp, not_lt]

/-- A finite phase of at most 2047 needs no subtraction. -/
theorem wrapPhase_of_le (fuel : Nat) {p : Word} (hp : isFinite p = true) (h : realUnits p ≤ 2047 * (unitsPerOne : Int)) :
    wrapPhase fuel p = some p :=
  wrapPhase_of_not_gt fuel p ((fgt_f2047_eq_false_iff hp).2 h)

/-- Above 2047 the loop goes on from the difference, unless that is the phase again. -/
theorem wrapPhase_succ (fuel : Nat) {p : Word} (hgt : fgt p f2047 = true) (hne : fsub p f2048 ≠ p) :
    wrapPhase (fuel + 1) p = wrapPhase fuel (fsub p f2048) := by
  rw [wrapPhase, if_pos hgt, if_neg hne]

/-! ### Exact subtractions -/

/-- `exists_realUnits_eq` for places above that of 1 too: an integer of at most 24 bits, scaled by a power of two, is a value. -/
theorem exists_realUnits_eq_mul_two_pow {d : Int} {k : Nat} (hd : d.natAbs ≤ 2 ^ 24) (hk : k ≤ 229) :
    ∃ c, isFinite c = true ∧ realUnits c = d * 2 ^ k := by
  obtain ⟨p, hp⟩ := exists_patternMagnitude_eq k hd
  have hlt : p < 0x7F800000 := by
    rw [← patternMagnitude_strictMono.lt_iff_lt, hp]
    calc d.natAbs * 2 ^ k ≤ 2 ^ 24 * 2 ^ 229 := Nat.mul_le_mul hd (Nat.pow_le_pow_right two_pos hk)
      _ < patternMagnitude 0x7F800000 := by norm_num [patternMagnitude]
  have hpat : patternOf (BitVec.ofNat 32 p) = p := patternOf_ofNat (by omega)
  have hfin : isFinite (BitVec.ofNat 32 p) = true := by rwa [isFinite_iff_patternOf_lt, hpat]
  have hreal : realUnits (BitVec.ofNat 32 p) = (d.natAbs : Int) * 2 ^ k := by
    rw [realUnits_eq_signedInt, signBit_ofNat (by omega), magnitude_eq_patternMagnitude, hpat, hp]
    exact_mod_cast rfl
  rcases d.natAbs_eq with h | h
  · exact ⟨_, hfin, by rw [hreal, ← h]⟩
  · exact ⟨_, (isFinite_negate _).trans hfin, by rw [realUnits_negate, hreal, ← neg_mul, ← h]⟩

theorem eq_posZero_of_realUnits_eq_zero {x : Word} (h : realUnits x = 0) (hx : x ≠ negZero) : x = posZero := by
  have hpat : patternOf x = 0 := by
    rw [realUnits_eq_zero_iff, magnitude_eq_patternMagnitude, ← patternMagnitude_zero] at h
    exact patternMagnitude_strictMono.injective h
  cases hs : signBit x with
  | false => exact eq_of_patternOf_eq hs hpat
  | true => exact absurd (eq_of_patternOf_eq hs hpat) hx

/-- Up to 2^35 a value has a significand whose last place is not above 2048, which is 2^160 units. -/
theorem exists_significand_of_le {x : Word} (h0 : 0 ≤ realUnits x) (h : realUnits x ≤ 2 ^ 35 * (unitsPerOne : Int)) :
    ∃ m k, m ≤ 2 ^ 24 ∧ k ≤ 160 ∧ realUnits x = ((m * 2 ^ k : Nat) : Int) := by
  obtain ⟨m, k, hm, hmag⟩ := magnitude_eq_significand x
  have hreal : realUnits x = ((m * 2 ^ k : Nat) : Int) := by rw [← abs_of_nonneg h0, abs_realUnits, hmag]
  rcases Nat.le_total k 160 with hk | hk
  · exact ⟨m, k, hm.le, hk, hreal⟩
  · obtain ⟨j, rfl⟩ := Nat.exists_eq_add_of_le' hk
    rw [pow_add, ← mul_assoc] at hreal
    rw [hreal, unitsPerOne_eq] at h
    refine ⟨m * 2 ^ j, 160, ?_, le_rfl, hreal⟩
    have h' : m * 2 ^ j * 2 ^ 160 ≤ 2 ^ 35 * 2 ^ 149 := by exact_mod_cast h
    omega

/-- From above 2047 up to 2^35 the exact difference to 2048 is a value: it has no lower place than the phase, nor more bits. -/
theorem exists_realUnits_eq_sub_f2048 {p : Word} (hlow : 2047 * (unitsPerOne : Int) < realUnits p)
    (hhigh : realUnits p ≤ 2 ^ 35 * (unitsPerOne : Int)) :
    ∃ c, isFinite c = true ∧ realUnits c = realUnits p - realUnits f2048 := by
  obtain ⟨m, k, hm, hk, hreal⟩ := exists_significand_of_le (by have := unitsPerOne_pos; omega) hhigh
  have hplace : 136 ≤ k := by
    by_contra hlt
    have hle : m * 2 ^ k ≤ 2 ^ 24 * 2 ^ 135 := Nat.mul_le_mul hm (Nat.pow_le_pow_right two_pos (by omega))
    rw [hreal, unitsPerOne_eq] at hlow
    omega
  have hpow : (2 : Int) ^ 160 = 2 ^ (160 - k) * 2 ^ k := by rw [← pow_add, Nat.sub_add_cancel hk]
  have hsmall : 2 ^ (160 - k) ≤ 2 ^ 24 := Nat.pow_le_pow_right two_pos (by omega)
  obtain ⟨c, hc, hcreal⟩ := exists_realUnits_eq_mul_two_pow (d := (m : Int) - (2 ^ (160 - k) : Nat)) (k := k)
    (Int.natAbs_coe_sub_coe_le_of_le hm hsmall) (by omega)
  refine ⟨c, hc, ?_⟩
  rw [hcreal, sub_mul, hreal, realUnits_f2048, unitsPerOne_eq]
  push_cast
  rw [← hpow]
  norm_num

/-- There the subtraction is exact, and its result never -0 (R149 (a)). -/
theorem fsub_f2048_exact {p : Word} (hp : isFinite p = true) (hlow : 2047 * (unitsPerOne : Int) < realUnits p)
    (hhigh : realUnits p ≤ 2 ^ 35 * (unitsPerOne : Int)) :
    isFinite (fsub p f2048) = true ∧ realUnits (fsub p f2048) = realUnits p - 2048 * (unitsPerOne : Int) ∧
      fsub p f2048 ≠ negZero := by
  obtain ⟨c, hc, hexact⟩ := exists_realUnits_eq_sub_f2048 hlow hhigh
  obtain ⟨hfin, hnear⟩ := fsub_nearest hp (b := f2048) rfl (hexact ▸ abs_realUnits_lt_overflowUnits hc)
  have hdiff := eq_of_nearestEven hnear hc hexact
  refine ⟨hfin, by rw [hdiff, realUnits_f2048], fun hzero => ?_⟩
  have hsame : p = f2048 := by
    refine eq_of_realUnits_eq ?_ (by decide +kernel)
    rw [hzero, show realUnits negZero = 0 by decide] at hdiff
    omega
  rw [hsame] at hzero
  exact absurd hzero (by decide +kernel)

/-- The phase `q` is `p` with 2048 subtracted `k` times exactly, as often as needed and no oftener (R149 (a)). -/
def wrapsExactly (p q : Word) (k : Nat) : Prop :=
  isFinite q = true ∧ realUnits q = realUnits p - 2048 * k * (unitsPerOne : Int) ∧ realUnits q ≤ 2047 * (unitsPerOne : Int) ∧
    (k = 0 ∧ q = p ∨ -(unitsPerOne : Int) < realUnits q ∧ q ≠ negZero)

/-- One more exact subtraction before the others. -/
theorem wrapsExactly_succ {p q : Word} {k : Nat} (hp : isFinite p = true) (hlow : 2047 * (unitsPerOne : Int) < realUnits p)
    (hhigh : realUnits p ≤ 2 ^ 35 * (unitsPerOne : Int)) (h : wrapsExactly (fsub p f2048) q k) : wrapsExactly p q (k + 1) := by
  obtain ⟨-, hreal, hzero⟩ := fsub_f2048_exact hp hlow hhigh
  obtain ⟨hqfin, hqreal, hqle, hlast⟩ := h
  refine ⟨hqfin, ?_, hqle, .inr ?_⟩
  · rw [hqreal, hreal]
    push_cast
    ring
  · rcases hlast with ⟨-, rfl⟩ | hlast
    · exact ⟨by omega, hzero⟩
    · exact hlast

/-- From at most 2^35 the wrap loop ends, given fuel for the subtractions that the size of the phase takes. -/
theorem wrapPhase_exact {fuel : Nat} {p : Word} (hp : isFinite p = true) (hhigh : realUnits p ≤ 2 ^ 35 * (unitsPerOne : Int))
    (hfuel : realUnits p ≤ (2047 + 2048 * fuel) * (unitsPerOne : Int)) :
    ∃ q k, wrapPhase fuel p = some q ∧ wrapsExactly p q k := by
  have hunit := unitsPerOne_pos
  have hnone {fuel : Nat} {p : Word} (hp : isFinite p = true) (hle : realUnits p ≤ 2047 * (unitsPerOne : Int)) :
      ∃ q k, wrapPhase fuel p = some q ∧ wrapsExactly p q k :=
    ⟨p, 0, wrapPhase_of_le fuel hp hle, hp, by simp, hle, .inl ⟨rfl, rfl⟩⟩
  induction fuel generalizing p with
  | zero => exact hnone hp (by simpa using hfuel)
  | succ fuel ih =>
    rcases le_or_gt (realUnits p) (2047 * (unitsPerOne : Int)) with hle | hgt
    · exact hnone hp hle
    · obtain ⟨hfin, hreal, -⟩ := fsub_f2048_exact hp hgt hhigh
      rw [wrapPhase_succ fuel ((fgt_f2047_iff hp).2 hgt) fun heq => by rw [heq] at hreal; omega]
      push_cast at hfuel
      obtain ⟨q, k, hq, hwraps⟩ := ih hfin (by omega) (by linarith)
      exact ⟨q, k + 1, hq, wrapsExactly_succ hp hgt hhigh hwraps⟩

/-- The fuel is enough for every phase of at most 2^35 (log 7). -/
theorem wrapPhase_wrapFuel_exact {p : Word} (hp : isFinite p = true) (hhigh : realUnits p ≤ 2 ^ 35 * (unitsPerOne : Int)) :
    ∃ q k, wrapPhase wrapFuel p = some q ∧ wrapsExactly p q k := by
  have hunit := unitsPerOne_pos
  refine wrapPhase_exact hp hhigh ?_
  rw [wrapFuel_eq]
  push_cast
  omega

/-- 2^35 + 4096, the largest phase from which the loop ends (R149). -/
def wrapLimit : Word := 0x51000001

theorem realUnits_wrapLimit : realUnits wrapLimit = (2 ^ 35 + 4096) * (unitsPerOne : Int) := by decide +kernel

/-- From 2^35 + 4096 the first subtraction is a tie and goes to 2^35, from where the loop ends at `+0` (R149 (a)). -/
theorem wrapPhase_wrapLimit : wrapPhase wrapFuel wrapLimit = some posZero := by
  have hunit := unitsPerOne_pos
  have htie : fsub wrapLimit f2048 = 0x51000000 := by decide +kernel
  have hstart : realUnits 0x51000000 = 2 ^ 35 * (unitsPerOne : Int) := by decide +kernel
  obtain ⟨q, k, hq, -, hreal, hhigh, hlast⟩ := wrapPhase_exact (fuel := 2 ^ 24) (p := 0x51000000) rfl hstart.le
    (by rw [hstart]; push_cast; omega)
  obtain ⟨-, rfl⟩ | ⟨hlow, hzero⟩ := hlast
  · omega
  have hdvd : 2048 * (unitsPerOne : Int) ∣ realUnits q := ⟨2 ^ 24 - k, by rw [hreal, hstart]; ring⟩
  have hq0 : realUnits q = 0 := Int.eq_zero_of_abs_lt_dvd hdvd (abs_lt.2 ⟨by omega, by omega⟩)
  rw [← eq_posZero_of_realUnits_eq_zero hq0 hzero, ← hq, wrapFuel_eq, ← htie]
  exact wrapPhase_succ _ (by decide +kernel) (by decide +kernel)

/-! ### A loop that never ends -/

/-- What is above 2^35 + 4096 is above the condition's bound. -/
theorem fgt_f2047_of_fgt_wrapLimit {p : Word} (h : fgt p wrapLimit = true) : fgt p f2047 = true := by
  obtain ⟨-, hnan, hlt⟩ := flt_iff.1 h
  have hle : realUnits f2047 ≤ realUnits wrapLimit := by decide +kernel
  exact flt_iff.2 ⟨rfl, hnan, hle.trans_lt hlt⟩

/-- The next value above 2^35 + 4096 is 2^35 + 8192. -/
theorem le_realUnits_of_wrapLimit_lt {p : Word} (h : realUnits wrapLimit < realUnits p) :
    realUnits 0x51000002 ≤ realUnits p := by
  rw [← orderKey_lt_iff, show orderKey wrapLimit = 0x51000001 by decide] at h
  rw [← orderKey_le_iff, show orderKey 0x51000002 = 0x51000002 by decide]
  omega

/-- Above 2^35 + 4096 subtracting 2048 goes at most half way to the next value below, and from the lowest of these values a tie
goes back to it, whose fraction is even, and not to 2^35 + 4096. -/
theorem wrapLimit_lt_fsub_f2048 {p : Word} (hp : isFinite p = true) (h : realUnits wrapLimit < realUnits p) :
    isFinite (fsub p f2048) = true ∧ realUnits wrapLimit < realUnits (fsub p f2048) := by
  have hunit := unitsPerOne_pos
  have hlimit := realUnits_wrapLimit
  have hnext : realUnits 0x51000002 = (2 ^ 35 + 8192) * (unitsPerOne : Int) := by decide +kernel
  have hp_low := le_realUnits_of_wrapLimit_lt h
  have hp_high := (abs_lt.1 (abs_realUnits_lt_overflowUnits hp)).2
  obtain ⟨hfin, hnear⟩ := fsub_nearest hp (b := f2048) rfl (by rw [realUnits_f2048, abs_lt]; omega)
  rw [realUnits_f2048] at hnear
  refine ⟨hfin, lt_of_le_of_ne (le_of_nearestEven hnear rfl (by omega)) fun heq => ?_⟩
  have hodd : fsub p f2048 = wrapLimit := eq_of_realUnits_eq heq.symm (by decide +kernel)
  obtain ⟨hle, htie⟩ := hnear 0x51000002 rfl
  rw [hodd, mul_one, mul_one] at hle htie
  simp only [Int.abs_eq_natAbs] at hle htie
  exact absurd (htie (by omega) (by omega)) (by decide)

/-- The values above 2^35 + 4096 are closed under the subtraction, the infinity included (R149 (b)). -/
theorem fgt_fsub_f2048 {p : Word} (h : fgt p wrapLimit = true) : fgt (fsub p f2048) wrapLimit = true := by
  obtain ⟨-, hnan, hlt⟩ := flt_iff.1 h
  rcases word_kind p with hk | hk | hk
  · simp [hnan] at hk
  · rwa [fsub_eq_addValues hnan (by decide), addValues_inf_left hk fun hinf => absurd hinf (by decide)]
  · obtain ⟨hfin, hlt'⟩ := wrapLimit_lt_fsub_f2048 hk hlt
    exact (flt_iff_realUnits rfl hfin).2 hlt'

/-- Where the loop starts above 2^35 + 4096 it stays there: no fuel ends it. -/
theorem wrapPhase_eq_none (fuel : Nat) {p : Word} (h : fgt p wrapLimit = true) : wrapPhase fuel p = none := by
  have hgt := fgt_f2047_of_fgt_wrapLimit h
  induction fuel generalizing p with
  | zero => rw [wrapPhase, if_pos hgt]
  | succ fuel ih =>
    have hnext := fgt_fsub_f2048 h
    rw [wrapPhase, if_pos hgt, ih hnext (fgt_f2047_of_fgt_wrapLimit hnext), ite_self]

end Sys2Proof.Machine
end

section
/-! SUPPORT. The read of the sine table (R148): it is that of a ring buffer that holds the table, and at a whole number it gives the
entry bit for bit (R151 (d)). -/

namespace Sys2Proof.Machine

/-! ### The table as a ring buffer -/

/-- A fractional read depends on the words of the buffer only. -/
theorem interpolate_congr {cap : Nat} (rd : Nat) {read read' : Nat → Word} (x : Word) (hcap : 1 ≤ cap)
    (h : ∀ k, k < cap → read k = read' k) : interpolate cap rd read x = interpolate cap rd read' x := by
  simp only [interpolate, h _ (rbNorm_lt _ _ hcap), h _ (Nat.mod_lt _ hcap)]

/-- The table `T` of R148. -/
def sineBuffer (table : SineContents) : RingBuffer :=
  { cap := 2048, rd := 0, wr := 0, store := (List.range 2048).map (sineEntry table) }

theorem sineBuffer_store_getD (table : SineContents) {k : Nat} (h : k < 2048) :
    (sineBuffer table).store.getD k posZero = sineEntry table k := by
  have hlen : k < ((List.range 2048).map (sineEntry table)).length := by simpa using h
  rw [sineBuffer, List.getD_eq_getElem _ _ hlen, List.getElem_map, List.getElem_range]

theorem lfoValue_eq_rbInterp (table : SineContents) (l : Lfo) : lfoValue table l = rbInterp (sineBuffer table) l.phase :=
  interpolate_congr 0 l.phase (by decide) fun _ hk => (sineBuffer_store_getD table hk).symm

/-! ### Whole numbers -/

/-- A whole number of at most 24 bits is a value (R15). -/
theorem i2f_natCast {n : Nat} (hn : n ≤ 2 ^ 24) :
    isFinite (i2f n) = true ∧ realUnits (i2f n) = n * (unitsPerOne : Int) := by
  obtain ⟨c, hc, hreal⟩ := exists_realUnits_eq false hn le_rfl
  refine i2f_exact hc ?_
  rw [hreal, unitsPerOne_eq]
  rfl

theorem fsub_self {x : Word} (hx : isFinite x = true) : fsub x x = posZero := by
  rw [fsub_eq_addValues (isNaN_of_isFinite hx) (isNaN_of_isFinite hx),
    addValues_finite_zero hx (by rwa [isFinite_negate]) (by rw [realUnits_negate, add_neg_cancel]), signBit_negate, Bool.and_not_self]
  rfl

/-- A whole number is its own floor and has the fraction `+0`. -/
theorem floor_fraction_i2f {n : Nat} (hn : n ≤ 2 ^ 24) : ifloor (i2f n) = n ∧ fractionalPart (i2f n) = posZero := by
  obtain ⟨hfin, hreal⟩ := i2f_natCast hn
  have hfloor : ifloor (i2f n) = n := by
    rw [ifloor, hreal]
    exact Int.mul_ediv_cancel _ (by have := unitsPerOne_pos; omega)
  exact ⟨hfloor, by rw [fractionalPart, hfloor, fsub_self hfin]⟩

/-- The whole weight on a finite entry `a` other than -0 gives it bit for bit, whatever finite entry follows. -/
theorem fadd_fmul_oneF_posZero {a c : Word} (ha : isFinite a = true) (ha' : a ≠ negZero) (hc : isFinite c = true) :
    fadd (fmul oneF a) (fmul posZero c) = a := by
  rw [fmul_oneF ha, fmul_eq_signedZero rfl hc (.inl rfl)]
  by_cases h0 : magnitude a = 0
  · obtain rfl := eq_posZero_of_realUnits_eq_zero ((realUnits_eq_zero_iff a).2 h0) ha'
    rw [fadd_zeros rfl (isFinite_signedZero _) rfl (magnitude_signedZero _)]
    rfl
  · exact fadd_signedZero ha h0 _

/-- At a whole number the table is read without interpolation (R151 (d)). -/
theorem lfoValue_of_phase_eq_i2f {table : SineContents} {l : Lfo} {n : Nat} (hn : n < 2048)
    (hfin : ∀ i, i < 2048 → isFinite (sineEntry table i) = true) (hentry : sineEntry table n ≠ negZero) (hl : l.phase = i2f n) :
    lfoValue table l = sineEntry table n := by
  obtain ⟨hfloor, hfrac⟩ := floor_fraction_i2f (n := n) (by omega)
  obtain ⟨-, -, -, -, hone⟩ := zero_offset (.inl rfl)
  have hidx : rbNorm (((sineBuffer table).rd : Int) + n) (sineBuffer table).cap = n := by
    change (((0 : Nat) + n : Int) % (2048 : Nat)).toNat = n
    omega
  have hnext : (n + 1) % 2048 < 2048 := Nat.mod_lt _ (by norm_num)
  rw [lfoValue_eq_rbInterp, hl, rbInterp_of_finite _ (i2f_natCast (by omega)).1, hfloor, hfrac, hone, hidx,
    sineBuffer_store_getD table hn]
  change fadd _ (fmul _ ((sineBuffer table).store.getD ((n + 1) % 2048) posZero)) = _
  rw [sineBuffer_store_getD table hnext]
  exact fadd_fmul_oneF_posZero (hfin n hn) hentry (hfin _ hnext)

/-- Adding 1 to a whole number gives the next one (R151 (d)). -/
theorem fadd_i2f_oneF {n : Nat} (hn : n + 1 ≤ 2 ^ 24) : fadd (i2f n) oneF = i2f (n + 1 : Nat) := by
  obtain ⟨hfin, hreal⟩ := i2f_natCast (n := n) (by omega)
  obtain ⟨hfin', hreal'⟩ := i2f_natCast hn
  have hsum : realUnits (i2f (n + 1 : Nat)) = realUnits (i2f n) + realUnits oneF := by
    rw [hreal', hreal, realUnits_oneF]
    push_cast
    ring
  have hne : magnitude (i2f (n + 1 : Nat)) ≠ 0 := by
    rw [ne_eq, ← realUnits_eq_zero_iff, hreal']
    have := unitsPerOne_pos
    positivity
  obtain ⟨-, hnear⟩ := fadd_nearest hfin (b := oneF) rfl (hsum ▸ abs_realUnits_lt_overflowUnits hfin')
  exact eq_of_realUnits_eq ((eq_of_nearestEven hnear hfin' hsum).trans hsum.symm) hne

/-- The step of 1.0 wraps from 2047 to `+0` (R151 (d)). -/
theorem wrapPhase_i2f_succ {n : Nat} (hn : n < 2048) :
    wrapPhase wrapFuel (i2f (n + 1 : Nat)) = some (i2f ((n + 1) % 2048 : Nat)) := by
  rcases Nat.lt_or_ge (n + 1) 2048 with h | h
  · obtain ⟨hfin, hreal⟩ := i2f_natCast (n := n + 1) (by omega)
    have hle : (n + 1 : Nat) * (unitsPerOne : Int) ≤ 2047 * unitsPerOne :=
      mul_le_mul_of_nonneg_right (by omega) (Int.natCast_nonneg _)
    rw [Nat.mod_eq_of_lt h]
    exact wrapPhase_of_le _ hfin (hreal ▸ hle)
  · obtain rfl : n = 2047 := by omega
    have hend : wrapped 1 (i2f (2047 + 1 : Nat)) = i2f ((2047 + 1) % 2048 : Nat) := by decide +kernel
    rw [← hend]
    refine wrapPhase_wrapped wrapFuel 1 _ (by rw [wrapFuel_eq]; omega) (fun i hi => ?_) (by decide +kernel)
    obtain rfl : i = 0 := by omega
    decide +kernel

end Sys2Proof.Machine
end

section
/-! SUPPORT. The loops of `LFO.BLOCK` (R150), told by the last round: which word each element stands in, and which bytes stay. -/

namespace Sys2Proof.Machine

variable {aw : Nat}

/-- A word reads alike in two memories that agree on its bytes. -/
theorem memRead_congr {m m' : Memory} {a : Nat} (h : ∀ x, x / 4 = a % memoryWords aw → readByte m x = readByte m' x) :
    memRead aw m a = memRead aw m' a := by
  simp only [memRead]
  rw [h _ (by omega), h _ (by omega), h _ (by omega), h _ (by omega)]

/-- Base and stride are taken modulo 2^AW, and the sum again (R61, R67). -/
theorem effectiveAddress_mod (a b j i : Nat) :
    effectiveAddress aw (a % memoryWords aw) (b % memoryWords aw) j i = (a + j * b + i) % memoryWords aw :=
  (((Nat.mod_modEq a _).add ((Nat.mod_modEq b _).mul_left j)).add_right i : _ ≡ _ [MOD memoryWords aw])

/-! ### The channels of a frame -/

theorem blockChannels_add (dst stride i : Nat) (v : Word) (n n' j : Nat) (m : Memory) :
    blockChannels aw dst stride i v (n + n') j m =
      blockChannels aw dst stride i v n' (j + n) (blockChannels aw dst stride i v n j m) := by
  induction n generalizing j m with
  | zero => simp [blockChannels]
  | succ n ih => rw [Nat.succ_add, blockChannels, ih, blockChannels, show j + (n + 1) = j + 1 + n by omega]

/-- Frame `i` of the block at base `a` with stride `b`, written to channels `0 .. n-1`. -/
def frameWritten (aw a b i : Nat) (v : Word) (n : Nat) (m : Memory) : Memory :=
  blockChannels aw (a % memoryWords aw) (b % memoryWords aw) i v n 0 m

theorem frameWritten_succ (a b i : Nat) (v : Word) (n : Nat) (m : Memory) :
    frameWritten aw a b i v (n + 1) m = memWrite aw (frameWritten aw a b i v n m) (a + n * b + i) v := by
  rw [frameWritten, blockChannels_add, Nat.zero_add, blockChannels, blockChannels, effectiveAddress_mod, memWrite_mod]
  rfl

theorem readByte_frameWritten_other {a b i n x : Nat} (v : Word) (m : Memory)
    (h : ∀ j, j < n → x / 4 ≠ (a + j * b + i) % memoryWords aw) : readByte (frameWritten aw a b i v n m) x = readByte m x := by
  induction n with
  | zero => rfl
  | succ n ih =>
    rw [frameWritten_succ, readByte_memWrite_other _ _ _ _ (h n n.lt_succ_self)]
    exact ih fun j hj => h j (by omega)

theorem memRead_frameWritten_other {a b i n c : Nat} (v : Word) (m : Memory)
    (h : ∀ j, j < n → (a + j * b + i) % memoryWords aw ≠ c % memoryWords aw) :
    memRead aw (frameWritten aw a b i v n m) c = memRead aw m c :=
  memRead_congr fun _ hx => readByte_frameWritten_other v m fun j hj heq => h j hj (heq.symm.trans hx)

/-- Every channel's word of the frame just written holds the frame's value, also where channels share it. -/
theorem memRead_frameWritten {a b i n j : Nat} (v : Word) (m : Memory) (hj : j < n) :
    memRead aw (frameWritten aw a b i v n m) (a + j * b + i) = v := by
  induction n with
  | zero => omega
  | succ n ih =>
    rw [frameWritten_succ]
    by_cases heq : (a + j * b + i) % memoryWords aw = (a + n * b + i) % memoryWords aw
    · exact memRead_memWrite_same _ _ _ _ heq
    · have hne : j ≠ n := by rintro rfl; exact heq rfl
      rw [memRead_memWrite_other _ _ _ _ heq]
      exact ih (by omega)

/-! ### The frames -/

/-- The memory after the first `n` frames of a block of `nch` channels, `v i` being the value of frame `i`. -/
def framesWritten (aw a b nch : Nat) (v : Nat → Word) (m : Memory) : Nat → Memory
  | 0 => m
  | n + 1 => frameWritten aw a b n (v n) nch (framesWritten aw a b nch v m n)

theorem readByte_framesWritten_other {a b nch n x : Nat} (v : Nat → Word) (m : Memory)
    (h : ∀ i j, i < n → j < nch → x / 4 ≠ (a + j * b + i) % memoryWords aw) :
    readByte (framesWritten aw a b nch v m n) x = readByte m x := by
  induction n with
  | zero => rfl
  | succ n ih =>
    rw [framesWritten, readByte_frameWritten_other _ _ fun j hj => h n j n.lt_succ_self hj]
    exact ih fun i j hi hj => h i j (by omega) hj

/-- An element's word holds its frame's value unless an element of a later frame falls on it. -/
theorem memRead_framesWritten {a b nch n i j : Nat} (v : Nat → Word) (m : Memory) (hi : i < n) (hj : j < nch)
    (hlast : ∀ i' j', i < i' → i' < n → j' < nch → (a + j' * b + i') % memoryWords aw ≠ (a + j * b + i) % memoryWords aw) :
    memRead aw (framesWritten aw a b nch v m n) (a + j * b + i) = v i := by
  induction n with
  | zero => omega
  | succ n ih =>
    rw [framesWritten]
    rcases Nat.lt_or_ge i n with h | h
    · rw [memRead_frameWritten_other _ _ fun j' hj' => hlast n j' h n.lt_succ_self hj']
      exact ih h fun i' j' hii' hi' hj' => hlast i' j' hii' (by omega) hj'
    · obtain rfl : i = n := by omega
      exact memRead_frameWritten _ _ hj

/-- The loop over the frames in two parts, the first of which becomes not stuck. -/
theorem blockFrames_add {p : Params} {dst stride nch n i : Nat} {l : Lfo} {m : Memory}
    (h : (blockFrames p dst stride nch n i l m).stuck = false) (n' : Nat) :
    blockFrames p dst stride nch (n + n') i l m =
      blockFrames p dst stride nch n' (i + n) (blockFrames p dst stride nch n i l m).lfo
        (blockFrames p dst stride nch n i l m).mem := by
  induction n generalizing i l m with
  | zero => simp [blockFrames]
  | succ n ih =>
    rw [Nat.succ_add]
    cases hnext : lfoNext p.sine l with
    | none => simp [blockFrames, hnext] at h
    | some r =>
      simp only [blockFrames, hnext] at h ⊢
      rw [ih h, show i + (n + 1) = i + 1 + n by omega]

/-- The loop of `LFO.BLOCK` over frames none of which is stuck: `L i` is the LFO before frame `i` and `v i` its value there. -/
theorem blockFrames_eq {p : Params} {a b nch n : Nat} {L : Nat → Lfo} {v : Nat → Word} (m : Memory)
    (hL : ∀ i, i < n → lfoNext p.sine (L i) = some (v i, L (i + 1))) :
    blockFrames p (a % memoryWords p.addressWidth) (b % memoryWords p.addressWidth) nch n 0 (L 0) m =
      { lfo := L n, mem := framesWritten p.addressWidth a b nch v m n, stuck := false } := by
  induction n with
  | zero => rfl
  | succ n ih =>
    have hfirst := ih fun i hi => hL i (by omega)
    rw [blockFrames_add (by rw [hfirst]), hfirst]
    simp only [blockFrames, hL n n.lt_succ_self, Nat.zero_add]
    rfl

end Sys2Proof.Machine
end

section
/-! The obligations on the LFO commands (R141 to R151), and on the two commands that reset a unit (R143, R144, R174). -/

namespace Sys2Proof.Machine

/-! ### `LFO.INIT`, `LFO.SETFREQ`, `LFO.GETFREQ` and the resets -/

theorem lfoInitialized_eq_none {w : BitVec 8} {f fs : Word} :
    lfoInitialized w f fs = none ↔ w ≠ 0 ∨ fge f posZero = false ∨ fgt fs posZero = false := by
  rw [Option.eq_none_iff_forall_ne_some]
  simp only [ne_eq, lfoInitialized_eq_some]
  cases fge f posZero <;> cases fgt fs posZero <;> simp

theorem lfoWithFrequency_eq_none {l : Lfo} {f : Word} : lfoWithFrequency l f = none ↔ fge f posZero = false := by
  simp [lfoWithFrequency]

/-- Settles O27, by whether `LfoInit` succeeds. -/
theorem lfoInit : Obligations.LfoInit := by
  intro w s
  constructor
  · intro h
    have hnone : lfoInitialized w (argWord 0 s) (argWord 1 s) = none := lfoInitialized_eq_none.2 h
    change execLfoInit w s = _
    rw [execLfoInit, hnone]
    rfl
  · rintro rfl hf hfs
    have hsome := (lfoInitialized_eq_some (w := 0) (f := argWord 0 s) (fs := argWord 1 s)).2 ⟨rfl, hf, hfs, rfl⟩
    change execLfoInit 0 s = _
    rw [execLfoInit, hsome]
    rfl

/-- Settles O28: the test of R145, then that of R153. -/
theorem lfoSetfreq : Obligations.LfoSetfreq := by
  refine fun s => ⟨fun hr => ?_, fun hr hf => ?_, fun hr hf => ?_⟩
  · change execLfoSetfreq s = _
    rw [execLfoSetfreq, hr]
    rfl
  · have hnone : lfoWithFrequency s.ulfo (argWord 0 s) = none := lfoWithFrequency_eq_none.2 hf
    change execLfoSetfreq s = _
    rw [execLfoSetfreq, hr, hnone]
    rfl
  · have hsome := (lfoWithFrequency_eq_some (l := s.ulfo) (f := argWord 0 s)).2 ⟨hf, rfl⟩
    change execLfoSetfreq s = _
    rw [execLfoSetfreq, hr, hsome]
    rfl

/-- Settles O29, by whether the LFO is Ready. -/
theorem lfoGetfreq : Obligations.LfoGetfreq := by
  refine fun s => ⟨fun hr => ?_, fun hr => ?_⟩
  all_goals
    change execLfoGetfreq s = _
    rw [execLfoGetfreq, hr]
    rfl

/-- Settles O37: neither command has a test, and the reset values of R37 are written out. -/
theorem unitResets : Obligations.UnitResets := fun _ => ⟨rfl, rfl⟩

/-! ### `LFO.NEXT` -/

theorem exec_lfoNext_not_ready {s : State} (hr : s.ulfo.ready = false) : exec .lfoNext s = .next { s with st := 2 } := by
  change execLfoNext s = _
  rw [execLfoNext, hr]
  rfl

/-- `LFO.NEXT` on a Ready LFO whose wrap loop ends at the phase `q` (R147, R148). -/
theorem exec_lfoNext_of_wrapPhase {s : State} {q : Word} (hr : s.ulfo.ready = true)
    (hq : wrapPhase wrapFuel (fadd s.ulfo.phase s.ulfo.inc) = some q) :
    exec .lfoNext s = .next { s with st := 0, res := lfoValue s.params.sine s.ulfo, ulfo := { s.ulfo with phase := q } } := by
  change execLfoNext s = _
  rw [execLfoNext, hr, lfoNext_eq_some.2 ⟨q, hq, rfl, rfl⟩]
  rfl

/-- `LFO.NEXT` on a Ready LFO whose wrap loop never ends (R149 (b)). -/
theorem exec_lfoNext_of_endless {s : State} (hr : s.ulfo.ready = true)
    (hq : wrapPhase wrapFuel (fadd s.ulfo.phase s.ulfo.inc) = none) : exec .lfoNext s = .next (becomeStuck s) := by
  change execLfoNext s = _
  rw [execLfoNext, hr, lfoNext_eq_none.2 hq]
  rfl

/-- Settles O30: the loop ends after its `k` subtractions, and the table is read as a ring buffer. (`lfoNext` names the primitive.) -/
theorem lfoNextCommand : Obligations.LfoNext := by
  refine fun s => ⟨exec_lfoNext_not_ready, fun k hr hk hgt hend => ?_⟩
  have hq := wrapPhase_wrapped wrapFuel k _ (by rwa [wrapFuel_eq]) hgt hend
  rw [exec_lfoNext_of_wrapPhase hr hq, lfoValue_eq_rbInterp]
  rfl

/-- Settles O31, by where the loop starts: at most 2^35, at 2^35 + 4096, above that, or at a NaN. -/
theorem wrapLoopTermination : Obligations.WrapLoopTermination := by
  refine fun s hr => ⟨fun hfin hle => ?exact, fun hfin hlimit => ?tie, fun habove => ?endless, fun hnan => ?nan⟩
  case exact =>
    obtain ⟨q, k, hq, hqfin, hreal, hhigh, hlast⟩ := wrapPhase_wrapFuel_exact hfin hle
    exact ⟨_, k, exec_lfoNext_of_wrapPhase hr hq, rfl, rfl, hqfin, hreal, hhigh, fun hk => (hlast.resolve_left (by omega)).1⟩
  case tie =>
    have hp : fadd s.ulfo.phase s.ulfo.inc = wrapLimit :=
      eq_of_realUnits_eq (hlimit.trans realUnits_wrapLimit.symm) (by decide +kernel)
    exact ⟨_, exec_lfoNext_of_wrapPhase hr (hp ▸ wrapPhase_wrapLimit), rfl, rfl, rfl⟩
  case endless =>
    have hgt : fgt (fadd s.ulfo.phase s.ulfo.inc) wrapLimit = true := by
      rcases habove with hinf | ⟨hfin, hlt⟩
      · rw [hinf]
        decide
      · exact (flt_iff_realUnits rfl hfin).2 (realUnits_wrapLimit ▸ hlt)
    exact ⟨_, exec_lfoNext_of_endless hr (wrapPhase_eq_none wrapFuel hgt), rfl, rfl, rfl, rfl, rfl⟩
  case nan =>
    have hq := wrapPhase_of_not_gt wrapFuel _ (flt_nan_right f2047 hnan)
    exact ⟨_, exec_lfoNext_of_wrapPhase hr hq, rfl, rfl, rfl⟩

/-- Settles O32: the phase is a whole number, so the read needs no interpolation and the addition no rounding. -/
theorem unitIncrementWalksTable : Obligations.UnitIncrementWalksTable := by
  intro s n hlegal hn hentry hr hinc hphase
  obtain ⟨-, -, -, -, -, -, -, -, -, -, -, hrange⟩ := hlegal
  have hq : wrapPhase wrapFuel (fadd s.ulfo.phase s.ulfo.inc) = some (i2f ((n + 1) % 2048 : Nat)) := by
    rw [hphase, hinc]
    exact (congrArg _ (fadd_i2f_oneF (by omega))).trans (wrapPhase_i2f_succ hn)
  rw [exec_lfoNext_of_wrapPhase hr hq, lfoValue_of_phase_eq_i2f hn (fun i hi => (hrange i hi).1) hentry hphase]

/-! ### `LFO.BLOCK` -/

/-- `LFO.BLOCK` on a Ready LFO whose frames leave `r` (R150). -/
theorem exec_lfoBlock_of_blockFrames {s : State} {r : BlockRun} (hready : s.ulfo.ready = true)
    (hr : blockFrames s.params (argAddress 0 s) (argAddress 1 s) (argUint 2 s) (argUint 3 s) 0 s.ulfo s.mem = r) :
    exec .lfoBlock s = .next
      (if r.stuck then becomeStuck { s with ulfo := r.lfo, mem := r.mem } else complete { s with ulfo := r.lfo, mem := r.mem }) := by
  change execLfoBlock s = _
  rw [execLfoBlock, hready, hr]
  rfl

/-- Settles O33: no frame is stuck, so the memory is that of all the frames written in their order. -/
theorem lfoBlock : Obligations.LfoBlock := by
  refine fun s L v => ⟨fun hr => ?_, fun hr h0 hL => ?_⟩
  · change execLfoBlock s = _
    rw [execLfoBlock, hr]
    rfl
  · have hrun := blockFrames_eq (a := s.args[0].toNat) (b := s.args[1].toNat) (nch := s.args[2].toNat) s.mem hL
    rw [h0] at hrun
    exact ⟨_, exec_lfoBlock_of_blockFrames hr hrun,
      fun i j hi hj hlast => memRead_framesWritten v s.mem hi hj fun i' j' hlt hi' hj' => hlast i' j' hi' hj' (.inl hlt),
      fun x => readByte_framesWritten_other v s.mem⟩

end Sys2Proof.Machine
end

section
/-! SUPPORT. The wrap loop of the vibrato engine always ends (R180 (g)). The modulation frequency is at most a quarter of the sample
rate, so with `fdiv(2048, fs)` finite the increment is far below 2^35, or a NaN. The bounds use only that rounding at most doubles a
magnitude. -/

namespace Sys2Proof.Machine

/-! ### Sizes of rounded results -/

/-- Rounding at most doubles a magnitude, since zero is a value too. -/
theorem abs_mul_le_of_nearestEven {r : Word} {scale exact : Int} (hr : nearestEven r scale exact) :
    |realUnits r * scale| ≤ 2 * |exact| := by
  have hnear := (hr posZero rfl).1
  rw [show realUnits posZero = 0 by decide, zero_mul, zero_sub, abs_neg] at hnear
  have htriangle := abs_sub_abs_le_abs_sub (realUnits r * scale) exact
  omega

/-- A NaN, or a finite value whose magnitude is at most `n`. -/
def atMostOrNaN (n : Nat) (x : Word) : Prop :=
  isNaN x = true ∨ (isFinite x = true ∧ |realUnits x| ≤ n * (unitsPerOne : Int))

theorem atMostOrNaN_of_isNaN {x : Word} (n : Nat) (h : isNaN x = true) : atMostOrNaN n x := .inl h

theorem atMostOrNaN_signedZero (n : Nat) (neg : Bool) : atMostOrNaN n (signedZero neg) := by
  refine .inr ⟨isFinite_signedZero neg, ?_⟩
  rw [abs_realUnits, magnitude_signedZero]
  positivity

theorem atMostOrNaN_of_phaseSound {x : Word} (h : phaseSound x) : atMostOrNaN 2047 x := by
  refine h.imp_right fun ⟨hfin, hlow, hhigh⟩ => ⟨hfin, ?_⟩
  have hunit := unitsPerOne_pos
  rw [abs_le]
  omega

theorem natCast_mul_unitsPerOne_lt_overflowUnits {n : Nat} (h : n ≤ 2 ^ 35) :
    (n : Int) * (unitsPerOne : Int) < overflowUnits := by
  have hunit : (0 : Int) < unitsPerOne := by exact_mod_cast unitsPerOne_pos
  exact mul_lt_mul_of_pos_right (by omega) hunit

/-- A sum is at most twice the sum of the bounds of its operands, which are far below the overflow threshold. -/
theorem atMostOrNaN_fadd {m n : Nat} {a b : Word} (ha : atMostOrNaN m a) (hb : atMostOrNaN n b) (hmn : m + n ≤ 2 ^ 35) :
    atMostOrNaN (2 * (m + n)) (fadd a b) := by
  rcases ha with hnan | ⟨hafin, ha⟩
  · exact .inl (fadd_eq_nanResult (.inl hnan) ▸ isNaN_nanResult ..)
  rcases hb with hnan | ⟨hbfin, hb⟩
  · exact .inl (fadd_eq_nanResult (.inr hnan) ▸ isNaN_nanResult ..)
  have hsum : |realUnits a + realUnits b| ≤ ((m + n : Nat) : Int) * unitsPerOne := by
    push_cast
    rw [add_mul]
    exact (abs_add_le _ _).trans (add_le_add ha hb)
  obtain ⟨hfin, hnear⟩ := fadd_nearest hafin hbfin (hsum.trans_lt (natCast_mul_unitsPerOne_lt_overflowUnits hmn))
  have hsize := abs_mul_le_of_nearestEven hnear
  refine .inr ⟨hfin, ?_⟩
  rw [mul_one] at hsize
  push_cast at hsum ⊢
  linarith

/-- The wrap loop ends from a NaN and from every value of at most 2^35 (R149). -/
theorem wrapPhase_ne_none_of_atMostOrNaN {n : Nat} {x : Word} (hx : atMostOrNaN n x) (hn : n ≤ 2 ^ 35) :
    wrapPhase wrapFuel x ≠ none := by
  rcases hx with hnan | ⟨hfin, hle⟩
  · rw [wrapPhase_of_not_gt wrapFuel x (flt_nan_right f2047 hnan)]
    exact Option.some_ne_none _
  · have hbound : (n : Int) * unitsPerOne ≤ 2 ^ 35 * (unitsPerOne : Int) :=
      mul_le_mul_of_nonneg_right (by exact_mod_cast hn) (Int.natCast_nonneg _)
    obtain ⟨q, k, hq, -⟩ := wrapPhase_wrapFuel_exact hfin (((le_abs_self _).trans hle).trans hbound)
    rw [hq]
    exact Option.some_ne_none _

/-! ### The increment of the engine's LFO -/

/-- With a finite sample rate a frequency within the bounds of R171 is finite, not below zero and at most half the rate,
as rounding at most doubles the quarter of it. -/
theorem two_mul_realUnits_le_of_withinBound {fs f : Word} (hfs : isFinite fs = true) (hpos : 0 < realUnits fs)
    (hf : withinBound f posZero (fdiv fs f4) = true) :
    isFinite f = true ∧ 0 ≤ realUnits f ∧ 2 * realUnits f ≤ realUnits fs := by
  have hunit : (0 : Int) < unitsPerOne := by exact_mod_cast unitsPerOne_pos
  have hf4 : realUnits f4 = 4 * (unitsPerOne : Int) := by decide +kernel
  have hover := abs_realUnits_lt_overflowUnits hfs
  simp only [withinBound, Bool.and_eq_true, fge_posZero_iff, fle_iff] at hf
  obtain ⟨⟨hnan, hf0⟩, -, -, hle⟩ := hf
  obtain ⟨-, hquotfin, hnear, -⟩ := fdiv_correctlyRounded hfs (b := f4) rfl (by decide +kernel)
  have hquot : isFinite (fdiv fs f4) = true := by
    have hlt := mul_lt_mul_of_pos_right hover hunit
    have hroom := mul_pos overflowUnits_pos hunit
    rw [hquotfin, hf4, abs_of_pos (by omega : 0 < 4 * (unitsPerOne : Int))]
    linarith
  have hfinite : isFinite f = true := by
    rcases word_kind f with hk | hk | hk
    · simp [hnan] at hk
    · have hinf : overflowUnits < realUnits (signedInf false) := by
        unfold overflowUnits unitsPerOne
        decide +kernel
      have hlt := abs_lt.1 (abs_realUnits_lt_overflowUnits hquot)
      rw [eq_signedInf hk, signBit_of_nonneg hf0 (magnitude_ne_zero_of_isInf hk)] at hle
      omega
    · exact hk
  refine ⟨hfinite, hf0, ?_⟩
  have hsize := (le_abs_self _).trans (abs_mul_le_of_nearestEven (hnear hquot))
  rw [hf4, abs_of_pos (mul_pos hpos hunit)] at hsize
  nlinarith

/-- With a finite sample rate the increment is at most 4096: `2048/fs`, at most doubled by rounding, times at most `fs/2` is at most
2048, and rounding at most doubles that. -/
theorem atMostOrNaN_lfoIncrement_of_finite {fs f : Word} (hfs : isFinite fs = true) (hpos : 0 < realUnits fs)
    (hquot : isFinite (fdiv f2048 fs) = true) (hf : withinBound f posZero (fdiv fs f4) = true) :
    atMostOrNaN 4096 (lfoIncrement fs f) := by
  have hunit : (0 : Int) < unitsPerOne := by exact_mod_cast unitsPerOne_pos
  obtain ⟨hfin, hf0, hfle⟩ := two_mul_realUnits_le_of_withinBound hfs hpos hf
  obtain ⟨-, -, hquotnear, -⟩ := fdiv_correctlyRounded (a := f2048) rfl hfs (mt (realUnits_eq_zero_iff fs).2 hpos.ne')
  have hquotsize := abs_mul_le_of_nearestEven (hquotnear hquot)
  have hsquare : (0 : Int) ≤ 2048 * unitsPerOne * unitsPerOne := by positivity
  rw [realUnits_f2048, abs_mul, abs_of_pos hpos, abs_of_nonneg hsquare] at hquotsize
  have hexact : |realUnits (fdiv f2048 fs) * realUnits f| ≤ 2048 * (unitsPerOne : Int) * unitsPerOne := by
    rw [abs_mul, abs_of_nonneg hf0]
    nlinarith [abs_nonneg (realUnits (fdiv f2048 fs))]
  obtain ⟨-, hincfin, hincnear, -⟩ := fmul_correctlyRounded hquot hfin
  have hlarge := natCast_mul_unitsPerOne_lt_overflowUnits (n := 2048) (by norm_num)
  have hinc : isFinite (lfoIncrement fs f) = true :=
    hincfin.2 (hexact.trans_lt (mul_lt_mul_of_pos_right (by exact_mod_cast hlarge) hunit))
  have hincsize := abs_mul_le_of_nearestEven (hincnear hinc)
  rw [abs_mul, abs_of_pos hunit] at hincsize
  refine .inr ⟨hinc, le_of_mul_le_mul_right ?_ hunit⟩
  calc |realUnits (lfoIncrement fs f)| * unitsPerOne ≤ 2 * |realUnits (fdiv f2048 fs) * realUnits f| := hincsize
    _ ≤ (4096 : Nat) * (unitsPerOne : Int) * unitsPerOne := by push_cast; linarith

/-- The increment of an engine whose `fdiv(2048, fs)` is finite: with an infinite sample rate it is a zero times the frequency. -/
theorem atMostOrNaN_lfoIncrement {fs f : Word} (hfs : fgt fs posZero = true) (hquot : isFinite (fdiv f2048 fs) = true)
    (hf : withinBound f posZero (fdiv fs f4) = true) : atMostOrNaN 4096 (lfoIncrement fs f) := by
  obtain ⟨hnan, hpos⟩ := fgt_posZero_iff.1 hfs
  rcases word_kind fs with hk | hk | hk
  · simp [hnan] at hk
  · rw [lfoIncrement, fdiv_finite_inf rfl hk]
    cases hfin : isFinite f with
    | false => exact .inl (isNaN_fmul_of_not_finite (isFinite_signedZero _) (magnitude_signedZero _) hfin)
    | true =>
      rw [fmul_eq_signedZero (isFinite_signedZero _) hfin (.inl (magnitude_signedZero _))]
      exact atMostOrNaN_signedZero ..
  · exact atMostOrNaN_lfoIncrement_of_finite hk hpos hquot hf

end Sys2Proof.Machine
end

section
/-! SUPPORT. The loops of `VIB.PROCESS` (R177, R179), told by the last channel of a frame: which word a channel reads and writes and
where its delay line ends; and the frames: in what they depend on the addresses, and that none is stuck. -/

namespace Sys2Proof.Machine

variable {aw : Nat}

/-! ### A row of writes -/

section Writes
variable {M : Nat → Memory} {addr : Nat → Nat} {y : Nat → Word}

/-- A word is not changed by the writes from the `k`-th on where none of them falls on it. -/
theorem memRead_writes_other (hM : ∀ j, M (j + 1) = memWrite aw (M j) (addr j) (y j)) {k n a : Nat} (hkn : k ≤ n)
    (h : ∀ j, k ≤ j → j < n → addr j % memoryWords aw ≠ a % memoryWords aw) : memRead aw (M n) a = memRead aw (M k) a := by
  induction n, hkn using Nat.le_induction with
  | base => rfl
  | succ n hkn ih =>
    rw [hM, memRead_memWrite_other _ _ _ _ (h n hkn n.lt_succ_self).symm]
    exact ih fun j hkj hjn => h j hkj (by omega)

/-- A word holds the value of the last write that falls on it. -/
theorem memRead_writes_last (hM : ∀ j, M (j + 1) = memWrite aw (M j) (addr j) (y j)) {k n a : Nat} (hkn : k < n)
    (hk : addr k % memoryWords aw = a % memoryWords aw)
    (h : ∀ j, k < j → j < n → addr j % memoryWords aw ≠ a % memoryWords aw) : memRead aw (M n) a = y k := by
  rw [memRead_writes_other hM hkn h, hM]
  exact memRead_memWrite_same _ _ _ _ hk.symm

theorem readByte_writes_other (hM : ∀ j, M (j + 1) = memWrite aw (M j) (addr j) (y j)) {n x : Nat}
    (h : ∀ j, j < n → x / 4 ≠ addr j % memoryWords aw) : readByte (M n) x = readByte (M 0) x := by
  induction n with
  | zero => rfl
  | succ n ih =>
    rw [hM, readByte_memWrite_other _ _ _ _ (h n n.lt_succ_self)]
    exact ih fun j hj => h j (by omega)

end Writes

/-! ### The channels of a frame -/

theorem vibChannels_add (inp out stride i : Nat) (offset : Word) (n n' j : Nat) (v : Vib) (m : Memory) :
    vibChannels aw inp out stride i offset (n + n') j v m =
      vibChannels aw inp out stride i offset n' (j + n) (vibChannels aw inp out stride i offset n j v m).1
        (vibChannels aw inp out stride i offset n j v m).2 := by
  induction n generalizing j v m with
  | zero => simp [vibChannels]
  | succ n ih => rw [Nat.succ_add, vibChannels, ih, vibChannels, show j + (n + 1) = j + 1 + n by omega]

/-- A delay line is not changed by a write of another one. -/
theorem getElem?_setDelayLine_of_ne {v : Vib} {j j' : Nat} (b : RingBuffer) (h : j ≠ j') :
    (setDelayLine v j b).dl[j']? = v.dl[j']? := by
  rw [setDelayLine_dl, List.getElem?_set_ne h]

theorem delayLine_congr {v v' : Vib} {j : Nat} (h : v'.dl[j]? = v.dl[j]?) : delayLine v' j = delayLine v j := by
  rw [delayLine, h, delayLine]

theorem delayLine_of_getElem? {v : Vib} {j : Nat} {b : RingBuffer} (h : v.dl[j]? = some (some b)) : delayLine v j = b := by
  rw [delayLine, h]
  rfl

/-- A frame of `VIB.PROCESS` (R177, R179): the width, the bases and the stride of its addresses, its number, its offset, and engine
and memory before its channels. -/
structure ChannelRow where
  aw : Nat
  inp : Nat
  out : Nat
  stride : Nat
  frame : Nat
  offset : Word
  vib : Vib
  mem : Memory

namespace ChannelRow
variable (r : ChannelRow)

/-- Engine and memory after the first `n` channels of the frame. -/
def after (n : Nat) : Vib × Memory :=
  vibChannels r.aw (r.inp % memoryWords r.aw) (r.out % memoryWords r.aw) (r.stride % memoryWords r.aw) r.frame r.offset n 0 r.vib
    r.mem

/-- The memory after the first `n` channels. -/
def memAfter (n : Nat) : Memory := (r.after n).2

/-- The word that channel `n` reads, after the writes of the channels below it (R68, R71). -/
def input (n : Nat) : Word := memRead r.aw (r.memAfter n) (r.inp + n * r.stride + r.frame)

/-- What channel `n` makes of its input word: the word it writes, and its delay line afterwards (R177). -/
def result (n : Nat) : Word × RingBuffer := channelStep (delayLine r.vib n) r.offset (r.input n)

/-- The word that channel `n` writes. -/
def output (n : Nat) : Word := (r.result n).1

/-- A channel does not touch the delay lines above it. -/
theorem after_dl_of_le {n j : Nat} (h : n ≤ j) : (r.after n).1.dl[j]? = r.vib.dl[j]? := by
  induction n with
  | zero => rfl
  | succ n ih =>
    rw [after, vibChannels_add, Nat.zero_add]
    exact (getElem?_setDelayLine_of_ne _ (by omega)).trans (ih (by omega))

/-- One channel more: it reads its word, puts it into its delay line, and writes its output word (R177). -/
theorem after_succ (n : Nat) :
    r.after (n + 1) =
      (setDelayLine (r.after n).1 n (r.result n).2,
        memWrite r.aw (r.memAfter n) (r.out + n * r.stride + r.frame) (r.output n)) := by
  have hline : delayLine (r.after n).1 n = delayLine r.vib n := delayLine_congr (r.after_dl_of_le le_rfl)
  rw [output, result, input, memAfter, ← hline, after, vibChannels_add, Nat.zero_add, vibChannels, vibChannels, effectiveAddress_mod,
    effectiveAddress_mod, memRead_mod, memWrite_mod]
  rfl

theorem memAfter_succ (n : Nat) :
    r.memAfter (n + 1) = memWrite r.aw (r.memAfter n) (r.out + n * r.stride + r.frame) (r.output n) :=
  congrArg Prod.snd (r.after_succ n)

theorem after_dl_length (n : Nat) : (r.after n).1.dl.length = r.vib.dl.length := by
  induction n with
  | zero => rfl
  | succ n ih => rw [after_succ, setDelayLine_dl, List.length_set, ih]

/-- Every channel done has left its delay line as its own step did. -/
theorem after_dl_of_lt {n j : Nat} (h : j < n) (hlen : j < r.vib.dl.length) :
    (r.after n).1.dl[j]? = some (some (r.result j).2) := by
  induction n with
  | zero => omega
  | succ n ih =>
    rw [after_succ]
    rcases Nat.lt_or_ge j n with hj | hj
    · rw [getElem?_setDelayLine_of_ne _ (by omega)]
      exact ih hj
    · obtain rfl : j = n := by omega
      rw [setDelayLine_dl, List.getElem?_set_self (by rwa [after_dl_length])]

end ChannelRow

/-- The channels depend on the addresses of their words only. -/
theorem vibChannels_congr {inp inp' out out' stride i i' : Nat}
    (hin : ∀ j, effectiveAddress aw inp' stride j i' = effectiveAddress aw inp stride j i)
    (hout : ∀ j, effectiveAddress aw out' stride j i' = effectiveAddress aw out stride j i) (offset : Word) (n j : Nat) (v : Vib)
    (m : Memory) :
    vibChannels aw inp' out' stride i' offset n j v m = vibChannels aw inp out stride i offset n j v m := by
  induction n generalizing j v m with
  | zero => rfl
  | succ n ih => rw [vibChannels, vibChannels, hin, hout, ih]

/-! ### The frames -/

variable {p : Params}

/-- One frame whose LFO step is not stuck. -/
theorem vibFrames_one {inp out stride i : Nat} {v : Vib} {sample : Word} {l : Lfo} (m : Memory)
    (hl : lfoNext p.sine v.lfo = some (sample, l)) :
    vibFrames p inp out stride 1 i v m =
      { vib := (vibChannels p.addressWidth inp out stride i (vibOffset v sample) v.nch 0 { v with lfo := l } m).1,
        mem := (vibChannels p.addressWidth inp out stride i (vibOffset v sample) v.nch 0 { v with lfo := l } m).2,
        stuck := false } := by
  simp only [vibFrames, hl]

/-- Where the LFO step of the first frame is stuck, no frame does anything (R240, log 6). -/
theorem vibFrames_of_lfoNext_eq_none {inp out stride n i : Nat} {v : Vib} (m : Memory) (hn : n ≠ 0)
    (hl : lfoNext p.sine v.lfo = none) : vibFrames p inp out stride n i v m = { vib := v, mem := m, stuck := true } := by
  obtain ⟨k, rfl⟩ := Nat.exists_eq_succ_of_ne_zero hn
  simp only [vibFrames, hl]

/-- The frames from frame `k + i` on are those from frame `i` on at bases that lie `k` words further. -/
theorem vibFrames_shift {inp inp' out out' stride k : Nat}
    (hin : ∀ j i, effectiveAddress p.addressWidth inp' stride j i = effectiveAddress p.addressWidth inp stride j (k + i))
    (hout : ∀ j i, effectiveAddress p.addressWidth out' stride j i = effectiveAddress p.addressWidth out stride j (k + i))
    (n i : Nat) (v : Vib) (m : Memory) :
    vibFrames p inp' out' stride n i v m = vibFrames p inp out stride n (k + i) v m := by
  induction n generalizing i v m with
  | zero => rfl
  | succ n ih =>
    simp only [vibFrames, vibChannels_congr (hin · i) (hout · i), ih, Nat.add_assoc]

/-- An LFO step that ends keeps the invariants of the engine. -/
theorem vibInvariant_lfoNext {v : Vib} {sample : Word} {l : Lfo} (h : VibInvariant p v)
    (hl : lfoNext p.sine v.lfo = some (sample, l)) : VibInvariant p { v with lfo := l } := by
  have hlfo := lfoSound_lfoNext hl h.lfo_ready h.lfo
  obtain ⟨q, -, -, rfl⟩ := lfoNext_eq_some.1 hl
  exact { h with lfo := hlfo }

/-- The LFO step of a sound engine ends when `fdiv(2048, fs)` is finite: phase and increment are far below 2^35 (R149). -/
theorem lfoNext_ne_none {v : Vib} (h : VibInvariant p v) (hfs : isFinite (fdiv f2048 v.fs) = true) :
    lfoNext p.sine v.lfo ≠ none := by
  obtain ⟨-, -, hrate, hinc, hphase⟩ := (lfoSound_of_ready h.lfo_ready).1 h.lfo
  have hbound := h.modFreq
  rw [h.freqMin, h.freqMax] at hbound
  rw [h.lfo_fs] at hrate
  rw [h.lfo_fs, h.lfo_freq] at hinc
  have hsmall : atMostOrNaN 4096 v.lfo.inc := hinc ▸ atMostOrNaN_lfoIncrement hrate hfs hbound
  exact mt lfoNext_eq_none.1 (wrapPhase_ne_none_of_atMostOrNaN
    (atMostOrNaN_fadd (atMostOrNaN_of_phaseSound hphase) hsmall (by norm_num)) (by norm_num))

/-- No frame of a sound engine is stuck when `fdiv(2048, fs)` is finite (R180 (g)). -/
theorem vibFrames_not_stuck (inp out stride n i : Nat) {v : Vib} (m : Memory) (h : VibInvariant p v)
    (hfs : isFinite (fdiv f2048 v.fs) = true) : (vibFrames p inp out stride n i v m).stuck = false := by
  induction n generalizing i v m with
  | zero => rfl
  | succ n ih =>
    obtain ⟨⟨sample, l⟩, hl⟩ := Option.ne_none_iff_exists'.1 (lfoNext_ne_none h hfs)
    have hnext := vibInvariant_lfoNext h hl
    simp only [vibFrames, hl]
    refine ih _ _ (vibInvariant_vibChannels hnext ..) ?_
    rw [vibChannels_vib]
    exact hfs

end Sys2Proof.Machine
end

section
/-! The obligations on the vibrato engine (R171 to R180): its initialisation, its parameters, and what `VIB.PROCESS` does with no
frame, one frame, any frames and two blocks of frames. -/

namespace Sys2Proof.Machine

/-! ### The base delay -/

/-- A product of values above zero is not below zero, so truncation toward zero gives no negative delay (R172). -/
theorem itrunc_delayProduct_nonneg {fs : Word} (hfs : fgt fs posZero = true) (hfin : isFinite (delayProduct fs) = true) :
    0 ≤ itrunc (delayProduct fs) := by
  have hk : nonNegativeOrNaN kDelay := .inr (by decide)
  have hprod := (nonNegativeOrNaN_fmul hk (.inr (fgt_posZero_iff.1 hfs).2.le)).resolve_left
    ((Bool.not_eq_true _).mpr (isNaN_of_isFinite hfin))
  exact Int.tdiv_nonneg hprod (Int.natCast_nonneg _)

/-- Settles O36: the delay is not negative, and the table is evaluated. -/
theorem baseDelay : Obligations.BaseDelay :=
  ⟨fun _ => rfl, fun _ hfs hfin => Int.toNat_of_nonneg (itrunc_delayProduct_nonneg hfs hfin), by decide +kernel⟩

/-! ### `VIB.INIT` -/

theorem withinBound_eq_false_iff {v lo hi : Word} : withinBound v lo hi = false ↔ fge v lo = false ∨ fle v hi = false := by
  rw [withinBound, Bool.and_eq_false_iff]

theorem withinBound_iff {v lo hi : Word} : withinBound v lo hi = true ↔ fge v lo = true ∧ fle v hi = true := by
  rw [withinBound, Bool.and_eq_true]

theorem vibArgumentsValid_eq_false_iff {fs fm amp : Word} {nch : Int} :
    vibArgumentsValid fs nch fm amp = false ↔
      fgt fs posZero = false ∨ nch ≤ 0 ∨ fge fm posZero = false ∨ fle fm (fdiv fs f4) = false ∨ fge amp posZero = false ∨
        fle amp oneF = false := by
  simp only [vibArgumentsValid, Bool.and_eq_false_iff, withinBound_eq_false_iff, decide_eq_false_iff_not, not_lt, or_assoc]

theorem vibArgumentsValid_iff {fs fm amp : Word} {nch : Int} :
    vibArgumentsValid fs nch fm amp = true ↔
      fgt fs posZero = true ∧ 0 < nch ∧ fge fm posZero = true ∧ fle fm (fdiv fs f4) = true ∧ fge amp posZero = true ∧
        fle amp oneF = true := by
  simp only [vibArgumentsValid, withinBound_iff, Bool.and_eq_true, decide_eq_true_eq, and_assoc]

theorem vibFits_eq_false {p : Params} {fs : Word} {nch : Int}
    (h : (p.channelsMax : Int) < nch ∨ isFinite (delayProduct fs) = false ∨
      (p.delayLineMax : Int) < 2 * itrunc (delayProduct fs) + 1) : vibFits p fs nch = false := by
  unfold vibFits delayInSamples
  rcases h with h | h | h
  · rw [decide_eq_false (by omega), Bool.false_and, Bool.false_and]
  · rw [h, Bool.and_false, Bool.false_and]
  · rw [decide_eq_false (p := _ ≤ p.delayLineMax) (by omega), Bool.and_false]

theorem vibFits_eq_true {p : Params} {fs : Word} {nch : Int} {d : Nat} (hnch : nch ≤ (p.channelsMax : Int))
    (hfin : isFinite (delayProduct fs) = true) (hd : itrunc (delayProduct fs) = d) (hcap : 2 * d + 1 ≤ p.delayLineMax) :
    vibFits p fs nch = true := by
  simp [vibFits, delayInSamples, hnch, hfin, hd, hcap]

/-- The commit of `VIB.INIT` with every field written out (R171, R173). -/
theorem vibInitialized_eq {channels d : Nat} {old : Vib} {fs fm amp : Word} {nch : Int} (hfs : fgt fs posZero = true)
    (hfm : fge fm posZero = true) (hd : itrunc (delayProduct fs) = d) :
    vibInitialized channels old fs nch.toNat fm amp =
      { ready := true, fs := fs, nch := nch.toNat, modFreq := fm, amp := amp, ampMin := posZero, ampMax := oneF,
        freqMin := posZero, freqMax := fdiv fs f4, delay := d,
        dl := (List.range channels).map fun j : Nat => if (j : Int) < nch then some (delayLineCreated d) else none,
        lfo := { ready := true, wave := 0, freq := fm, fs := fs, inc := lfoIncrement fs fm, phase := posZero } } := by
  have hdelay : delayInSamples fs = d := by rw [delayInSamples, hd, Int.toNat_natCast]
  have hlfo := (lfoInitialized_eq_some (w := 0) (f := fm) (fs := fs)).2 ⟨rfl, hfm, hfs, rfl⟩
  rw [vibInitialized, vibLfo, hlfo, hdelay, delayLinesCreated]
  simp only [Int.lt_toNat, Option.getD_some]

section Init
variable {s : State}

theorem exec_vibInit_invalid (h : vibArgumentsValid s.args[0] s.args[1].toInt s.args[2] s.args[3] = false) :
    exec .vibInit s = .next { s with st := 1 } := by
  change execVibInit s = _
  exact congrArg _ (if_pos (by rw [Bool.not_eq_true']; exact h))

theorem exec_vibInit_too_large (hvalid : vibArgumentsValid s.args[0] s.args[1].toInt s.args[2] s.args[3] = true)
    (hfits : vibFits s.params s.args[0] s.args[1].toInt = false) : exec .vibInit s = .next { s with st := 4 } := by
  change execVibInit s = _
  refine congrArg _ ((if_neg ?_).trans (if_pos ?_))
  · rw [Bool.not_eq_true', Bool.not_eq_false]; exact hvalid
  · rw [Bool.not_eq_true']; exact hfits

theorem exec_vibInit_fits (hvalid : vibArgumentsValid s.args[0] s.args[1].toInt s.args[2] s.args[3] = true)
    (hfits : vibFits s.params s.args[0] s.args[1].toInt = true) :
    exec .vibInit s = .next { s with
      st := 0,
      vib := vibInitialized s.params.channelsMax s.vib s.args[0] s.args[1].toInt.toNat s.args[2] s.args[3] } := by
  change execVibInit s = _
  refine congrArg _ ((if_neg ?_).trans (if_neg ?_))
  · rw [Bool.not_eq_true', Bool.not_eq_false]; exact hvalid
  · rw [Bool.not_eq_true', Bool.not_eq_false]; exact hfits

end Init

/-- Settles O35: the tests of R171 in their order, and the commit. -/
theorem vibInit : Obligations.VibInit := by
  refine fun s => ⟨fun h => exec_vibInit_invalid (vibArgumentsValid_eq_false_iff.2 h), fun hfs hnch hfm hfm' hamp hamp' => ?_⟩
  have hvalid := vibArgumentsValid_iff.2 ⟨hfs, hnch, hfm, hfm', hamp, hamp'⟩
  refine ⟨fun h => exec_vibInit_too_large hvalid (vibFits_eq_false h), fun D hmax hfin hD hcap => ?_⟩
  rw [exec_vibInit_fits hvalid (vibFits_eq_true hmax hfin hD hcap), vibInitialized_eq hfs hfm hD]
  -- the statement takes the channel numbers as integers
  simp only [bind_pure_comp, List.map_eq_map, List.map_map]
  rfl

/-! ### `VIB.SETPARAM` and `VIB.GETPARAM` -/

theorem exec_vibSetparam_amplitude {s : State} (hr : s.vib.ready = true) :
    exec (.vibSetparam 0) s = .next
      (if withinBound s.args[0] s.vib.ampMin s.vib.ampMax then { s with st := 0, vib := { s.vib with amp := s.args[0] } }
      else { s with st := 1 }) := by
  change execVibSetparam 0 s = _
  rw [execVibSetparam, hr]
  rfl

theorem exec_vibSetparam_frequency {s : State} (hr : s.vib.ready = true) :
    exec (.vibSetparam 1) s = .next
      (if withinBound s.args[0] s.vib.freqMin s.vib.freqMax then
        { s with st := 0, vib := { s.vib with
            modFreq := s.args[0], lfo := (lfoWithFrequency s.vib.lfo s.args[0]).getD s.vib.lfo } }
      else { s with st := 1 }) := by
  change execVibSetparam 1 s = _
  rw [execVibSetparam, hr]
  rfl

/-- Settles O38: the tests in their order; within its bounds a frequency is not below `+0`, so the nested `LfoSetFreq` succeeds. -/
theorem vibSetparam : Obligations.VibSetparam := by
  intro p s hs
  refine ⟨fun hr => ?notReady, fun hr hp => ?unknown, ?amplitudeOutside, ?amplitude, ?frequencyOutside, ?frequency⟩
  case notReady =>
    change execVibSetparam p s = _
    rw [execVibSetparam, hr]
    rfl
  case unknown =>
    change execVibSetparam p s = _
    rw [execVibSetparam, hr]
    exact congrArg _ (if_pos hp)
  case amplitudeOutside =>
    rintro hr rfl h
    rw [exec_vibSetparam_amplitude hr, withinBound_eq_false_iff.2 h]
    rfl
  case amplitude =>
    rintro hr rfl hlo hhi
    rw [exec_vibSetparam_amplitude hr, withinBound_iff.2 ⟨hlo, hhi⟩]
    rfl
  case frequencyOutside =>
    rintro hr rfl h
    rw [exec_vibSetparam_frequency hr, withinBound_eq_false_iff.2 h]
    rfl
  case frequency =>
    rintro hr rfl hlo hhi
    have hpos : fge s.args[0] posZero = true := (vibInvariant_of_vibSound hr hs).freqMin ▸ hlo
    rw [exec_vibSetparam_frequency hr, withinBound_iff.2 ⟨hlo, hhi⟩, lfoWithFrequency_eq_some.2 ⟨hpos, rfl⟩]
    rfl

/-- Settles O39: each outcome by its test. -/
theorem vibGetparam : Obligations.VibGetparam := by
  refine fun p s => ⟨fun hr => ?_, fun hr hp => ?_, fun hr hp => ?_, fun hr hp => ?_⟩
  all_goals
    change execVibGetparam p s = _
    rw [execVibGetparam, hr]
  · rfl
  · exact congrArg _ (if_pos hp)
  · subst hp; rfl
  · subst hp; rfl

/-! ### `VIB.PROCESS` -/

/-- The state that `VIB.PROCESS` leaves when its frames leave `r`. -/
def processed (s : State) (r : VibRun) : State :=
  if r.stuck then becomeStuck { s with vib := r.vib, mem := r.mem } else complete { s with vib := r.vib, mem := r.mem }

section Processed
variable (s : State) (r : VibRun)

@[simp] theorem processed_vib : (processed s r).vib = r.vib := by unfold processed; split <;> rfl
@[simp] theorem processed_mem : (processed s r).mem = r.mem := by unfold processed; split <;> rfl
@[simp] theorem processed_res : (processed s r).res = s.res := by unfold processed; split <;> rfl
@[simp] theorem processed_params : (processed s r).params = s.params := by unfold processed; split <;> rfl
@[simp] theorem processed_stuck : (processed s r).stuck = (r.stuck || s.stuck) := by
  unfold processed; cases r.stuck <;> rfl

end Processed

/-- A run that is not stuck ends with NoError and changes engine and memory only. -/
theorem processed_of_not_stuck {s : State} {r : VibRun} (h : r.stuck = false) :
    processed s r = { s with st := 0, vib := r.vib, mem := r.mem } := by
  rw [processed, h]
  rfl

theorem exec_vibProcess_not_ready {s : State} (hr : s.vib.ready = false) : exec .vibProcess s = .next { s with st := 2 } := by
  change execVibProcess s = _
  rw [execVibProcess, hr]
  rfl

/-- `VIB.PROCESS` on a Ready engine (R179). -/
theorem exec_vibProcess_ready {s : State} (hr : s.vib.ready = true) :
    exec .vibProcess s = .next (processed s
      (vibFrames s.params (argAddress 0 s) (argAddress 1 s) (argAddress 2 s) (argUint 3 s) 0 s.vib s.mem)) := by
  change execVibProcess s = _
  rw [execVibProcess, hr]
  rfl

/-- Settles O41: without a frame, or with the first one stuck, engine and memory are put back as they were. -/
theorem vibProcessEdges : Obligations.VibProcessEdges := by
  refine fun s => ⟨exec_vibProcess_not_ready, fun hr h0 => ?_, fun hr h0 hnone => ?_⟩
  · have hn : argUint 3 s = 0 := congrArg BitVec.toNat h0
    rw [exec_vibProcess_ready hr, hn]
    rfl
  · have hn : argUint 3 s ≠ 0 := fun h => h0 (BitVec.eq_of_toNat_eq h)
    rw [exec_vibProcess_ready hr, vibFrames_of_lfoNext_eq_none s.mem hn hnone]
    rfl

/-- Settles O43: no frame is stuck. -/
theorem vibProcessNeverStuck : Obligations.VibProcessNeverStuck := by
  intro s hr hs hfs
  have hrun := vibFrames_not_stuck (argAddress 0 s) (argAddress 1 s) (argAddress 2 s) (argUint 3 s) 0 s.mem
    (vibInvariant_of_vibSound hr hs) hfs
  refine ⟨_, exec_vibProcess_ready hr, ?_⟩
  rw [processed_of_not_stuck hrun]
  exact ⟨rfl, rfl, rfl, rfl, rfl, rfl⟩

/-! ### One frame -/

/-- The first frame of `VIB.PROCESS` at `s`, after an LFO step that gave `sample` and left `l`. -/
def firstRow (s : State) (sample : Word) (l : Lfo) : ChannelRow :=
  { aw := s.params.addressWidth, inp := s.args[0].toNat, out := s.args[1].toNat, stride := s.args[2].toNat, frame := 0,
    offset := vibOffset s.vib sample, vib := { s.vib with lfo := l }, mem := s.mem }

/-- `VIB.PROCESS` of one frame whose LFO step is not stuck (R177). -/
theorem exec_vibProcess_one {s : State} {sample : Word} {l : Lfo} (hr : s.vib.ready = true) (hone : s.args[3] = 1)
    (hl : lfoNext s.params.sine s.vib.lfo = some (sample, l)) :
    exec .vibProcess s = .next { s with
      st := 0,
      mem := (firstRow s sample l).memAfter s.vib.nch,
      vib := { s.vib with lfo := l, dl := ((firstRow s sample l).after s.vib.nch).1.dl } } := by
  have hn : argUint 3 s = 1 := congrArg BitVec.toNat hone
  have hvib : ((firstRow s sample l).after s.vib.nch).1 =
      { s.vib with lfo := l, dl := ((firstRow s sample l).after s.vib.nch).1.dl } := vibChannels_vib ..
  rw [exec_vibProcess_ready hr, hn, vibFrames_one s.mem hl, processed_of_not_stuck rfl, ← hvib]
  rfl

section FirstRow
variable (s : State) (sample : Word) (l : Lfo) (j : Nat)

theorem firstRow_memAfter_succ :
    (firstRow s sample l).memAfter (j + 1) =
      memWrite s.params.addressWidth ((firstRow s sample l).memAfter j) (s.args[1].toNat + j * s.args[2].toNat)
        ((firstRow s sample l).output j) :=
  (firstRow s sample l).memAfter_succ j

theorem firstRow_input :
    (firstRow s sample l).input j =
      memRead s.params.addressWidth ((firstRow s sample l).memAfter j) (s.args[0].toNat + j * s.args[2].toNat) := rfl

/-- What channel `j` of the frame does to the delay line `b` and to its output word (R177). -/
theorem firstRow_result {b : RingBuffer} (hb : s.vib.dl[j]? = some (some b)) :
    (firstRow s sample l).result j = channelStep b (vibOffset s.vib sample) ((firstRow s sample l).input j) := by
  have hline : delayLine (firstRow s sample l).vib j = b := delayLine_of_getElem? hb
  rw [ChannelRow.result, hline]
  rfl

end FirstRow

/-- Settles O40: the frame is the row of its channels, each of which writes one word. -/
theorem vibProcessOneFrame : Obligations.VibProcessOneFrame := by
  intro s sample l hr hs hone hl
  have hinv := vibInvariant_of_vibSound hr hs
  have hM := firstRow_memAfter_succ s sample l
  refine ⟨(firstRow s sample l).memAfter, ((firstRow s sample l).after s.vib.nch).1.dl, (firstRow s sample l).input,
    (firstRow s sample l).output, exec_vibProcess_one hr hone hl, rfl, (firstRow s sample l).after_dl_length _,
    fun j => (firstRow s sample l).after_dl_of_le, fun j b hj hb => ?channel, fun j hj h => ?unchanged,
    fun j j' hj hj' heq h => ?overlap, fun j hj h => ?kept, fun a h => ?otherBytes⟩
  case channel =>
    have hlen : j < s.vib.dl.length := hj.trans_le (hinv.nch_le.trans_eq hinv.dl_length.symm)
    refine ⟨firstRow_input s sample l j, congrArg Prod.fst (firstRow_result s sample l j hb), hM j, ?_⟩
    rw [(firstRow s sample l).after_dl_of_lt hj hlen, firstRow_result s sample l j hb]
    rfl
  case unchanged =>
    rw [firstRow_input]
    exact (memRead_writes_other hM (Nat.zero_le j) fun j' _ => h j' :)
  case overlap =>
    rw [firstRow_input]
    exact (memRead_writes_last hM hj' heq h :)
  case kept => exact (memRead_writes_last hM hj rfl h :)
  case otherBytes => exact (readByte_writes_other hM h :)

/-! ### Blocks -/

/-- A base that the host moved on by `n` words addresses the data from element `n` on (R61). -/
theorem effectiveAddress_continued {aw : Nat} (haw : aw ≤ 32) (base : Word) {n : Nat} (hn : n < 2 ^ 32) (stride j i : Nat) :
    effectiveAddress aw ((base + BitVec.ofNat 32 n).toNat % memoryWords aw) stride j i =
      effectiveAddress aw (base.toNat % memoryWords aw) stride j (n + i) := by
  have hdvd : memoryWords aw ∣ 2 ^ 32 := pow_dvd_pow 2 haw
  have hbase : (base + BitVec.ofNat 32 n).toNat % memoryWords aw ≡ base.toNat % memoryWords aw + n [MOD memoryWords aw] := by
    rw [BitVec.toNat_add, BitVec.toNat_ofNat, Nat.mod_eq_of_lt hn, Nat.mod_mod_of_dvd _ hdvd]
    exact (Nat.mod_modEq _ _).trans ((Nat.mod_modEq _ _).symm.add_right n)
  have hsum := (hbase.add_right (j * stride)).add_right i
  rw [show base.toNat % memoryWords aw + n + j * stride + i = base.toNat % memoryWords aw + j * stride + (n + i) by ring] at hsum
  exact hsum

/-- The run of `n` frames at the bases and the stride that the arguments give. -/
def vibBlock (p : Params) (inp out stride : Word) (n : Nat) (v : Vib) (m : Memory) : VibRun :=
  vibFrames p (inp.toNat % memoryWords p.addressWidth) (out.toNat % memoryWords p.addressWidth)
    (stride.toNat % memoryWords p.addressWidth) n 0 v m

/-- A run in two blocks, the second on the continuation of the data. -/
theorem vibBlock_add {p : Params} (haw : p.addressWidth ≤ 32) {inp out stride : Word} {n : Nat} (hn : n < 2 ^ 32) (n' : Nat)
    {v : Vib} {m : Memory} (h : (vibBlock p inp out stride n v m).stuck = false) :
    vibBlock p (inp + BitVec.ofNat 32 n) (out + BitVec.ofNat 32 n) stride n' (vibBlock p inp out stride n v m).vib
      (vibBlock p inp out stride n v m).mem = vibBlock p inp out stride (n + n') v m := by
  calc _ = vibFrames p _ _ _ n' (n + 0) _ _ :=
        vibFrames_shift (effectiveAddress_continued haw inp hn _) (effectiveAddress_continued haw out hn _) n' 0 _ _
    _ = vibFrames p _ _ _ n' (0 + n) _ _ := by rw [Nat.add_comm]; rfl
    _ = vibBlock p inp out stride (n + n') v m := (vibFrames_add _ _ _ n n' 0 v m h).symm

theorem vibBlock_ready {p : Params} {inp out stride : Word} {n : Nat} {v : Vib} {m : Memory} :
    (vibBlock p inp out stride n v m).vib.ready = v.ready := by
  rw [vibBlock, vibFrames_vib]

/-- `VIB.PROCESS` of `n` frames with its arguments written out. -/
theorem exec_vibProcess_arguments {s : State} (hr : s.vib.ready = true) (inp out stride : Word) {n : Nat} (hn : n < 2 ^ 32) :
    exec .vibProcess { s with args := #v[inp, out, stride, BitVec.ofNat 32 n] } =
      .next (processed { s with args := #v[inp, out, stride, BitVec.ofNat 32 n] }
        (vibBlock s.params inp out stride n s.vib s.mem)) := by
  have hcount : argUint 3 { s with args := #v[inp, out, stride, BitVec.ofNat 32 n] } = n :=
    (BitVec.toNat_ofNat ..).trans (Nat.mod_eq_of_lt hn)
  refine (exec_vibProcess_ready (s := { s with args := #v[inp, out, stride, BitVec.ofNat 32 n] }) hr).trans ?_
  rw [hcount]
  rfl

/-- Settles O42: the second block runs the later frames of the whole, from where the first left engine and memory. -/
theorem blockSizeIndependence : Obligations.BlockSizeIndependence := by
  intro s t1 t2 t3 inp out stride n1 n2 hn haw h1 hstuck h2 h3
  cases hr : s.vib.ready with
  | false =>
    obtain rfl := Host.Outcome.next.inj (h1.symm.trans (exec_vibProcess_not_ready hr))
    obtain rfl := Host.Outcome.next.inj (h2.symm.trans (exec_vibProcess_not_ready hr))
    obtain rfl := Host.Outcome.next.inj (h3.symm.trans (exec_vibProcess_not_ready hr))
    exact ⟨rfl, rfl, rfl, rfl, fun _ => rfl⟩
  | true =>
    obtain rfl := Host.Outcome.next.inj (h1.symm.trans (exec_vibProcess_arguments hr inp out stride (by omega)))
    rw [processed_stuck, Bool.or_eq_false_iff] at hstuck
    obtain ⟨hfirst, hs⟩ := hstuck
    rw [processed_of_not_stuck hfirst] at h2
    obtain rfl := Host.Outcome.next.inj
      (h2.symm.trans (exec_vibProcess_arguments (vibBlock_ready.trans hr) _ _ stride (by omega)))
    obtain rfl := Host.Outcome.next.inj (h3.symm.trans (exec_vibProcess_arguments hr inp out stride hn))
    rw [vibBlock_add haw (by omega) n2 hfirst]
    refine ⟨by simp, by simp, by simp, by simp, fun hsecond => ?_⟩
    rw [processed_stuck, Bool.or_eq_false_iff] at hsecond
    rw [processed_of_not_stuck hsecond.1, processed_of_not_stuck hsecond.1]

end Sys2Proof.Machine
end

section
/-! The obligation on failing commands (R203): how a command can end, with every failure among its ends written as one of the two
"trap entries" of the model, `raise` and `raiseSentinel`. -/

namespace Sys2Proof.Machine

/-! ### How a command ends -/

/-- The two getters whose failure writes a sentinel to `RES` (R205). -/
def returnsSentinel : Instr → Bool
  | .lfoGetfreq => true
  | .vibGetparam _ => true
  | _ => false

theorem returnsSentinel_eq_false {i : Instr} (hf : i ≠ .lfoGetfreq) (hp : ∀ p, i ≠ .vibGetparam p) :
    returnsSentinel i = false := by
  cases i <;> first | rfl | exact absurd rfl hf | exact absurd rfl (hp _)

/-- How a command that began in `s` can end in `t`: with NoError, stuck, or by a failure in `s` itself, which writes a code and,
where `sentinel` says that the command has one, its sentinel (R203, R240). -/
inductive CommandEnd (sentinel : Bool) (s t : State) : Prop
  | noError (h : t.st = statusCode .noError)
  | stuck (h : t.stuck = true)
  | failure (k : Status) (h : t = raise k s)
  | sentinelFailure (k : Status) (hsentinel : sentinel = true) (h : t = raiseSentinel k s)

section Ends
variable {sentinel : Bool} {s : State}

theorem commandEnd_raise (k : Status) : CommandEnd sentinel s (raise k s) := .failure k rfl

theorem commandEnd_raiseSentinel (k : Status) : CommandEnd true s (raiseSentinel k s) := .sentinelFailure k rfl rfl

theorem commandEnd_complete (s' : State) : CommandEnd sentinel s (complete s') := .noError rfl

theorem commandEnd_completeWith (v : Word) (s' : State) : CommandEnd sentinel s (completeWith v s') := .noError rfl

theorem commandEnd_becomeStuck (s' : State) : CommandEnd sentinel s (becomeStuck s') := .stuck rfl

/-- The test of the selector fails in the state the command began in (R85). -/
theorem commandEnd_withLegalSlot {n : BitVec 8} {body : State} (h : CommandEnd sentinel s body) :
    CommandEnd sentinel s (withLegalSlot n s body) := by
  rcases withLegalSlot_cases n s body with ⟨-, e⟩ | ⟨-, e⟩
  · rw [e]; exact commandEnd_raise _
  · rw [e]; exact h

/-- The preamble of R111 is all that can fail in a command whose body ends with NoError. -/
theorem commandEnd_of_preamble {i : Instr} {n : BitVec 8} {t : State} (hi : i ∈ preambleCommands n) (h : exec i s = .next t) :
    CommandEnd sentinel s t := by
  obtain ⟨body, hexec, hst⟩ := exec_eq_withSlot hi s
  cases hexec.symm.trans h
  rcases withSlot_cases n s body with ⟨-, e⟩ | ⟨-, -, e⟩ | ⟨b, -, -, e⟩
  · rw [e]; exact commandEnd_raise _
  · rw [e]; exact commandEnd_raise _
  · rw [e]; exact .noError (hst b)

/-- A failure leaves all but `ST` and `RES`, and `RES` too where the command has no sentinel. -/
theorem CommandEnd.frame_of_failed {t : State} (hend : CommandEnd sentinel s t) (hns : t.stuck = false) (hst : t.st ≠ 0) :
    t = { s with st := t.st, res := t.res } ∧ (sentinel = false → t.res = s.res) := by
  cases hend with
  | noError h => exact absurd h hst
  | stuck h => rw [hns] at h; cases h
  | failure k h => subst h; exact ⟨rfl, fun _ => rfl⟩
  | sentinelFailure k hsentinel h => subst h; exact ⟨rfl, fun hno => by rw [hno] at hsentinel; cases hsentinel⟩

end Ends

/-! ### Every command, by family -/

theorem exec_ringBuffer_end {i : Instr} {n : BitVec 8} {s t : State} (hi : ringBufferSlot i = some n) (h : exec i s = .next t) :
    CommandEnd (returnsSentinel i) s t := by
  cases i <;> cases hi
  case rbCreate =>
    cases h
    refine commandEnd_withLegalSlot ?_
    split_ifs
    · exact commandEnd_raise _
    · exact commandEnd_raise _
    · exact commandEnd_raise _
    · exact commandEnd_complete _
  case rbDestroy =>
    cases h
    exact commandEnd_withLegalSlot (commandEnd_complete _)
  case rbPut | rbPutn | rbGet | rbGetpi | rbGetn | rbSetrd | rbGetrd | rbSetwr | rbGetwr =>
    exact commandEnd_of_preamble (n := n) (by simp [preambleCommands]) h

theorem exec_lfo_end {i : Instr} {s t : State} (hi : isLfoCommand i = true) (h : exec i s = .next t) :
    CommandEnd (returnsSentinel i) s t := by
  cases i <;> cases hi
  all_goals cases h
  case lfoInit w =>
    split
    · exact commandEnd_raise _
    · exact commandEnd_complete _
  case lfoReset => exact commandEnd_complete _
  case lfoSetfreq =>
    split
    next => exact commandEnd_raise _
    next =>
      split
      · exact commandEnd_raise _
      · exact commandEnd_complete _
  case lfoGetfreq =>
    split
    · exact commandEnd_raiseSentinel _
    · exact commandEnd_completeWith _ _
  case lfoNext =>
    split
    next => exact commandEnd_raise _
    next =>
      split
      · exact commandEnd_becomeStuck _
      · exact commandEnd_completeWith _ _
  case lfoBlock =>
    dsimp only
    split_ifs
    · exact commandEnd_raise _
    · exact commandEnd_becomeStuck _
    · exact commandEnd_complete _

theorem exec_vib_end {i : Instr} {s t : State} (hi : isVibCommand i = true) (h : exec i s = .next t) :
    CommandEnd (returnsSentinel i) s t := by
  cases i <;> cases hi
  all_goals cases h
  case vibInit =>
    dsimp only
    split_ifs
    · exact commandEnd_raise _
    · exact commandEnd_raise _
    · exact commandEnd_complete _
  case vibReset => exact commandEnd_complete _
  case vibSetparam p =>
    dsimp only
    split_ifs
    · exact commandEnd_raise _
    · exact commandEnd_raise _
    · exact commandEnd_complete _
    · exact commandEnd_raise _
    · exact commandEnd_complete _
    · exact commandEnd_raise _
  case vibGetparam p =>
    split_ifs
    · exact commandEnd_raiseSentinel _
    · exact commandEnd_raiseSentinel _
    · exact commandEnd_completeWith _ _
    · exact commandEnd_completeWith _ _
  case vibProcess =>
    dsimp only
    split_ifs
    · exact commandEnd_raise _
    · exact commandEnd_becomeStuck _
    · exact commandEnd_complete _

theorem exec_command_end {i : Instr} {s t : State} (hc : isCommand i = true) (h : exec i s = .next t) :
    CommandEnd (returnsSentinel i) s t := by
  rcases exec_command_effect hc h with ⟨n, hi, -⟩ | ⟨hi, -⟩ | ⟨hi, -⟩
  · exact exec_ringBuffer_end hi h
  · exact exec_lfo_end hi h
  · exact exec_vib_end hi h

/-- Settles O46: a command that ends neither with NoError nor stuck ends in a trap entry from the state it began in. -/
theorem failureIsPrecise : Obligations.FailureIsPrecise := by
  intro i s t hc h hns hst
  obtain ⟨hframe, hres⟩ := (exec_command_end hc h).frame_of_failed hns hst
  exact ⟨hframe, fun hf hp => hres (returnsSentinel_eq_false hf hp)⟩

end Sys2Proof.Machine
end

section
/-! Two obligations of the reset family: `LFO.BLOCK` stuck in a frame (R240), and the software resets (R231). -/

namespace Sys2Proof.Machine

/-! ### `LFO.BLOCK` stuck in a frame -/

/-- Where the LFO step of the first frame is stuck, no frame does anything (R240, log 6). -/
theorem blockFrames_of_lfoNext_eq_none {p : Params} {dst stride nch n i : Nat} {l : Lfo} (m : Memory) (hn : n ≠ 0)
    (hl : lfoNext p.sine l = none) : blockFrames p dst stride nch n i l m = { lfo := l, mem := m, stuck := true } := by
  obtain ⟨k, rfl⟩ := Nat.exists_eq_succ_of_ne_zero hn
  simp only [blockFrames, hl]

/-- The loop of `LFO.BLOCK` stuck in frame `f` has written the frames before it. -/
theorem blockFrames_eq_stuck {p : Params} {a b nch f n : Nat} {L : Nat → Lfo} {v : Nat → Word} (m : Memory) (hf : f < n)
    (hL : ∀ i, i < f → lfoNext p.sine (L i) = some (v i, L (i + 1))) (hnone : lfoNext p.sine (L f) = none) :
    blockFrames p (a % memoryWords p.addressWidth) (b % memoryWords p.addressWidth) nch n 0 (L 0) m =
      { lfo := L f, mem := framesWritten p.addressWidth a b nch v m f, stuck := true } := by
  have hfirst := blockFrames_eq (a := a) (b := b) (nch := nch) m hL
  rw [show n = f + (n - f) by omega, blockFrames_add (by rw [hfirst]), hfirst]
  exact blockFrames_of_lfoNext_eq_none _ (by omega) hnone

/-- Settles O34: the frames before `f` are written, and no later frame writes anything. -/
theorem lfoBlockStuck : Obligations.LfoBlockStuck := by
  intro s L v f hr h0 hf hL hnone
  have hrun := blockFrames_eq_stuck (a := s.args[0].toNat) (b := s.args[1].toNat) (nch := s.args[2].toNat) s.mem hf hL hnone
  rw [h0] at hrun
  exact ⟨_, exec_lfoBlock_of_blockFrames hr hrun, rfl, rfl, rfl, rfl, fun x => readByte_framesWritten_other v s.mem⟩

/-! ### The software resets -/

/-- The state after `RB.DESTROY` of the slots `0 .. k-1`. -/
def destroyed (s : State) (k : Nat) : State :=
  { s with st := if k = 0 then s.st else 0, urb := List.replicate k none ++ s.urb.drop k }

/-- Emptying the first slot not yet emptied. -/
theorem set_replicate_append_drop {α : Type} {l : List α} {k : Nat} (hk : k < l.length) (a : α) :
    (List.replicate k a ++ l.drop k).set k a = List.replicate (k + 1) a ++ l.drop (k + 1) := by
  rw [List.set_append_right _ _ (by simp), List.length_replicate, Nat.sub_self, List.drop_eq_getElem_cons hk, List.set_cons_zero,
    List.replicate_succ', List.append_assoc, List.singleton_append]

theorem exec_rbDestroy_destroyed {s : State} {k : Nat} (hk : k < s.params.userSlots) (hmax : s.params.userSlots ≤ 256)
    (hlen : s.urb.length = s.params.userSlots) :
    exec (.rbDestroy (BitVec.ofNat 8 k)) (destroyed s k) = .next (destroyed s (k + 1)) := by
  have hsel : (BitVec.ofNat 8 k).toNat = k := BitVec.toNat_ofNat .. |>.trans (Nat.mod_eq_of_lt (by omega))
  rw [rbDestroy _ _ (hsel.symm ▸ hk : _ < (destroyed s k).params.userSlots), hsel, destroyed, destroyed,
    set_replicate_append_drop (hlen ▸ hk), if_neg k.succ_ne_zero]

/-- Settles O13: the slots are emptied from the first on, and the two units then get their reset values. -/
theorem softwareResets : Obligations.SoftwareResets := by
  intro s hmax hlen
  obtain ⟨hlfo, -⟩ := unitResets (destroyed s s.params.userSlots)
  have ⟨_, hvib⟩ := unitResets { destroyed s s.params.userSlots with st := 0, ulfo := Lfo.reset }
  refine ⟨destroyed s, _, _, rfl, fun k hk => ⟨exec_rbDestroy_destroyed hk hmax hlen, rfl⟩, hlfo, rfl, hvib, ?_⟩
  have hurb : (destroyed s s.params.userSlots).urb = List.replicate s.params.userSlots none := by
    rw [destroyed, ← hlen, List.drop_length, List.append_nil]
  rw [hurb]
  rfl

end Sys2Proof.Machine
end

section
/-! SUPPORT. A block command cut off by hardware reset (R230). `LFO.BLOCK` and `VIB.PROCESS` are cut alike: their whole frames, then
some channels of one more. So what is left of them is said once, for a sequence `M k` of the memories after `k` writes. -/

namespace Sys2Proof.Machine

/-! ### What the two block commands share -/

/-- The memory after the first `writes` writes of a command of `n` frames of `nch` channels: `run k` is the run of `k` frames,
`channels k d v l` the memory after `d` channels of frame `k`, whose LFO step gives `v` and leaves `l`. -/
def cutMemory (table : SineContents) (writes nch n : Nat) (run : Nat → BlockRun)
    (channels : Nat → Nat → Word → Lfo → Memory) : Memory :=
  let r := run (min (writes / nch) n)
  if r.stuck || decide (n ≤ writes / nch) then r.mem
  else
    match lfoNext table r.lfo with
    | none => r.mem
    | some (v, l) => channels (min (writes / nch) n) (min (writes % nch) nch) v l

/-- The run of the first `k` frames of `LFO.BLOCK` (R150). -/
def blockRun (s : State) (k : Nat) : BlockRun :=
  blockFrames s.params (argAddress 0 s) (argAddress 1 s) (argUint 2 s) k 0 s.ulfo s.mem

/-- The memory after `d` channels of frame `k` of `LFO.BLOCK`, the frames before it done. -/
def blockPart (s : State) (k d : Nat) (v : Word) (_ : Lfo) : Memory :=
  blockChannels s.params.addressWidth (argAddress 0 s) (argAddress 1 s) k v d 0 (blockRun s k).mem

/-- The run of the first `k` frames of `VIB.PROCESS` (R179). -/
def processFrames (s : State) (k : Nat) : VibRun :=
  vibFrames s.params (argAddress 0 s) (argAddress 1 s) (argAddress 2 s) k 0 s.vib s.mem

/-- The same run, of the engine its LFO only. -/
def processRun (s : State) (k : Nat) : BlockRun :=
  { lfo := (processFrames s k).vib.lfo, mem := (processFrames s k).mem, stuck := (processFrames s k).stuck }

/-- The memory after `d` channels of frame `k` of `VIB.PROCESS`, the frames before it done. -/
def processPart (s : State) (k d : Nat) (sample : Word) (l : Lfo) : Memory :=
  (vibChannels s.params.addressWidth (argAddress 0 s) (argAddress 1 s) (argAddress 2 s) k
    (vibOffset (processFrames s k).vib sample) d 0 { (processFrames s k).vib with lfo := l } (processFrames s k).mem).2

/-- What `LFO.BLOCK` leaves when it is abandoned (R230), as a cut of its frames. -/
theorem abandonedBlock_eq_cutMemory {s : State} (hr : s.ulfo.ready = true) (writes : Nat) :
    abandonedBlock writes s =
      cutMemory s.params.sine writes (argUint 2 s) (argUint 3 s) (blockRun s) (blockPart s) := by
  rw [abandonedBlock, hr, cutMemory]
  by_cases hn : argUint 3 s ≤ writes / argUint 2 s
  · simp only [hn, decide_true, Bool.or_true, if_true]
    rfl
  · simp only [min_eq_left (Nat.le_of_not_le hn)]
    rfl

/-- What `VIB.PROCESS` leaves when it is abandoned (R230), as a cut of its frames. -/
theorem abandonedProcess_eq_cutMemory {s : State} (hr : s.vib.ready = true) (writes : Nat) :
    abandonedProcess writes s =
      cutMemory s.params.sine writes s.vib.nch (argUint 3 s) (processRun s) (processPart s) := by
  rw [abandonedProcess, hr, cutMemory]
  by_cases hn : argUint 3 s ≤ writes / s.vib.nch
  · simp only [hn, decide_true, Bool.or_true, if_true]
    rfl
  · simp only [min_eq_left (Nat.le_of_not_le hn)]
    rfl

section Cut
variable {table : SineContents} {writes nch n : Nat} {run : Nat → BlockRun} {channels : Nat → Nat → Word → Lfo → Memory}

/-- A cut that falls between two frames, behind the last one, or behind a stuck one leaves the memory of its whole frames. -/
theorem cutMemory_between {k : Nat} (hk : min (writes / nch) n = k)
    (h : n ≤ writes / nch ∨ (run k).stuck = true ∨ lfoNext table (run k).lfo = none ∨
      ∀ v l, channels k (min (writes % nch) nch) v l = (run k).mem) :
    cutMemory table writes nch n run channels = (run k).mem := by
  rw [cutMemory, hk]
  rcases h with h | h | h | h
  · simp [h]
  · simp [h]
  · simp [h]
  · simp only [h]
    split
    · rfl
    · split <;> rfl

/-- A cut inside frame `k`. -/
theorem cutMemory_inside {k : Nat} {v : Word} {l : Lfo} (hk : writes / nch = k) (hkn : k < n) (hrun : (run k).stuck = false)
    (hl : lfoNext table (run k).lfo = some (v, l)) :
    cutMemory table writes nch n run channels = channels k (min (writes % nch) nch) v l := by
  rw [cutMemory, hk, min_eq_left hkn.le]
  simp [hrun, hl, hkn]

/-- A run whose first `F` frames are not stuck: `L f` is the LFO before frame `f`, `v f` its value there, and `M k` the memory after
`k` writes, `nch` of them in each frame. -/
structure FrameRun (table : SineContents) (nch F : Nat) (run : Nat → BlockRun) (channels : Nat → Nat → Word → Lfo → Memory)
    (L : Nat → Lfo) (v : Nat → Word) (M : Nat → Memory) : Prop where
  next : ∀ f, f < F → lfoNext table (L f) = some (v f, L (f + 1))
  whole : ∀ f, f ≤ F → run f = { lfo := L f, mem := M (f * nch), stuck := false }
  stuck : lfoNext table (L F) = none → ∀ f, F < f → run f = { lfo := L F, mem := M (F * nch), stuck := true }
  part : ∀ f d, f < F → d ≤ nch → channels f d (v f) (L (f + 1)) = M (f * nch + d)
  no_channel : ∀ f v l, channels f 0 v l = (run f).mem

/-- A cut leaves the memory after the writes made: by whether it falls inside one of the `F` frames or behind them. -/
theorem cutMemory_eq {F : Nat} {L : Nat → Lfo} {v : Nat → Word} {M : Nat → Memory}
    (hrun : FrameRun table nch F run channels L v M) (hF : F ≤ n)
    (hend : F = n ∨ lfoNext table (L F) = none ∨ writes ≤ F * nch) :
    cutMemory table writes nch n run channels = M (min writes (F * nch)) := by
  rcases Nat.eq_zero_or_pos nch with rfl | hpos
  · rw [cutMemory_between (k := 0) (by simp) (.inr (.inr (.inr fun v l => by rw [Nat.min_zero, hrun.no_channel]))),
      hrun.whole 0 F.zero_le]
    simp
  rcases Nat.lt_or_ge (writes / nch) F with hin | hout
  case inl =>
    have hwhole := hrun.whole _ hin.le
    have hmod := Nat.mod_lt writes hpos
    have hwrites : writes < F * nch := (Nat.div_lt_iff_lt_mul hpos).1 hin
    rw [cutMemory_inside rfl (hin.trans_le hF) (by rw [hwhole]) (by rw [hwhole]; exact hrun.next _ hin), min_eq_left hmod.le,
      hrun.part _ _ hin hmod.le, min_eq_left hwrites.le, Nat.div_add_mod']
  case inr =>
    have hwrites : F * nch ≤ writes := (Nat.le_div_iff_mul_le hpos).1 hout
    rw [min_eq_right hwrites]
    have hwhole := hrun.whole F le_rfl
    rcases hend with rfl | hnone | hle
    · rw [cutMemory_between (min_eq_right hout) (.inl hout), hwhole]
    · rcases (le_min hout hF).eq_or_lt with hk | hk
      · rw [cutMemory_between hk.symm (.inr (.inr (.inl (by rw [hwhole]; exact hnone)))), hwhole]
      · have hstuck := hrun.stuck hnone _ hk
        rw [cutMemory_between rfl (.inr (.inl (by rw [hstuck]))), hstuck]
    · obtain rfl : writes = F * nch := le_antisymm hle hwrites
      have hdiv : F * nch / nch = F := Nat.mul_div_cancel F hpos
      rw [cutMemory_between (k := F) (by rw [hdiv, min_eq_left hF])
        (.inr (.inr (.inr fun v l => by rw [Nat.mul_mod_left, Nat.zero_min, hrun.no_channel]))), hwhole]

end Cut

end Sys2Proof.Machine
end

section
/-! The obligation on hardware reset during a command (R230): `RB.GETN` is cut by elements, the two block commands by the writes of
their frames. -/

namespace Sys2Proof.Machine

/-! ### The step -/

/-- A step at which hardware reset comes during a command (R230, log 12). -/
theorem step_resetDuring {s : State} {bits : BitVec 36} {writes : Nat} {rest : List HostEvent} {i : Instr} {w : Word}
    (hs : s.stuck = false) (hp : s.pending = .resetDuring bits writes :: rest) (ht : decodeTransaction bits = .wr 0 w)
    (hi : decodeCommand s.params.userSlots w = .ok i) :
    step s = .next { hardwareReset s with mem := abandonedMemory i writes s, pending := rest } := by
  have hstart : startedCommand s.params.userSlots (.wr 0 w) = some i := by simp [startedCommand, hi, Except.toOption]
  have hmem : abandonedMemory i writes { s with pending := rest } = abandonedMemory i writes s := by cases i <;> rfl
  rw [step_of_accepted hp (eventAccepted_of_not_stuck hs _), acceptEvent, ht, resetDuringTransaction]
  simp only [hstart, hmem]
  rfl

theorem abandonedMemory_of_no_write {i : Instr} (writes : Nat) (s : State) (hg : ∀ n, i ≠ .rbGetn n) (hb : i ≠ .lfoBlock)
    (hp : i ≠ .vibProcess) : abandonedMemory i writes s = s.mem := by
  cases i
  case rbGetn n => exact absurd rfl (hg n)
  case lfoBlock => exact absurd rfl hb
  case vibProcess => exact absurd rfl hp
  all_goals rfl

/-! ### `RB.GETN` -/

/-- The memory after `n` elements of `RB.GETN`, write by write (R118). -/
theorem getWords_snd_eq_foldl {aw : Nat} (a n : Nat) {b : RingBuffer} (m : Memory) (hrd : b.rd < b.cap) :
    (getWords aw (a % memoryWords aw) n 0 b m).2 =
      (List.range n).foldl (fun m k => memWrite aw m (a + k) (b.store.getD ((b.rd + k) % b.cap) 0)) m := by
  induction n with
  | zero => rfl
  | succ n ih =>
    rw [getWords_snd_succ n a m hrd, List.range_succ, List.foldl_concat, ih]
    rfl

theorem abandonedGetn_of_absent {s : State} {n : BitVec 8} (writes : Nat) (h : slot n s = none) : abandonedGetn n writes s = s.mem := by
  rw [abandonedGetn, h]

theorem abandonedGetn_of_present {s : State} {n : BitVec 8} {b : RingBuffer} (writes : Nat) (h : slot n s = some b) :
    abandonedGetn n writes s =
      (getWords s.params.addressWidth (argAddress 0 s) (min writes (argUint 1 s)) 0 b s.mem).2 := by
  rw [abandonedGetn, h]

/-! ### `LFO.BLOCK` -/

section Block
variable {aw a b nch : Nat} {v : Nat → Word} {m : Memory}

/-- The memory after the first `n` writes of a block of `nch` channels at base `a` with stride `b`: write `k` is channel `k % nch`
of frame `k / nch` (R68, R150). -/
def blockWrites (aw a b nch : Nat) (v : Nat → Word) (m : Memory) (n : Nat) : Memory :=
  (List.range n).foldl (fun m k => memWrite aw m (a + k % nch * b + k / nch) (v (k / nch))) m

/-- The position of channel `j` of frame `f` among the channel steps. -/
theorem channelStep_position {f j n : Nat} (hj : j < n) : (f * n + j) / n = f ∧ (f * n + j) % n = j := by
  rw [Nat.mul_comm, Nat.mul_add_div (by omega), Nat.div_eq_of_lt hj, Nat.mul_add_mod, Nat.mod_eq_of_lt hj]
  exact ⟨rfl, rfl⟩

/-- The channels of frame `f` are its writes. -/
theorem frameWritten_blockWrites {f d : Nat} (hd : d ≤ nch) :
    frameWritten aw a b f (v f) d (blockWrites aw a b nch v m (f * nch)) = blockWrites aw a b nch v m (f * nch + d) := by
  induction d with
  | zero => rfl
  | succ d ih =>
    obtain ⟨hdiv, hmod⟩ := channelStep_position (f := f) (j := d) (n := nch) (by omega)
    rw [frameWritten_succ, ih (by omega), ← Nat.add_assoc, blockWrites, blockWrites, List.range_succ, List.foldl_concat, hdiv, hmod]

theorem framesWritten_eq_blockWrites (f : Nat) : framesWritten aw a b nch v m f = blockWrites aw a b nch v m (f * nch) := by
  induction f with
  | zero => rw [Nat.zero_mul]; rfl
  | succ f ih => rw [framesWritten, ih, frameWritten_blockWrites le_rfl, Nat.succ_mul]

end Block

/-- The frames of `LFO.BLOCK` as a run of writes. -/
theorem frameRun_block {s : State} {F : Nat} {L : Nat → Lfo} {v : Nat → Word} (h0 : L 0 = s.ulfo)
    (hL : ∀ f, f < F → lfoNext s.params.sine (L f) = some (v f, L (f + 1))) :
    FrameRun s.params.sine s.args[2].toNat F (blockRun s) (blockPart s) L v
      (blockWrites s.params.addressWidth s.args[0].toNat s.args[1].toNat s.args[2].toNat v s.mem) where
  next := hL
  no_channel _ _ _ := rfl
  whole f hf := by
    rw [← framesWritten_eq_blockWrites, ← blockFrames_eq s.mem fun i hi => hL i (by omega), h0]
    rfl
  stuck hnone f hf := by
    rw [← framesWritten_eq_blockWrites, ← blockFrames_eq_stuck s.mem hf hL hnone, h0]
    rfl
  part f d hf hd := by
    rw [← frameWritten_blockWrites hd, ← framesWritten_eq_blockWrites, frameWritten]
    have hrun := blockFrames_eq (a := s.args[0].toNat) (b := s.args[1].toNat) (nch := s.args[2].toNat) s.mem
      fun i hi => hL i (hi.trans hf)
    rw [h0] at hrun
    exact congrArg (fun r : BlockRun => blockChannels _ _ _ f (v f) d 0 r.mem) hrun

/-! ### `VIB.PROCESS` -/

section Process
variable {s : State} {F : Nat} {L : Nat → Lfo} {sample : Nat → Word} {D : Nat → Nat → RingBuffer} {M : Nat → Memory}

/-- The delay lines of the channels are those given. -/
def linesAre (s : State) (dl : List (Option RingBuffer)) (d : Nat → RingBuffer) : Prop :=
  ∀ j, j < s.vib.nch → dl[j]? = some (some (d j))

/-- The accesses of channel `j` of frame `f`, written with the operations of the model. -/
theorem channelAccesses_at {f j : Nat} (hj : j < s.vib.nch) (h : channelAccesses s sample D M (f * s.vib.nch + j)) :
    let k := f * s.vib.nch + j
    let r := channelStep (D k j) (vibOffset s.vib (sample f))
      (memRead s.params.addressWidth (M k) (s.args[0].toNat + j * s.args[2].toNat + f))
    M (k + 1) = memWrite s.params.addressWidth (M k) (s.args[1].toNat + j * s.args[2].toNat + f) r.1 ∧
      D (k + 1) j = r.2 ∧ ∀ j', j' ≠ j → D (k + 1) j' = D k j' := by
  obtain ⟨hdiv, hmod⟩ := channelStep_position (f := f) hj
  simp only [channelAccesses, hdiv, hmod] at h
  exact h

/-- Frame `f` of `VIB.PROCESS` at `s`, its LFO step done, from the delay lines `dl` and the memory `m`. -/
def processRow (s : State) (f : Nat) (sample : Word) (l : Lfo) (dl : List (Option RingBuffer)) (m : Memory) : ChannelRow :=
  { aw := s.params.addressWidth, inp := s.args[0].toNat, out := s.args[1].toNat, stride := s.args[2].toNat, frame := f,
    offset := vibOffset s.vib sample, vib := { s.vib with lfo := l, dl := dl }, mem := m }

/-- The channels of frame `f` make the accesses of their steps. -/
theorem processRow_accesses (hacc : ∀ k, k < F * s.vib.nch → channelAccesses s sample D M k) {f : Nat} (hf : f < F) (l : Lfo)
    {dl : List (Option RingBuffer)} (hdl : linesAre s dl (D (f * s.vib.nch))) {d : Nat} (hd : d ≤ s.vib.nch) :
    (processRow s f (sample f) l dl (M (f * s.vib.nch))).memAfter d = M (f * s.vib.nch + d) ∧
      linesAre s ((processRow s f (sample f) l dl (M (f * s.vib.nch))).after d).1.dl (D (f * s.vib.nch + d)) := by
  generalize hrow : processRow s f (sample f) l dl (M (f * s.vib.nch)) = row
  induction d with
  | zero => subst hrow; exact ⟨rfl, hdl⟩
  | succ d ih =>
    obtain ⟨hmem, hlines⟩ := ih (by omega)
    have hk : f * s.vib.nch + d < F * s.vib.nch := by nlinarith
    obtain ⟨hM, hD, hother⟩ := channelAccesses_at (by omega) (hacc _ hk)
    have hline : delayLine row.vib d = D (f * s.vib.nch + d) d :=
      delayLine_of_getElem? ((row.after_dl_of_le le_rfl).symm.trans (hlines d (by omega)))
    have hresult : row.result d = channelStep (D (f * s.vib.nch + d) d) (vibOffset s.vib (sample f))
        (memRead s.params.addressWidth (M (f * s.vib.nch + d)) (s.args[0].toNat + d * s.args[2].toNat + f)) := by
      rw [ChannelRow.result, hline, ChannelRow.input, hmem, ← hrow]
      rfl
    constructor
    · rw [row.memAfter_succ, hmem, ChannelRow.output, hresult, ← Nat.add_assoc, hM, ← hrow]
      rfl
    · intro j hj
      rw [row.after_succ, ← Nat.add_assoc]
      by_cases hjd : d = j
      · subst hjd
        have hlen : d < (row.after d).1.dl.length := (List.getElem?_eq_some_iff.1 (hlines d hj)).1
        rw [setDelayLine_dl, List.getElem?_set_self hlen, hD, hresult]
      · rw [getElem?_setDelayLine_of_ne _ hjd, hlines j hj, hother j (Ne.symm hjd)]

/-- The frames from frame `f` on, the run of those before it being `r`. -/
theorem processFrames_add {f : Nat} {r : VibRun} (hrun : processFrames s f = r) (hr : r.stuck = false) (n : Nat) :
    processFrames s (f + n) =
      vibFrames s.params (argAddress 0 s) (argAddress 1 s) (argAddress 2 s) n f r.vib r.mem := by
  subst hrun
  rw [processFrames, vibFrames_add _ _ _ f n 0 _ _ hr, Nat.zero_add]
  rfl

/-- One frame more, its LFO step not stuck: the row of its channels. -/
theorem processFrames_succ {f : Nat} {l l' : Lfo} {dl : List (Option RingBuffer)} {m : Memory} {x : Word}
    (hrun : processFrames s f = { vib := { s.vib with lfo := l, dl := dl }, mem := m, stuck := false })
    (hl : lfoNext s.params.sine l = some (x, l')) :
    processFrames s (f + 1) =
      { vib := { s.vib with lfo := l', dl := ((processRow s f x l' dl m).after s.vib.nch).1.dl },
        mem := (processRow s f x l' dl m).memAfter s.vib.nch, stuck := false } := by
  have hvib : ((processRow s f x l' dl m).after s.vib.nch).1 =
      { s.vib with lfo := l', dl := ((processRow s f x l' dl m).after s.vib.nch).1.dl } := vibChannels_vib ..
  rw [processFrames_add hrun rfl, vibFrames_one (v := { s.vib with lfo := l, dl := dl }) m hl]
  exact congrArg (fun v => VibRun.mk v _ false) hvib

/-- The first `f` frames of `VIB.PROCESS`, none of which is stuck. -/
theorem processFrames_accesses (h0 : L 0 = s.vib.lfo) (hM : M 0 = s.mem) (hdl : linesAre s s.vib.dl (D 0))
    (hL : ∀ f, f < F → lfoNext s.params.sine (L f) = some (sample f, L (f + 1)))
    (hacc : ∀ k, k < F * s.vib.nch → channelAccesses s sample D M k) {f : Nat} (hf : f ≤ F) :
    ∃ dl, linesAre s dl (D (f * s.vib.nch)) ∧
      processFrames s f = { vib := { s.vib with lfo := L f, dl := dl }, mem := M (f * s.vib.nch), stuck := false } := by
  induction f with
  | zero => exact ⟨s.vib.dl, by rwa [Nat.zero_mul], by rw [h0, Nat.zero_mul, hM]; rfl⟩
  | succ f ih =>
    obtain ⟨dl, hlines, hrun⟩ := ih (by omega)
    obtain ⟨hmem, hlines'⟩ := processRow_accesses hacc hf (L (f + 1)) hlines le_rfl
    rw [Nat.succ_mul]
    exact ⟨_, hlines', by rw [processFrames_succ hrun (hL f hf), hmem]⟩

/-- The frames of `VIB.PROCESS` as a run of writes. -/
theorem frameRun_process (h0 : L 0 = s.vib.lfo) (hM : M 0 = s.mem) (hdl : linesAre s s.vib.dl (D 0))
    (hL : ∀ f, f < F → lfoNext s.params.sine (L f) = some (sample f, L (f + 1)))
    (hacc : ∀ k, k < F * s.vib.nch → channelAccesses s sample D M k) :
    FrameRun s.params.sine s.vib.nch F (processRun s) (processPart s) L sample M where
  next := hL
  no_channel _ _ _ := rfl
  whole f hf := by
    obtain ⟨dl, -, hrun⟩ := processFrames_accesses h0 hM hdl hL hacc hf
    rw [processRun, hrun]
  stuck hnone f hf := by
    obtain ⟨dl, -, hrun⟩ := processFrames_accesses h0 hM hdl hL hacc le_rfl
    obtain ⟨n, rfl⟩ := Nat.exists_eq_add_of_lt hf
    rw [processRun, Nat.add_assoc, processFrames_add hrun rfl,
      vibFrames_of_lfoNext_eq_none (v := { s.vib with lfo := L F, dl := dl }) _ n.succ_ne_zero hnone]
  part f d hf hd := by
    obtain ⟨dl, hlines, hrun⟩ := processFrames_accesses h0 hM hdl hL hacc hf.le
    rw [processPart, hrun, ← (processRow_accesses hacc hf (L (f + 1)) hlines hd).1]
    rfl

end Process

/-- Settles O12: what a command leaves is its first writes, by the command. -/
theorem resetAbandonsCommand : Obligations.ResetAbandonsCommand := by
  intro s bits writes rest i w hs hp ht hi
  refine ⟨_, step_resetDuring hs hp ht hi, rfl, abandonedMemory_of_no_write writes s, ?absent, ?getn, ?notReady, ?block,
    ?vibNotReady, ?process⟩
  case absent =>
    rintro n rfl h
    exact abandonedGetn_of_absent writes h
  case getn =>
    rintro n b rfl h ⟨-, -, hrd, -⟩
    exact (abandonedGetn_of_present writes h).trans (getWords_snd_eq_foldl _ _ _ hrd)
  case notReady =>
    rintro rfl hr
    change abandonedBlock writes s = _
    rw [abandonedBlock, hr]
    rfl
  case block =>
    rintro F L v rfl hr h0 hF hL hend
    exact (abandonedBlock_eq_cutMemory hr writes).trans (cutMemory_eq (frameRun_block h0 hL) hF hend)
  case vibNotReady =>
    rintro rfl hr
    change abandonedProcess writes s = _
    rw [abandonedProcess, hr]
    rfl
  case process =>
    rintro F L sample D M rfl hr - h0 hM hdl hF hL hacc hend
    exact (abandonedProcess_eq_cutMemory hr writes).trans (cutMemory_eq (frameRun_process h0 hM hdl hL hacc) hF hend)

end Sys2Proof.Machine
end
